-- ==== Sys2Proof/Word.lean ====
section
/-! DEFINITION. The widths of the encoder's values (spec/00_scope.md section 5.3: levels 1 bit, bytes 8 bits,
request word 10 bits, frame 24 bits). All values are unsigned (00_scope.md section 5.1). -/

namespace Sys2Proof

/-- A payload byte: bit 0 is the least significant bit (00_scope.md section 5.1). -/
abbrev Byte := BitVec 8

/-- The request word `req_word[9:0]` (30_encoding.md R110). -/
abbrev ReqWord := BitVec 10

/-- A frame as a number, slot s at bit 23 - s (00_scope.md section 5.1, 30_encoding.md R95). -/
abbrev FrameWord := BitVec 24

/-- The level of a line: `some false` is 0, `some true` is 1, `none` is X, "no defined level"
(00_scope.md section 5.1, 10_state.md R21). -/
abbrev Level := Option Bool

end Sys2Proof
end

