-- ==== Sys2Proof/Config.lean ====
section
/-! DEFINITION. The implementation parameters of spec/00_scope.md R7 to R15: the complete list (R19). They are fixed at
construction and never change while the encoder runs, so a configuration is carried in the encoder's state as plain
data and every statement about all states is a statement about all configurations. The suggested instance of the
sequence table stands in Machine/SeqRom.lean, the check of rule R231 in Machine/ConfigCheck.lean. -/

namespace Sys2Proof

/-- The kind of a table entry: `command` is C, `data` is D (00_scope.md R14, 42_init_sequencer.md R183). -/
inductive Kind where
  | command
  | data
deriving DecidableEq, Repr

/-- How a table entry's byte depends on the geometry (42_init_sequencer.md R183 column "value", R186, R187). -/
inductive Code where
  /-- The same byte whatever the geometry. -/
  | fixed (b : Byte)
  /-- `b | ROW_BIT_MASK` when `Row_bit` is set, `b` when it is clear (R186). -/
  | rowBit (b : Byte)
  /-- The first byte if `ROWS > 2`, else the second (R183 entry 10, R187). -/
  | rowsAboveTwo (above upTo : Byte)
deriving DecidableEq, Repr

/-- The pause after an entry's frame (42_init_sequencer.md R183 column "after"). -/
inductive After where
  | nothing
  /-- `WaitMs(T_CLEAR_MS)`. -/
  | clear
  /-- `WaitMs(T_STABLE_MS)`. -/
  | stable
deriving DecidableEq, Repr

/-- The names of the entries (42_init_sequencer.md R183 column "parameter"), in the order of their first entry. Which part
of its step's words an entry stands for is its name. -/
inductive Param where
  | cmdFuncsetExt
  | cmdFuncSelA
  | datVreg
  | cmdFuncsetFund
  | cmdDisplayOff
  | cmdOledEnable
  | cmdSetClock
  | valClock
  | cmdOledDisable
  /-- `CMD_EXT_FUNCSET_34` / `CMD_EXT_FUNCSET_12`. -/
  | cmdExtFuncset
  | cmdEntryMode
  | cmdFuncSelB
  | datRomCgram
  | cmdSetSegHw
  | valSegHw
  | cmdFuncSelC
  | valFuncC
  | cmdSetContrast
  | valContrast
  | cmdSetPhase
  | valPhase
  | cmdSetVcomh
  | valVcomh
  | cmdClear
  | cmdHome
  | cmdDisplayOn
deriving DecidableEq, Repr

/-- One entry of `SEQ_ROM`. `initStep` is the number of the initialization step it belongs to and `param` its name
(42_init_sequencer.md R183 columns "step" and "parameter"): rule R184 is stated over them. -/
structure SeqEntry where
  initStep : Nat
  param    : Param
  kind     : Kind
  code     : Code
  after    : After
deriving DecidableEq, Repr

/-- The parameters of one encoder (00_scope.md R7 to R15, 10_state.md R31). `Row_bit` is derived from `rows` (R8). -/
structure Config where
  /-- `ROWS` (R7). -/
  rows        : Nat
  /-- `COLUMNS` (R7); nothing in the encoder reads it. -/
  columns     : Nat
  /-- `ROW_BIT_MASK` (R8). -/
  rowBitMask  : Byte
  /-- `CS_PRESENT` (R9). -/
  csPresent   : Bool
  /-- `RES_PRESENT` (R9). -/
  resPresent  : Bool
  /-- `T_SETTLE_US` (R10). -/
  tSettleUs   : Nat
  /-- `T_CLEAR_MS` (R11). -/
  tClearMs    : Nat
  /-- `T_STABLE_MS` (R12). -/
  tStableMs   : Nat
  /-- `HAS_INIT_SEQ` (R13). -/
  hasInitSeq  : Bool
  /-- `SEQ_ROM` (R14). -/
  seqRom      : List SeqEntry
  /-- `IO_FALLIBLE` (R15). -/
  ioFallible  : Bool
deriving DecidableEq, Repr

/-- Why a configuration is ill formed (60_exceptions.md R231): which conjunct fails. -/
inductive ConfigFlaw where
  /-- `ROWS` is none of 1, 2, 3, 4. -/
  | rows
  /-- `COLUMNS` is 0. -/
  | columns
  /-- `T_SETTLE_US < 3`. -/
  | settleTime
  /-- `T_CLEAR_MS < 2`. -/
  | clearTime
  /-- `T_STABLE_MS < 250`. -/
  | stableTime
  /-- `SEQ_ROM`'s steps are not in the order 2, ..., 13, or it holds an entry of no such step (R184(a)). -/
  | romOrder
  /-- The entries of this initialization step are not those its words name, in the order of the words (R184(a)). -/
  | romStep (n : Nat)
  /-- An entry of this name has not the kind, the dependence on geometry, the byte or the pause R184(b) to (i) gives it. -/
  | romEntry (p : Param)
  /-- The entries of this name do not all send the same function-set code (R184(c), R186). -/
  | romCode (p : Param)
deriving DecidableEq, Repr

end Sys2Proof
end

