-- ==== Sys2Proof/Machine/SeqRom.lean ====
section
/-! DEFINITION. The suggested default instance of `SEQ_ROM` (spec/42_init_sequencer.md R183), byte for byte as the table
gives it. Every byte but those of entries 20 (0x7F), 27 (0x01) and 28 (0x80) is the spec's own suggestion from general
knowledge (R185, 93_implementation_defined.md section 2): log entry 9. -/

namespace Sys2Proof.Machine

/-- A command entry with a fixed byte and no pause. -/
def cmdEntry (initStep : Nat) (p : Param) (b : Byte) : SeqEntry :=
  { initStep := initStep, param := p, kind := .command, code := .fixed b, after := .nothing }

/-- A data entry with a fixed byte and no pause. -/
def dataEntry (initStep : Nat) (p : Param) (b : Byte) : SeqEntry :=
  { initStep := initStep, param := p, kind := .data, code := .fixed b, after := .nothing }

/-- A command entry whose byte embeds `Row_bit` (R186). -/
def rowBitEntry (initStep : Nat) (p : Param) (b : Byte) : SeqEntry :=
  { initStep := initStep, param := p, kind := .command, code := .rowBit b, after := .nothing }

/-- Entries 0 to 4: steps 2 to 5. -/
def seqRomSteps2to5 : List SeqEntry :=
  [rowBitEntry 2 .cmdFuncsetExt 0x22#8, cmdEntry 3 .cmdFuncSelA 0x71#8, dataEntry 3 .datVreg 0x5C#8,
   rowBitEntry 4 .cmdFuncsetFund 0x20#8, cmdEntry 5 .cmdDisplayOff 0x08#8]

/-- Entries 5 to 13: steps 6 to 9. -/
def seqRomSteps6to9 : List SeqEntry :=
  [rowBitEntry 6 .cmdFuncsetExt 0x22#8, cmdEntry 6 .cmdOledEnable 0x79#8, cmdEntry 6 .cmdSetClock 0xD5#8,
   cmdEntry 6 .valClock 0x70#8, cmdEntry 6 .cmdOledDisable 0x78#8,
   { initStep := 7, param := .cmdExtFuncset, kind := .command, code := .rowsAboveTwo 0x09#8 0x08#8, after := .nothing },
   cmdEntry 8 .cmdEntryMode 0x06#8, cmdEntry 9 .cmdFuncSelB 0x72#8, dataEntry 9 .datRomCgram 0x0A#8]

/-- Entries 14 to 25: step 10. -/
def seqRomStep10 : List SeqEntry :=
  [cmdEntry 10 .cmdOledEnable 0x79#8, cmdEntry 10 .cmdSetSegHw 0xDA#8, cmdEntry 10 .valSegHw 0x10#8,
   cmdEntry 10 .cmdFuncSelC 0xDC#8, cmdEntry 10 .valFuncC 0x00#8, cmdEntry 10 .cmdSetContrast 0x81#8,
   cmdEntry 10 .valContrast 0x7F#8, cmdEntry 10 .cmdSetPhase 0xD9#8, cmdEntry 10 .valPhase 0xF1#8,
   cmdEntry 10 .cmdSetVcomh 0xDB#8, cmdEntry 10 .valVcomh 0x40#8, cmdEntry 10 .cmdOledDisable 0x78#8]

/-- Entries 26 to 29: steps 11 to 13, with the two pauses. -/
def seqRomSteps11to13 : List SeqEntry :=
  [rowBitEntry 11 .cmdFuncsetFund 0x20#8,
   { initStep := 12, param := .cmdClear, kind := .command, code := .fixed 0x01#8, after := .clear },
   cmdEntry 13 .cmdHome 0x80#8,
   { initStep := 13, param := .cmdDisplayOn, kind := .command, code := .fixed 0x0C#8, after := .stable }]

/-- The thirty entries of R183. -/
def seqRomDefault : List SeqEntry :=
  seqRomSteps2to5 ++ seqRomSteps6to9 ++ seqRomStep10 ++ seqRomSteps11to13

/-- The construction values of `State.reset`: the geometry and link of program P1 (95_test_vectors.md section 5: two rows,
sixteen columns, no optional line) with the defaults of R8 and R10 to R14; `IO_FALLIBLE` as R15 has it for "the document's
full error taxonomy". Log entry 8. -/
def configDefault : Config :=
  { rows := 2, columns := 16, rowBitMask := 0x08#8, csPresent := false, resPresent := false,
    tSettleUs := 3, tClearMs := 2, tStableMs := 250, hasInitSeq := true, seqRom := seqRomDefault,
    ioFallible := true }

end Sys2Proof.Machine
end

