-- ==== Sys2Proof/Machine/ConfigCheck.lean ====
section
/-! DEFINITION. When a configuration is well formed (spec/60_exceptions.md R231): the geometry, the three times and the
structure of `SEQ_ROM` (spec/42_init_sequencer.md R184). An ill-formed one is refused by name, never coerced. How the
words of R184 are read is log entry 3. -/

namespace Sys2Proof.Machine

/-! ### The order of the steps and of the words inside a step (R184(a)) -/

/-- The names of the entries of one initialization step, in table order. -/
def stepNames (rom : List SeqEntry) (n : Nat) : List Param :=
  (rom.filter (fun e => e.initStep == n)).map SeqEntry.param

/-- The steps never go back. -/
def stepsInOrder : List SeqEntry → Bool
  | e :: f :: rest => decide (e.initStep ≤ f.initStep) && stepsInOrder (f :: rest)
  | _ => true

/-- The initialization steps that send frames: 2 to 13 (step 1 is LINK_SETUP, step 14 the last pause). -/
def romStepNumbers : List Nat := [2, 3, 4, 5, 6, 7, 8, 9, 10, 11, 12, 13]

/-- The names follow the words: the entries of each name stand together and the names in the given order. A name may have
several entries, since the spec does not say how many frames a setting of steps 6 and 10 takes (R184 last sentence); a
name marked `true` has at least one. -/
def followsWords : List (Param × Bool) → List Param → Bool
  | [], names => names.isEmpty
  | (p, needed) :: rest, names =>
      (!needed || names.head? == some p) && followsWords rest (names.dropWhile (fun q => q == p))

/-- The words of step 6 after its first: "enable the vendor OLED-specific command subset; set the display clock divide ratio
and oscillator frequency to documented default; disable the OLED-specific command subset." -/
def step6Words : List (Param × Bool) :=
  [(.cmdOledEnable, true), (.cmdSetClock, false), (.valClock, true), (.cmdOledDisable, true)]

/-- The words of step 10: "Re-enable the OLED-specific command subset; configure SEG pin hardware mapping to default; select
function-C and disable GPIO input; set contrast to documented default (127); set phase length to documented default;
set VCOMH deselect level to documented default; disable the OLED-specific command subset again." -/
def step10Words : List (Param × Bool) :=
  [(.cmdOledEnable, true), (.cmdSetSegHw, false), (.valSegHw, true), (.cmdFuncSelC, true), (.valFuncC, true),
   (.cmdSetContrast, false), (.valContrast, true), (.cmdSetPhase, false), (.valPhase, true),
   (.cmdSetVcomh, false), (.valVcomh, true), (.cmdOledDisable, true)]

/-- Whether the names of a step's entries are those of its words, in their order (R183 columns "step" and "parameter"). -/
def wordsOk (n : Nat) (names : List Param) : Bool :=
  match n with
  | 2 => decide (names = [.cmdFuncsetExt])
  | 3 => decide (names = [.cmdFuncSelA, .datVreg])
  | 4 => decide (names = [.cmdFuncsetFund])
  | 5 => decide (names = [.cmdDisplayOff])
  | 6 => names.head? == some .cmdFuncsetExt && followsWords step6Words names.tail
  | 7 => decide (names = [.cmdExtFuncset])
  | 8 => decide (names = [.cmdEntryMode])
  | 9 => decide (names = [.cmdFuncSelB, .datRomCgram])
  | 10 => followsWords step10Words names
  | 11 => decide (names = [.cmdFuncsetFund])
  | 12 => decide (names = [.cmdClear])
  | 13 => decide (names = [.cmdHome, .cmdDisplayOn])
  | _ => false

/-! ### What an entry of a given name must be (R184(b) to (i)) -/

/-- The kind of a name's entries: data for the two "data byte" parameters, command for every other (R184(b)). -/
def paramKind : Param → Kind
  | .datVreg | .datRomCgram => .data
  | .cmdFuncsetExt | .cmdFuncSelA | .cmdFuncsetFund | .cmdDisplayOff | .cmdOledEnable | .cmdSetClock | .valClock
  | .cmdOledDisable | .cmdExtFuncset | .cmdEntryMode | .cmdFuncSelB | .cmdSetSegHw | .valSegHw | .cmdFuncSelC | .valFuncC
  | .cmdSetContrast | .valContrast | .cmdSetPhase | .valPhase | .cmdSetVcomh | .valVcomh | .cmdClear | .cmdHome
  | .cmdDisplayOn => .command

/-- The two function-set codes, which embed `Row_bit` (R184(c), R186). -/
def isFuncset (p : Param) : Bool := p == .cmdFuncsetExt || p == .cmdFuncsetFund

/-- The byte R184 fixes for a name, if any: clear (e), home (f), contrast (g). -/
def fixedByte (p : Param) : Option Byte :=
  if p = .cmdClear then some 0x01#8
  else if p = .cmdHome then some 0x80#8
  else if p = .valContrast then some 0x7F#8
  else none

/-- The dependence on geometry (R184(c), (d)), and the byte where R184 fixes one (R184(e), (f), (g)). The two bytes
of the step-7 entry may be equal: that an entry "depends on" the row count without two different bytes is the model's
choice (log entry 27). -/
def codeOk (p : Param) : Code → Bool
  | .rowBit _ => isFuncset p
  | .rowsAboveTwo _ _ => p == .cmdExtFuncset
  | .fixed b => !isFuncset p && p != .cmdExtFuncset && (fixedByte p == none || fixedByte p == some b)

/-- The pause after a name's entries: after clear (R184(e)) and after display-on, the last entry (R184(i)), and no other. -/
def pauseAfter (p : Param) : After :=
  if p = .cmdClear then .clear else if p = .cmdDisplayOn then .stable else .nothing

/-- An entry is what R184 says of its name. -/
def entryOk (e : SeqEntry) : Bool :=
  decide (e.kind = paramKind e.param) && codeOk e.param e.code && decide (e.after = pauseAfter e.param)

/-- All entries of one name send the same code: the function-set codes are two, however often they occur (R186). -/
def sameCode (rom : List SeqEntry) (p : Param) : Bool :=
  match rom.filter (fun e => e.param == p) with
  | [] => true
  | e :: rest => rest.all (fun f => f.code == e.code)

/-- The first way in which a table departs from R184, if any. -/
def romFlaw (rom : List SeqEntry) : Option ConfigFlaw :=
  if !(stepsInOrder rom && rom.all (fun e => romStepNumbers.contains e.initStep)) then some .romOrder
  else match romStepNumbers.find? (fun n => !wordsOk n (stepNames rom n)) with
    | some n => some (.romStep n)
    | none =>
        match rom.find? (fun e => !entryOk e) with
        | some e => some (.romEntry e.param)
        | none => ([Param.cmdFuncsetExt, .cmdFuncsetFund].find? (fun p => !sameCode rom p)).map .romCode

end Sys2Proof.Machine

/-- `Row_bit`: set when `ROWS` is 2 or 4, clear otherwise (spec/00_scope.md R8). -/
def Sys2Proof.Config.rowBit (c : Sys2Proof.Config) : Bool :=
  c.rows == 2 || c.rows == 4

/-- The first conjunct of R231 that a configuration fails, if any. -/
def Sys2Proof.Config.flaw (c : Sys2Proof.Config) : Option Sys2Proof.ConfigFlaw :=
  if c.rows < 1 ∨ 4 < c.rows then some .rows
  else if c.columns < 1 then some .columns
  else if c.tSettleUs < 3 then some .settleTime
  else if c.tClearMs < 2 then some .clearTime
  else if c.tStableMs < 250 then some .stableTime
  else Sys2Proof.Machine.romFlaw c.seqRom
end

