-- ==== Sys2Proof/Syntax.lean ====
section
/-! DEFINITION. The rows of spec/opcode_table.json: the four operations a host can request (spec/00_scope.md R3,
30_encoding.md R111) and the two wire frames the sequencer runs (30_encoding.md R90, 41_frame_encoder.md R156). -/

namespace Sys2Proof

/-- One constructor per row of spec/opcode_table.json.

The first four are request words (30_encoding.md R110, R111). `init` and `shutdown` keep the eight payload bits of
their word, which the encoder ignores (R112), so that no bit of a word is dropped by decoding it. The last two are the
24-slot frames of R95: the micro-operation SEND_FRAME (41_frame_encoder.md R156) with its data/control level fixed,
which a host cannot request (R114) and the sequencer runs from its `frame` register. -/
inductive Instr where
  /-- SEND_COMMAND b (41_frame_encoder.md R160). -/
  | sendCommand (b : Byte)
  /-- SEND_DATA b (41_frame_encoder.md R161). -/
  | sendData (b : Byte)
  /-- INIT (42_init_sequencer.md R190). -/
  | init (ignored : Byte)
  /-- SHUTDOWN (42_init_sequencer.md R200). -/
  | shutdown (ignored : Byte)
  /-- WIRE_COMMAND_FRAME: SEND_FRAME 0 b (41_frame_encoder.md R156). -/
  | wireCommandFrame (b : Byte)
  /-- WIRE_DATA_FRAME: SEND_FRAME 1 b (41_frame_encoder.md R156). -/
  | wireDataFrame (b : Byte)
deriving DecidableEq, Repr

end Sys2Proof
end

