-- ==== Sys2Proof/WellFormed.lean ====
section
/-! DEFINITION. Well-formedness. An instruction of this hardware is well formed whatever its byte: every payload is legal
(spec/41_frame_encoder.md R160) and the ignored bits of INIT and SHUTDOWN are not checked (spec/30_encoding.md R112). What can be
ill formed is the configuration (spec/60_exceptions.md R231). -/

namespace Sys2Proof

/-- Every instruction is well formed (30_encoding.md R111, R112; 41_frame_encoder.md R160). -/
def Instr.wellFormed : Instr → Bool
  | .sendCommand _ => true
  | .sendData _ => true
  | .init _ => true
  | .shutdown _ => true
  | .wireCommandFrame _ => true
  | .wireDataFrame _ => true

/-- A configuration is well formed iff it has no flaw (60_exceptions.md R231). -/
abbrev Config.WellFormed (c : Config) : Prop := c.flaw = none

end Sys2Proof
end

