-- ==== Sys2Proof/Decode.lean ====
section
/-! DEFINITION. The encodings of spec/30_encoding.md: the wire frame (R90 to R95), its reference decoder (R97), the request
word (R110 to R112), and the encoder written from the same tables. Decoding is total and rejects by name. -/

namespace Sys2Proof

/-- Why a word is no instruction. Every 10-bit request word is one (30_encoding.md R111); a 24-slot pattern is one
only if it is a frame the encoder can produce (R97, R100; 93_implementation_defined.md U10). -/
inductive DecodeError where
  /-- The text is neither a request word (two bytes) nor a frame (three bytes). -/
  | length
  /-- A bit above the request word's ten is set. -/
  | requestTooWide
  /-- One of slots 0 to 4 is 0. -/
  | startPattern
  /-- Slot 5 (read/write) is 1. -/
  | readWrite
  /-- Slot 7 (end) is 1. -/
  | endSlot
  /-- One of the filler slots 12 to 15 or 20 to 23 is 1. -/
  | filler
deriving DecidableEq, Repr

/-! ### The wire frame -/

/-- The sixteen levels of the payload field, first slot first (30_encoding.md R92, R93). -/
def packPayload (b : Byte) : List Bool :=
  [b.getLsbD 0, b.getLsbD 1, b.getLsbD 2, b.getLsbD 3, false, false, false, false,
   b.getLsbD 4, b.getLsbD 5, b.getLsbD 6, b.getLsbD 7, false, false, false, false]

/-- The eight levels of the prefix: five 1s, read/write = 0, data/control, end = 0 (30_encoding.md R91). -/
def framePrefix (dc : Bool) : List Bool :=
  [true, true, true, true, true, false, dc, false]

/-- `Frame(dc, b)` as the list of its 24 levels, slot 0 first (30_encoding.md R95). -/
def frameLevels (dc : Bool) (b : Byte) : List Bool :=
  framePrefix dc ++ packPayload b

/-- The bit `v` at place `k` of a 24-bit number. -/
def frameBit (v : Bool) (k : Nat) : FrameWord :=
  if v then 1#24 <<< k else 0#24

/-- `P(b)`, the payload field as a number (30_encoding.md R95). -/
def payloadField (b : Byte) : FrameWord :=
  frameBit (b.getLsbD 0) 15 ||| frameBit (b.getLsbD 1) 14 ||| frameBit (b.getLsbD 2) 13 ||| frameBit (b.getLsbD 3) 12
    ||| frameBit (b.getLsbD 4) 7 ||| frameBit (b.getLsbD 5) 6 ||| frameBit (b.getLsbD 6) 5 ||| frameBit (b.getLsbD 7) 4

/-- `F(dc, b) = 0xF80000 | (dc << 17) | P(b)` (30_encoding.md R95). -/
def frameWord (dc : Bool) (b : Byte) : FrameWord :=
  0xF80000#24 ||| frameBit dc 17 ||| payloadField b

/-- The level slot `s` puts on the data line: `frame[23 - s]` (10_state.md R23). -/
def frameSlot (f : FrameWord) (s : Nat) : Bool :=
  f.getLsbD (23 - s)

/-- The bit `v` at place `k` of a byte. -/
def byteBit (v : Bool) (k : Nat) : Byte :=
  if v then 1#8 <<< k else 0#8

/-- The payload byte of a frame: its bits from slots 8 to 11 and 16 to 19 (30_encoding.md R97). -/
def framePayload (f : FrameWord) : Byte :=
  byteBit (frameSlot f 8) 0 ||| byteBit (frameSlot f 9) 1 ||| byteBit (frameSlot f 10) 2 ||| byteBit (frameSlot f 11) 3
    ||| byteBit (frameSlot f 16) 4 ||| byteBit (frameSlot f 17) 5 ||| byteBit (frameSlot f 18) 6
    ||| byteBit (frameSlot f 19) 7

/-- `DecodeFrame` on a frame held as a number (30_encoding.md R97): the wire instruction it is, or why it is none. -/
def decodeFrame (f : FrameWord) : Except DecodeError Instr :=
  if f &&& 0xF80000#24 ≠ 0xF80000#24 then .error .startPattern
  else if frameSlot f 5 then .error .readWrite
  else if frameSlot f 7 then .error .endSlot
  else if f &&& 0x000F0F#24 ≠ 0#24 then .error .filler
  else if frameSlot f 6 then .ok (.wireDataFrame (framePayload f))
  else .ok (.wireCommandFrame (framePayload f))

/-- `DecodeFrame` on a list of 24 levels: `(dc, b)` (30_encoding.md R97). -/
def decodeLevels : List Bool → Option (Bool × Byte)
  | [true, true, true, true, true, false, dc, false, b0, b1, b2, b3, false, false, false, false,
     b4, b5, b6, b7, false, false, false, false] =>
      some (dc, byteBit b0 0 ||| byteBit b1 1 ||| byteBit b2 2 ||| byteBit b3 3
        ||| byteBit b4 4 ||| byteBit b5 5 ||| byteBit b6 6 ||| byteBit b7 7)
  | _ => none

/-! ### The request word -/

/-- The operand `req_word[7:0]` (30_encoding.md R110). -/
def reqPayload (w : ReqWord) : Byte := w.extractLsb' 0 8

/-- The opcode map: bits 9:8 select the operation; every word selects exactly one (30_encoding.md R111, R112). -/
def decodeRequest (w : ReqWord) : Instr :=
  match w.getLsbD 9, w.getLsbD 8 with
  | false, false => .sendCommand (reqPayload w)
  | false, true  => .sendData (reqPayload w)
  | true,  false => .init (reqPayload w)
  | true,  true  => .shutdown (reqPayload w)

/-! ### Bytes -/

/-- An instruction from bytes numbered as spec/opcode_table.json numbers a row's bits (the first byte holds bits 7:0):
two bytes are a request word, three a frame. No memory of the hardware holds such bytes; the layout is the
model's (log entry 12). -/
def decodeBytes : List Byte → Except DecodeError Instr
  | [lo, hi] =>
      if hi &&& 0xFC#8 ≠ 0#8 then .error .requestTooWide
      else .ok (decodeRequest ((hi ++ lo : BitVec 16).extractLsb' 0 10))
  | [lo, mid, hi] => decodeFrame (hi ++ mid ++ lo)
  | _ => .error .length

/-- The instruction a row of spec/opcode_table.json stands for, `w` being its bits and `nbits` how many the table gives
the row in whole bytes: a row of at most 16 bits is a request word, one of 17 to 24 bits a frame. -/
def decodeTableWord (nbits w : Nat) : Option Instr :=
  let bytes : List Byte :=
    if nbits ≤ 16 then [BitVec.ofNat 8 w, BitVec.ofNat 8 (w / 256)]
    else [BitVec.ofNat 8 w, BitVec.ofNat 8 (w / 256), BitVec.ofNat 8 (w / 65536)]
  if w < 2 ^ nbits ∧ nbits ≤ 24 then (decodeBytes bytes).toOption else none

/-! ### The encoder -/

/-- The request word of an operation with the operand byte `b` and the opcode `op` (30_encoding.md R110). -/
def reqWord (op : BitVec 2) (b : Byte) : ReqWord := op ++ b

/-- An instruction's word as bytes, in the layout `decodeBytes` reads: a request word's upper six bits are 0. -/
def encode : Instr → List Byte
  | .sendCommand b      => [b, 0#8]
  | .sendData b         => [b, 1#8]
  | .init b             => [b, 2#8]
  | .shutdown b         => [b, 3#8]
  | .wireCommandFrame b => frameBytes (frameWord false b)
  | .wireDataFrame b    => frameBytes (frameWord true b)
where
  /-- The three bytes of a frame, bits 7:0 first. -/
  frameBytes (f : FrameWord) : List Byte :=
    [f.extractLsb' 0 8, f.extractLsb' 8 8, f.extractLsb' 16 8]

/-- An instruction's word as the number spec/opcode_table.json gives it: bits 9:8 the opcode of a request
(30_encoding.md R111), slot 0 at bit 23 of a frame (R95). -/
def encodeNat : Instr → Nat
  | .sendCommand b      => (reqWord 0#2 b).toNat
  | .sendData b         => (reqWord 1#2 b).toNat
  | .init b             => (reqWord 2#2 b).toNat
  | .shutdown b         => (reqWord 3#2 b).toNat
  | .wireCommandFrame b => (frameWord false b).toNat
  | .wireDataFrame b    => (frameWord true b).toNat

/-- The bits of an instruction's row, in whole bytes. -/
def encodeBits : Instr → Nat
  | .sendCommand _ | .sendData _ | .init _ | .shutdown _ => 16
  | .wireCommandFrame _ | .wireDataFrame _ => 24

end Sys2Proof
end

