-- ==== Sys2Proof/Machine/Line.lean ====
section
/-! DEFINITION. The four output lines (spec/10_state.md R20), their direction (R21) and the events, the encoder's only
effects on the outside world (spec/00_scope.md R16). -/

namespace Sys2Proof.Machine

/-- The lines the encoder drives (10_state.md R20). -/
inductive Line where
  /-- Serial data, idle 0. -/
  | sdo
  /-- Serial clock, idle 1, pulses low. -/
  | sclk
  /-- Chip-select, idle 1, active 0; exists iff `CS_PRESENT`. -/
  | cs
  /-- Display reset, idle 1, only ever driven to 1 (R22); exists iff `RES_PRESENT`. -/
  | res
deriving DecidableEq, Repr

/-- The line ids of 10_state.md R20. -/
def Line.id : Line → Nat
  | .sdo  => 0
  | .sclk => 1
  | .cs   => 2
  | .res  => 3

/-- The idle level of a line: "data low, clock high, chip-select high if present, reset high if present" (R20). -/
def Line.idleLevel : Line → Bool
  | .sdo  => false
  | .sclk => true
  | .cs   => true
  | .res  => true

/-- `dir[l]` (10_state.md R21). -/
inductive Dir where
  | undriven
  | output
deriving DecidableEq, Repr

/-- The four events (00_scope.md R16). Levels: `true` is 1. -/
inductive Event where
  /-- `Dir(l)`: configure line l as an output. -/
  | dir (l : Line)
  /-- `Set(l, v)`: drive line l to level v. -/
  | set (l : Line) (v : Bool)
  /-- `WaitUs(n)`: a true blocking wait of at least n microseconds (R17). -/
  | waitUs (n : Nat)
  /-- `WaitMs(n)`: a true blocking wait of at least n milliseconds (R17). -/
  | waitMs (n : Nat)
deriving DecidableEq, Repr

end Sys2Proof.Machine
end

