-- ==== Sys2Proof/Machine/Encoder.lean ====
section
/-! DEFINITION. One encoder: its registers, flags, position, own lines, request port and trace
(spec/10_state.md R20 to R31), and their values after hardware reset (R55). -/

namespace Sys2Proof.Machine

/-- The accepted operation, the 2-bit register `op` in the encoding of 30_encoding.md R110 (10_state.md R23). -/
inductive Op where
  | sendCommand
  | sendData
  | init
  | shutdown
deriving DecidableEq, Repr

/-- The register's two bits (30_encoding.md R110). -/
def Op.bits : Op → BitVec 2
  | .sendCommand => 0#2
  | .sendData    => 1#2
  | .init        => 2#2
  | .shutdown    => 3#2

/-- The phases of the sequencer (10_state.md R26). -/
inductive Phase where
  | idle
  /-- The events of LINK_SETUP, one per step. -/
  | setup
  /-- Between two table entries, with the pause of the entry just sent still due (a `seq` with no pause due takes no
  step of its own). -/
  | seq
  | fCsLow
  | fData
  | fClkLow
  | fWaitLow
  | fClkHigh
  | fWaitHigh
  | fCsHigh
  /-- The line writes that end SHUTDOWN, one per step. -/
  | park
  | fault
deriving DecidableEq, Repr

/-- What the host does next at a request port (20_memory.md R74, 30_encoding.md R113): offer a request, or hold back
for at least `n` milliseconds. -/
inductive HostAct where
  | request (w : ReqWord)
  | waitMs (n : Nat)
deriving DecidableEq, Repr

/-- One encoder instance. -/
structure Encoder where
  /-- The configuration, read-only (R31). -/
  cfg        : Config
  /-- The accepted operation (R23); no rule reads it while `busy` is 0 (R24). -/
  op         : Op
  /-- The payload byte of the current frame (R23, R24). -/
  payload    : Byte
  /-- The frame being sent (R23, R24). -/
  frame      : FrameWord
  /-- The sequencer's phase (R26). -/
  phase      : Phase
  /-- The sub-index of the phases SETUP (0 to 7) and PARK (0 to 3): the number of their events already emitted (R26). -/
  sub        : BitVec 3
  /-- The slot being sent, 0 to 23 (R26). -/
  slot       : BitVec 5
  /-- `seq_pc`, the index into `SEQ_ROM` (R26): a natural number, so that every table R231 of 60_exceptions.md accepts can
  be walked; the 6 bits of R26 hold it for tables of at most 63 entries (log entry 26). -/
  seqPc      : Nat
  /-- `ev_idx`: how many events the operation has emitted (R25). -/
  evIdx      : Nat
  /-- R28. -/
  busy       : Bool
  /-- R28. -/
  configured : Bool
  /-- R28. -/
  fault      : Bool
  /-- R29. -/
  faultCode  : BitVec 2
  /-- `dir[SDO]` (R21). -/
  sdoDir     : Dir
  /-- `dir[SCLK]` (R21). -/
  sclkDir    : Dir
  /-- `dir[CS]` (R21). -/
  csDir      : Dir
  /-- `dir[RES]` (R21). -/
  resDir     : Dir
  /-- `level[CS]`, each instance's own (R21, 20_memory.md R76). -/
  csLevel    : Level
  /-- `level[RES]`, each instance's own (R21). -/
  resLevel   : Level
  /-- The port's `req_valid` (R30), an input. -/
  reqValid   : Bool
  /-- The port's `req_word` (R30), an input. -/
  reqWord    : ReqWord
  /-- What the host goes on to do at this port: the environment's, not the encoder's, and no queue of it (R46). -/
  script     : List HostAct
  /-- The trace, newest event first (00_scope.md R16, 10_state.md R45): a record the encoder never reads. -/
  history    : List Event
deriving DecidableEq, Repr

/-- The trace, oldest event first (00_scope.md R16). -/
def Encoder.trace (e : Encoder) : List Event := e.history.reverse

/-- An encoder after hardware reset (10_state.md R55), its port free. `op`, `payload`, `frame`, `slot` and `seqPc` are
"unspecified" there; the zeros are the model's (log entry 1). -/
def Encoder.reset (cfg : Config) : Encoder :=
  { cfg := cfg, op := .sendCommand, payload := 0#8, frame := 0#24, phase := .idle, sub := 0#3, slot := 0#5,
    seqPc := 0, evIdx := 0, busy := false, configured := false, fault := false, faultCode := 0#2,
    sdoDir := .undriven, sclkDir := .undriven, csDir := .undriven, resDir := .undriven,
    csLevel := none, resLevel := none, reqValid := false, reqWord := 0#10, script := [], history := [] }

end Sys2Proof.Machine
end

