-- ==== Sys2Proof/Machine/State.lean ====
section
/-! DEFINITION. The machine's state: the instance that may act, the other instances on the same data and clock lines
(spec/20_memory.md R76, 60_exceptions.md R247), the two shared levels, and the environment's answers and acts to come.
The hardware has no memory (20_memory.md, first sentence). -/

namespace Sys2Proof.Machine

/-- What the outside does at the next step besides the request port. -/
inductive EnvAct where
  /-- Nothing: the encoder takes its step. -/
  | run
  /-- The hardware reset of the instance that may act is asserted (70_reset_and_hazards.md R260). -/
  | reset
  /-- The hardware reset of another instance is asserted. -/
  | resetPeer (k : Nat)
  /-- Another instance takes the next steps (20_memory.md R76, 92_eei_decisions.md D23). -/
  | grant (k : Nat)
deriving DecidableEq, Repr

/-- The whole machine. With `peers = []` it is one encoder alone on its link. -/
structure State where
  /-- The instance that takes the steps. -/
  enc     : Encoder
  /-- The other instances on the link. -/
  peers   : List Encoder
  /-- `level[SDO]`, one state for all instances of the link (20_memory.md R76). -/
  sdo     : Level
  /-- `level[SCLK]`, one state for all instances of the link (20_memory.md R76). -/
  sclk    : Level
  /-- The environment's answers to the next events, `true` success (20_memory.md R64); past the list's end, success. -/
  answers : List Bool
  /-- What the outside does at the next steps; past the list's end, nothing. -/
  outside : List EnvAct
deriving DecidableEq, Repr

/-- Why the machine stops. `PlatformIOFailure` is none of these: its entry is described and is a next state
(60_exceptions.md R232). -/
inductive Fault where
  /-- An instance is to emit an event while another is inside a frame on the link, or has abandoned one with its
  chip-select low. Raised by emitting an event. "an instance has no step while another is mid-frame"
  (93_implementation_defined.md U3). Safe: no meaning is given to the overlap (log entry 10). -/
  | linkOverlap
  /-- A busy sequencer stands at a position that does not exist (the phase of an absent line, a slot above 23, a
  sub-index past the end: 10_state.md R26). Raised by emitting an event; no reachable state raises it. Safe. -/
  | noSuchPosition
  /-- The arbiter or the reset names an instance that is not on the link. Raised by `grant` and `resetPeer`. Safe. -/
  | noSuchInstance
deriving DecidableEq, Repr

/-- Why a request has no meaning here. -/
inductive Refusal where
  /-- Raised by an arm of `exec` whose instruction has no meaning yet; no arm is left so. Safe. -/
  | notModelled (mnemonic : String)
  /-- An instance's configuration is ill formed: `ConfigError`, "An ill-formed configuration yields no encoder"
  (60_exceptions.md R231). Raised by construction and by every step. Safe. -/
  | configError (flaw : ConfigFlaw)
  /-- Several instances share the link and one has no chip-select (20_memory.md R77, U2). Raised by every step. Safe. -/
  | sharedLinkWithoutChipSelect
  /-- SEND_COMMAND, SEND_DATA or SHUTDOWN with `configured = 0` (60_exceptions.md R237). Raised by acceptance. Safe. -/
  | notConfigured
  /-- INIT or SHUTDOWN with `HAS_INIT_SEQ = false` (60_exceptions.md R238). Raised by acceptance. Safe. -/
  | noInitSequencer
  /-- The frame register holds, at the start of a frame, a pattern no frame has (30_encoding.md R97, R100, U10). Raised by
  fetching a frame; no reachable state raises it. Safe. -/
  | notAFrame
  /-- A wire frame outside the start of a frame of an operation in progress: a micro-operation, which "a host cannot
  issue" (30_encoding.md R114). Raised by the two wire frames. Safe. -/
  | notAtFrameStart
deriving DecidableEq, Repr

/-- The machine right after reset (10_state.md R55): one encoder with the configuration of log entry 8, its lines
undriven at level X, no request offered, nothing outside due. -/
def State.reset : State :=
  { enc := Encoder.reset configDefault, peers := [], sdo := none, sclk := none, answers := [], outside := [] }

end Sys2Proof.Machine
end

