-- ==== Sys2Proof/Machine/Operands.lean ====
section
/-! DEFINITION. Operand forms: a request's payload byte is `req_word[7:0]` (spec/30_encoding.md R110, read in Decode.lean);
a table entry's byte and frame kind depend on the geometry (spec/42_init_sequencer.md R183, R186, R187). -/

namespace Sys2Proof.Machine

/-- `code | ROW_BIT_MASK` when `Row_bit` is set, `code` when it is clear (42_init_sequencer.md R186). -/
def withRowBit (c : Config) (b : Byte) : Byte :=
  if c.rowBit then b ||| c.rowBitMask else b

/-- The byte a table entry sends under a configuration (42_init_sequencer.md R183 column "value", R187). -/
def entryByte (c : Config) (e : SeqEntry) : Byte :=
  match e.code with
  | .fixed b => b
  | .rowBit b => withRowBit c b
  | .rowsAboveTwo above upTo => if 2 < c.rows then above else upTo

/-- The data/control level of a table entry's frame: "0 if kind = C else 1" (42_init_sequencer.md R190). -/
def entryDc (e : SeqEntry) : Bool :=
  match e.kind with
  | .command => false
  | .data => true

/-- The indices of `SEQ_ROM` whose bytes SHUTDOWN sends: entries 3 and 4 (42_init_sequencer.md R200). -/
def shutdownFirst : Nat := 3

/-- The index past SHUTDOWN's last entry. -/
def shutdownEnd : Nat := 5

/-- The table entry at an index for the operation in progress, if the operation's walk reaches it: INIT walks the whole
table (R190), SHUTDOWN entries 3 and 4 (R200), the frame operations none. -/
def entryAt (c : Config) (op : Op) (k : Nat) : Option SeqEntry :=
  match op with
  | .init => c.seqRom[k]?
  | .shutdown => if k < shutdownEnd then c.seqRom[k]? else none
  | .sendCommand | .sendData => none

end Sys2Proof.Machine
end

