-- ==== Sys2Proof/Machine/EventLists.lean ====
section
/-! DEFINITION. The event lists of the micro-operations and operations, as the spec's pseudocode gives them: they are what a
run is held against (spec/00_scope.md R18, 10_state.md R25); the machine itself is the phase sequencer of R26. -/

namespace Sys2Proof.Machine

/-- PULSE (40_bitclock.md R131). -/
def pulseEvents (c : Config) : List Event :=
  [.set .sclk false, .waitUs c.tSettleUs, .set .sclk true, .waitUs c.tSettleUs]

/-- SEND_BIT v (40_bitclock.md R133). -/
def sendBitEvents (c : Config) (v : Bool) : List Event :=
  .set .sdo v :: pulseEvents c

/-- SEND_BIT for each level in turn. -/
def sendBitsEvents (c : Config) (levels : List Bool) : List Event :=
  levels.flatMap (sendBitEvents c)

/-- SEND_PREFIX dc (41_frame_encoder.md R151). -/
def sendPrefixEvents (c : Config) (dc : Bool) : List Event :=
  sendBitsEvents c (framePrefix dc)

/-- TRANSMIT_BYTE b (41_frame_encoder.md R152). -/
def transmitByteEvents (c : Config) (b : Byte) : List Event :=
  sendBitsEvents c (packPayload b)

/-- CS_ASSERT (41_frame_encoder.md R154). -/
def csAssertEvents (c : Config) : List Event :=
  if c.csPresent then [.set .cs false] else []

/-- CS_DEASSERT (41_frame_encoder.md R155). -/
def csDeassertEvents (c : Config) : List Event :=
  if c.csPresent then [.set .cs true] else []

/-- `FrameEvents(dc, b)`: SEND_FRAME dc b (41_frame_encoder.md R156). -/
def frameEvents (c : Config) (dc : Bool) (b : Byte) : List Event :=
  csAssertEvents c ++ sendPrefixEvents c dc ++ transmitByteEvents c b ++ csDeassertEvents c

/-- LINK_SETUP (42_init_sequencer.md R180). -/
def linkSetupEvents (c : Config) : List Event :=
  (if c.resPresent then [.dir .res, .set .res true] else [])
    ++ (if c.csPresent then [.dir .cs, .set .cs true] else [])
    ++ [.dir .sdo, .set .sdo false, .dir .sclk, .set .sclk true]

/-- PARK (42_init_sequencer.md R199). -/
def parkEvents (c : Config) : List Event :=
  [.set .sdo false, .set .sclk true]
    ++ (if c.csPresent then [.set .cs true] else [])
    ++ (if c.resPresent then [.set .res true] else [])

/-- The pause after an entry's frame (42_init_sequencer.md R183 column "after"). -/
def afterEvents (c : Config) : After → List Event
  | .nothing => []
  | .clear => [.waitMs c.tClearMs]
  | .stable => [.waitMs c.tStableMs]

/-- The frame of one table entry. -/
def entryEvents (c : Config) (e : SeqEntry) : List Event :=
  frameEvents c (entryDc e) (entryByte c e)

/-- The frames and pauses of a run of table entries (42_init_sequencer.md R190). -/
def romEvents (c : Config) (entries : List SeqEntry) : List Event :=
  entries.flatMap (fun e => entryEvents c e ++ afterEvents c e.after)

/-- `Events(INIT)` (42_init_sequencer.md R190). -/
def initEvents (c : Config) : List Event :=
  linkSetupEvents c ++ romEvents c c.seqRom

/-- The frames SHUTDOWN sends for a run of table entries: no pause of any kind (42_init_sequencer.md R200). -/
def shutdownFrames (c : Config) (entries : List SeqEntry) : List Event :=
  entries.flatMap (entryEvents c)

/-- The event list of SHUTDOWN (42_init_sequencer.md R200). -/
def shutdownEvents (c : Config) : List Event :=
  shutdownFrames c ((c.seqRom.take shutdownEnd).drop shutdownFirst) ++ parkEvents c

/-- `Events(op, payload, configuration)` of an instruction (10_state.md R25; 41_frame_encoder.md R156, R160, R161;
42_init_sequencer.md R190, R200). -/
def events (c : Config) : Instr → List Event
  | .sendCommand b => frameEvents c false b
  | .sendData b => frameEvents c true b
  | .init _ => initEvents c
  | .shutdown _ => shutdownEvents c
  | .wireCommandFrame b => frameEvents c false b
  | .wireDataFrame b => frameEvents c true b

end Sys2Proof.Machine
end

