-- ==== Sys2Proof/Machine/Flags.lean ====
section
/-! DEFINITION. The status flags (spec/10_state.md R28, R29) and the port's ready signal (R30). The encoder has no condition
codes (R28). -/

namespace Sys2Proof.Machine

/-- `req_ready = not busy and not fault` (10_state.md R30). -/
def Encoder.reqReady (e : Encoder) : Bool := !e.busy && !e.fault

/-- Acceptance raises `busy` and starts `ev_idx` at 0 (10_state.md R25, R28). -/
def Encoder.setBusy (e : Encoder) : Encoder := { e with busy := true, evIdx := 0 }

/-- "when it reaches the length the operation is complete and `busy <- 0`" (10_state.md R25): the phase goes to IDLE. The
registers that hold no value between operations (R24: `op`, `payload`, `frame`; R55: `slot`, `seq_pc`) keep what the
operation left in them, which is the model's choice (log entry 25). -/
def Encoder.finish (e : Encoder) : Encoder := { e with busy := false, phase := .idle }

/-- `configured <- 1`, the end of LINK_SETUP (42_init_sequencer.md R180). -/
def Encoder.setConfigured (e : Encoder) : Encoder := { e with configured := true }

/-- The code of `PlatformIOFailure` (60_exceptions.md R230). -/
def platformIOFailureCode : BitVec 2 := 2#2

/-- `raise PlatformIOFailure` (60_exceptions.md R232): the flags and the phase change, the operation's pending events are
discarded with its position, and no line is touched. -/
def Encoder.raisePlatformIOFailure (e : Encoder) : Encoder :=
  { e with fault := true, faultCode := platformIOFailureCode, busy := false, phase := .fault }

end Sys2Proof.Machine
end

