-- ==== Sys2Proof/Machine/Ops.lean ====
section
/-! DEFINITION. The shared operations: line access (spec/20_memory.md R61 to R64), the request port (10_state.md R30), the
sequencer's position (10_state.md R26), acceptance (60_exceptions.md R240), the fault entry (60_exceptions.md R232) and its only
way back, hardware reset (60_exceptions.md R244, 70_reset_and_hazards.md R260). -/

namespace Sys2Proof.Machine

/-! ### Lines -/

/-- `level[l]` (10_state.md R21). -/
def State.level (s : State) : Line → Level
  | .sdo => s.sdo
  | .sclk => s.sclk
  | .cs => s.enc.csLevel
  | .res => s.enc.resLevel

/-- `dir[l]` (10_state.md R21). -/
def Encoder.dir (e : Encoder) : Line → Dir
  | .sdo => e.sdoDir
  | .sclk => e.sclkDir
  | .cs => e.csDir
  | .res => e.resDir

/-- Whether a line exists for the encoder (10_state.md R20). -/
def Line.present (l : Line) (c : Config) : Bool :=
  match l with
  | .sdo => true
  | .sclk => true
  | .cs => c.csPresent
  | .res => c.resPresent

/-- `dir[l] <- output`. -/
def Encoder.setOutput (e : Encoder) : Line → Encoder
  | .sdo => { e with sdoDir := .output }
  | .sclk => { e with sclkDir := .output }
  | .cs => { e with csDir := .output }
  | .res => { e with resDir := .output }

/-- `level[l] <- v`. -/
def State.setLevel (s : State) (l : Line) (v : Bool) : State :=
  match l with
  | .sdo => { s with sdo := some v }
  | .sclk => { s with sclk := some v }
  | .cs => { s with enc := { s.enc with csLevel := some v } }
  | .res => { s with enc := { s.enc with resLevel := some v } }

/-- The effect of an event on the lines: `Set` changes one level, `Dir` one direction, a wait nothing
(20_memory.md R61 to R63). -/
def State.applyEvent (s : State) : Event → State
  | .set l v => s.setLevel l v
  | .dir l => { s with enc := s.enc.setOutput l }
  | .waitUs _ => s
  | .waitMs _ => s

/-- Append an event to the trace (20_memory.md R61 to R63) and count it (10_state.md R25). -/
def Encoder.record (e : Encoder) (ev : Event) : Encoder :=
  { e with history := ev :: e.history, evIdx := e.evIdx + 1 }

/-- The environment's answer to the event about to be emitted: "If `IO_FALLIBLE = false` the answer is always success"
(20_memory.md R64). -/
def State.answer (s : State) : Bool :=
  !s.enc.cfg.ioFallible || s.answers.headD true

/-- The environment has answered: a fallible environment's next answer is spent. -/
def State.spendAnswer (s : State) : State :=
  if s.enc.cfg.ioFallible then { s with answers := s.answers.tail } else s

/-- An instance is inside a frame: its chip-select is low (20_memory.md R76, 41_frame_encoder.md R164). -/
def Encoder.midFrame (e : Encoder) : Bool := e.csLevel == some false

/-! ### The request port -/

/-- The host's next act at the port: it offers its next request, or none (10_state.md R30). -/
def Encoder.portNext (e : Encoder) : Encoder :=
  match e.script with
  | .request w :: rest => { e with reqValid := true, reqWord := w, script := rest }
  | _ => { e with reqValid := false }

/-- The host's turn while the encoder is idle and no request is offered: a pause it owes has passed (20_memory.md R74),
and it offers its next request. The encoder does nothing. -/
def Encoder.hostTurn (e : Encoder) : Encoder :=
  match e.script with
  | .waitMs _ :: rest => ({ e with script := rest } : Encoder).portNext
  | _ => e.portNext

/-! ### The sequencer's position -/

/-- The first phase of a frame: `F_CS_LOW` if chip-select exists, else `F_DATA` (10_state.md R26). -/
def frameStartPhase (c : Config) : Phase :=
  if c.csPresent then .fCsLow else .fData

/-- The sequencer goes to a phase. -/
def Encoder.goto (e : Encoder) (p : Phase) : Encoder := { e with phase := p }

/-- The next event of LINK_SETUP or PARK (10_state.md R26). -/
def Encoder.nextSub (e : Encoder) : Encoder := { e with sub := e.sub + 1#3 }

/-- The first slot's data-line write (10_state.md R26, `F_CS_LOW`). -/
def Encoder.firstSlot (e : Encoder) : Encoder := { e with phase := .fData, slot := 0#5 }

/-- `slot + 1`, `F_DATA` (10_state.md R26, `F_WAIT_HIGH`). -/
def Encoder.nextSlot (e : Encoder) : Encoder := { e with phase := .fData, slot := e.slot + 1#5 }

/-- The table from entry `k` on (10_state.md R26). -/
def Encoder.setSeqPc (e : Encoder) (k : Nat) : Encoder := { e with seqPc := k }

/-- The start of a frame: `frame <- Frame(dc, payload)` (10_state.md R23), slot 0. -/
def Encoder.beginFrame (e : Encoder) (dc : Bool) (b : Byte) : Encoder :=
  { e with payload := b, frame := frameWord dc b, slot := 0#5, phase := frameStartPhase e.cfg }

/-- PARK begins (42_init_sequencer.md R199). -/
def Encoder.beginPark (e : Encoder) : Encoder :=
  { e with phase := .park, sub := 0#3 }

/-- `SEQ` with no pause due: load the table entry at `seq_pc`, or after the last one park (SHUTDOWN) or go idle (INIT).
It takes no step of its own (10_state.md R26). -/
def Encoder.nextEntry (e : Encoder) : Encoder :=
  match entryAt e.cfg e.op e.seqPc with
  | some entry => e.beginFrame (entryDc entry) (entryByte e.cfg entry)
  | none => if e.op = .shutdown then e.beginPark else e.finish

/-- The pause due in phase `SEQ`: that of the entry before `seq_pc`, in INIT only (42_init_sequencer.md R190, R200). -/
def Encoder.dueAfter (e : Encoder) : After :=
  if e.op = .init then
    match e.cfg.seqRom[e.seqPc - 1]? with
    | some entry => entry.after
    | none => .nothing
  else .nothing

/-- A frame is done: `IDLE` for the frame operations, else `SEQ` with `seq_pc + 1`, which rests only if the entry just sent
has a pause (10_state.md R26). -/
def Encoder.frameDone (e : Encoder) : Encoder :=
  match e.op with
  | .sendCommand | .sendData => e.finish
  | .init | .shutdown =>
      if (e.setSeqPc (e.seqPc + 1)).dueAfter = .nothing then (e.setSeqPc (e.seqPc + 1)).nextEntry
      else (e.setSeqPc (e.seqPc + 1)).goto .seq

/-- The event the current position emits, if the position exists (10_state.md R26 column "emits"). -/
def Encoder.nextEvent (e : Encoder) : Option Event :=
  match e.phase with
  | .idle => none
  | .setup => (linkSetupEvents e.cfg)[e.sub.toNat]?
  | .seq => (afterEvents e.cfg e.dueAfter).head?
  | .fCsLow => if e.cfg.csPresent then some (.set .cs false) else none
  | .fData => if e.slot.toNat < 24 then some (.set .sdo (frameSlot e.frame e.slot.toNat)) else none
  | .fClkLow => some (.set .sclk false)
  | .fWaitLow => some (.waitUs e.cfg.tSettleUs)
  | .fClkHigh => some (.set .sclk true)
  | .fWaitHigh => some (.waitUs e.cfg.tSettleUs)
  | .fCsHigh => if e.cfg.csPresent then some (.set .cs true) else none
  | .park => (parkEvents e.cfg)[e.sub.toNat]?
  | .fault => none

/-- The position after the current one's event (10_state.md R26 column "next"). The last event of LINK_SETUP sets
`configured` and starts the table at entry 0 (42_init_sequencer.md R180, R190). -/
def Encoder.advance (e : Encoder) : Encoder :=
  match e.phase with
  | .idle => e
  | .setup =>
      if e.sub.toNat + 1 < (linkSetupEvents e.cfg).length then e.nextSub
      else (e.setConfigured.setSeqPc 0).nextEntry
  | .seq => e.nextEntry
  | .fCsLow => e.firstSlot
  | .fData => e.goto .fClkLow
  | .fClkLow => e.goto .fWaitLow
  | .fWaitLow => e.goto .fClkHigh
  | .fClkHigh => e.goto .fWaitHigh
  | .fWaitHigh =>
      if e.slot.toNat < 23 then e.nextSlot
      else if e.cfg.csPresent then e.goto .fCsHigh
      else e.frameDone
  | .fCsHigh => e.frameDone
  | .park =>
      if e.sub.toNat + 1 < (parkEvents e.cfg).length then e.nextSub
      else e.finish
  | .fault => e

/-! ### Emitting an event, and the fault -/

/-- Emit the event of the current position (20_memory.md R61 to R64): on success it takes effect, is recorded, and the
position advances; on failure it is not recorded, nothing takes effect, and `PlatformIOFailure` is raised
(60_exceptions.md R232). No event is emitted while another instance is inside a frame (20_memory.md R76). -/
def State.emitNext (s : State) : Host.Outcome State Fault Refusal :=
  if s.peers.any Encoder.midFrame then .fault .linkOverlap
  else match s.enc.nextEvent with
    | none => .fault .noSuchPosition
    | some ev =>
        let asked := s.spendAnswer
        if s.answer then
          let done := asked.applyEvent ev
          .next { done with enc := (done.enc.record ev).advance }
        else .next { asked with enc := asked.enc.raisePlatformIOFailure }

/-- The sequencer of a busy encoder stands at the first event of a frame (10_state.md R26). -/
def Encoder.atFrameStart (e : Encoder) : Bool :=
  e.busy && decide (e.phase = frameStartPhase e.cfg) && (e.cfg.csPresent || decide (e.slot = 0#5))

/-- SEND_FRAME dc b from its first event, at the start of a frame (41_frame_encoder.md R156). -/
def State.sendFrame (s : State) (dc : Bool) (b : Byte) : Host.Outcome State Fault Refusal :=
  if s.enc.atFrameStart then ({ s with enc := s.enc.beginFrame dc b } : State).emitNext
  else .refused .notAtFrameStart

/-! ### Acceptance -/

/-- A request meets the port. The checks come in the order of 60_exceptions.md R240: not ready (the request is simply not
accepted, R239), no InitSequencer (R238), not configured (R237); then it is accepted: the host sees `busy` and may
offer its next request, and the operation starts. -/
def State.accept (s : State) (needsSequencer needsConfigured : Bool) (start : Encoder → Encoder) :
    Host.Outcome State Fault Refusal :=
  if !s.enc.reqReady then .next s
  else if needsSequencer && !s.enc.cfg.hasInitSeq then .refused .noInitSequencer
  else if needsConfigured && !s.enc.configured then .refused .notConfigured
  else .next { s with enc := start s.enc.portNext.setBusy }

/-! ### Hardware reset and construction -/

/-- An encoder's hardware reset (10_state.md R55, 70_reset_and_hazards.md R260); the configuration stays, and the port is
the host's. -/
def Encoder.hardwareReset (e : Encoder) : Encoder :=
  { Encoder.reset e.cfg with reqValid := e.reqValid, reqWord := e.reqWord, script := e.script }

/-- The level of a shared line after an instance stopped driving it: X unless another instance drives it (log entry 6). -/
def sharedLevel (others : List Encoder) (l : Line) (v : Level) : Level :=
  if others.any (fun p => decide (p.dir l = .output)) then v else none

/-- Hardware reset of the instance that may act: "it emits no event and touches no line" (70_reset_and_hazards.md R260). -/
def State.hardwareReset (s : State) : State :=
  { s with enc := s.enc.hardwareReset, sdo := sharedLevel s.peers .sdo s.sdo, sclk := sharedLevel s.peers .sclk s.sclk }

/-- Hardware reset of another instance on the link. -/
def State.hardwareResetPeer (s : State) (k : Nat) : Host.Outcome State Fault Refusal :=
  match s.peers[k]? with
  | none => .fault .noSuchInstance
  | some p =>
      let others := s.enc :: s.peers.eraseIdx k
      .next { s with
        peers := s.peers.set k p.hardwareReset
        sdo := sharedLevel others .sdo s.sdo
        sclk := sharedLevel others .sclk s.sclk }

/-- Instance `k` of the others takes the next steps. It may then accept a request at any time; what R76 of 20_memory.md
forbids is that it emits while another instance is inside a frame, and `emitNext` stops there. -/
def State.grant (s : State) (k : Nat) : Host.Outcome State Fault Refusal :=
  match s.peers[k]? with
  | none => .fault .noSuchInstance
  | some p => .next { s with enc := p, peers := s.peers.set k s.enc }

/-- Construction of one encoder (60_exceptions.md R231, 70_reset_and_hazards.md R264 step 1): an ill-formed configuration
is rejected by name, a well-formed one yields the encoder after reset. -/
def construct (cfg : Config) : Host.Outcome State Fault Refusal :=
  match cfg.flaw with
  | some flaw => .refused (.configError flaw)
  | none => .next { State.reset with enc := Encoder.reset cfg }

/-- An encoder that starts from the launch premises of 70_reset_and_hazards.md R263 instead of from INIT, as one with
`HAS_INIT_SEQ = false` does (60_exceptions.md R238): configured, every present line an output at its idle level. -/
def launch (cfg : Config) : State :=
  let whenPresent (l : Line) : Dir := if l.present cfg then .output else .undriven
  { State.reset with
    enc :=
      { Encoder.reset cfg with
        configured := true
        sdoDir := .output
        sclkDir := .output
        csDir := whenPresent .cs
        resDir := whenPresent .res
        csLevel := if cfg.csPresent then some true else none
        resLevel := if cfg.resPresent then some true else none }
    sdo := some false
    sclk := some true }

/-- The first flaw of any instance's configuration on the link (60_exceptions.md R231). -/
def State.configFlaw (s : State) : Option ConfigFlaw :=
  (s.enc :: s.peers).findSome? (fun e => e.cfg.flaw)

/-- Sharing a link needs chip-select on every instance (20_memory.md R77, 70_reset_and_hazards.md R277). -/
def State.sharingOk (s : State) : Bool :=
  s.peers.isEmpty || (s.enc :: s.peers).all (fun e => e.cfg.csPresent)

end Sys2Proof.Machine
end

