-- ==== Sys2Proof/Machine/FrameOps.lean ====
section
/-! DEFINITION. FrameEncoder: the two frame operations a host can request (spec/41_frame_encoder.md R160, R161) and the two wire
frames the sequencer runs (R156). -/

namespace Sys2Proof.Machine

/-- A frame operation starts: `op` and `payload` are loaded, `frame <- F(dc, payload)` (41_frame_encoder.md R160, R161). -/
def Encoder.startFrameOp (op : Op) (dc : Bool) (b : Byte) (e : Encoder) : Encoder :=
  ({ e with op := op } : Encoder).beginFrame dc b

/-- SEND_COMMAND b (41_frame_encoder.md R160): accepted while ready and configured; the sequencer then emits
`FrameEvents(0, b)`, one event a step. -/
def execSendCommand (b : Byte) (s : State) : Host.Outcome State Fault Refusal :=
  s.accept false true (Encoder.startFrameOp .sendCommand false b)

/-- SEND_DATA b (41_frame_encoder.md R161): as SEND_COMMAND, with the data/control level 1. -/
def execSendData (b : Byte) (s : State) : Host.Outcome State Fault Refusal :=
  s.accept false true (Encoder.startFrameOp .sendData true b)

/-- WIRE_COMMAND_FRAME: SEND_FRAME 0 b (41_frame_encoder.md R156), from its first event. -/
def execWireCommandFrame (b : Byte) (s : State) : Host.Outcome State Fault Refusal :=
  s.sendFrame false b

/-- WIRE_DATA_FRAME: SEND_FRAME 1 b (41_frame_encoder.md R156), from its first event. -/
def execWireDataFrame (b : Byte) (s : State) : Host.Outcome State Fault Refusal :=
  s.sendFrame true b

end Sys2Proof.Machine
end

