-- ==== Sys2Proof/Machine/SeqOps.lean ====
section
/-! DEFINITION. InitSequencer: INIT and SHUTDOWN (spec/42_init_sequencer.md R190, R200). The payload bits of their words are
ignored (spec/30_encoding.md R112). -/

namespace Sys2Proof.Machine

/-- INIT starts with LINK_SETUP (42_init_sequencer.md R180, R190; 10_state.md R26). -/
def Encoder.startInit (e : Encoder) : Encoder :=
  { e with op := .init, phase := .setup, sub := 0#3 }

/-- SHUTDOWN starts with the frame of table entry 3 (42_init_sequencer.md R200; 10_state.md R26; log entry 4). -/
def Encoder.startShutdown (e : Encoder) : Encoder :=
  (({ e with op := .shutdown } : Encoder).setSeqPc shutdownFirst).nextEntry

/-- INIT (42_init_sequencer.md R190): accepted while ready, configured or not, if there is an InitSequencer. -/
def execInit (_ignored : Byte) (s : State) : Host.Outcome State Fault Refusal :=
  s.accept true false Encoder.startInit

/-- SHUTDOWN (42_init_sequencer.md R200): accepted while ready and configured, if there is an InitSequencer. -/
def execShutdown (_ignored : Byte) (s : State) : Host.Outcome State Fault Refusal :=
  s.accept true true Encoder.startShutdown

end Sys2Proof.Machine
end

