-- ==== Sys2Proof/Machine/Dispatch.lean ====
section
/-! DEFINITION. One arm per instruction. -/

namespace Sys2Proof.Machine

def exec (i : Instr) (s : State) : Host.Outcome State Fault Refusal :=
  match i with
  | .sendCommand b => Sys2Proof.Machine.execSendCommand b s
  | .sendData b => Sys2Proof.Machine.execSendData b s
  | .init ignored => Sys2Proof.Machine.execInit ignored s
  | .shutdown ignored => Sys2Proof.Machine.execShutdown ignored s
  | .wireCommandFrame b => Sys2Proof.Machine.execWireCommandFrame b s
  | .wireDataFrame b => Sys2Proof.Machine.execWireDataFrame b s

end Sys2Proof.Machine
end

