-- ==== Sys2Proof/Machine/Cycle.lean ====
section
/-! DEFINITION. One step of the machine: what it fetches, and what happens when it fetches nothing. A step emits at most one
event (spec/10_state.md R25, 20_memory.md R70). -/

namespace Sys2Proof.Machine

/-- What the instance that may act fetches in this step: at the start of a frame, the wire frame in its `frame` register;
while ready, the request offered at its port (20_memory.md R75: sampled then and only then); else nothing. -/
def State.fetch (s : State) : Option (Except DecodeError Instr) :=
  if s.enc.fault then none
  else if s.enc.busy then
    if s.enc.atFrameStart then some (decodeFrame s.enc.frame) else none
  else if s.enc.reqValid then some (.ok (decodeRequest s.enc.reqWord))
  else none

/-- The step that fetches no instruction: a faulted encoder takes no step (10_state.md R28, 60_exceptions.md R244), a busy
one emits its next event (R25), an idle one waits for its host. -/
def State.proceed (s : State) : Host.Outcome State Fault Refusal :=
  if s.enc.fault then .next s
  else if s.enc.busy then s.emitNext
  else .next { s with enc := s.enc.hostTurn }

/-- The step of the instance that may act. -/
def State.cycle (s : State) : Host.Outcome State Fault Refusal :=
  match s.fetch with
  | some (.ok i) => exec i s
  | some (.error _) => .refused .notAFrame
  | none => s.proceed

/-- The outside's next act, if one is listed, is spent (log entry 7). -/
def State.spendAct (s : State) : State := { s with outside := s.outside.tail }

/-- The next act of the outside, and after `run` or with none listed the step of the instance that may act. -/
def State.act (s : State) : Host.Outcome State Fault Refusal :=
  match s.outside.head? with
  | none | some .run => s.spendAct.cycle
  | some .reset => .next s.spendAct.hardwareReset
  | some (.resetPeer k) => s.spendAct.hardwareResetPeer k
  | some (.grant k) => s.spendAct.grant k

/-- One step: an ill-formed configuration "yields no encoder" (60_exceptions.md R231, decided "before everything", R240),
nor does a link shared without chip-select (20_memory.md R77); else the machine acts. -/
def State.stepOnce (s : State) : Host.Outcome State Fault Refusal :=
  match s.configFlaw with
  | some flaw => .refused (.configError flaw)
  | none => if s.sharingOk then s.act else .refused .sharedLinkWithoutChipSelect

/-! ### Placing an instruction where the next step fetches it -/

/-- A request word offered at the port of a ready encoder. -/
def State.offer (s : State) (w : ReqWord) : State :=
  { s with
    enc := { s.enc with busy := false, fault := false, phase := .idle, reqValid := true, reqWord := w }
    outside := [] }

/-- A frame in the `frame` register of an encoder at the start of the frame of a frame operation. -/
def State.loadFrame (s : State) (f : FrameWord) : State :=
  { s with
    enc := { s.enc with
      op := if frameSlot f 6 then .sendData else .sendCommand
      payload := framePayload f
      frame := f
      slot := 0#5
      phase := frameStartPhase s.enc.cfg
      evIdx := 0
      busy := true
      fault := false }
    outside := [] }

end Sys2Proof.Machine
end

