-- ==== Sys2Proof/Machine/Step.lean ====
section
/-! DEFINITION. The step the host runs, and the placing of one instruction's word (Machine/Cycle.lean holds both bodies). -/

namespace Sys2Proof.Machine

/-- One step of the machine. -/
def step (s : State) : Host.Outcome State Fault Refusal := s.stepOnce

/-- `s` with the instruction whose bits are `w` (numbered as spec/opcode_table.json numbers them) where the next step
fetches it: a row of at most 16 bits is a request, offered at the port of a ready encoder; a longer one is a frame, in the
frame register at the start of a frame (log entry 13). -/
def State.withFetchWord (s : State) (nbits w : Nat) : State :=
  if nbits ≤ 16 then s.offer (BitVec.ofNat 10 w) else s.loadFrame (BitVec.ofNat 24 w)

end Sys2Proof.Machine
end

