-- ==== Sys2Proof/Machine/Observe.lean ====
section
/-! DEFINITION. What a trace is judged on: the slots sampled at the clock's rising edges (spec/30_encoding.md R98), the frames
they carry (R97), and the waveform of an event list (spec/00_scope.md R18, 41_frame_encoder.md R157). The encoder reads none of it
(spec/10_state.md R45). -/

namespace Sys2Proof.Machine

/-- What a scan of a trace keeps: the last level of the data line, the last level of the clock line. -/
structure Scan where
  sdo  : Level
  sclk : Level
deriving DecidableEq, Repr

/-- Before anything was set: both levels X. -/
def Scan.start : Scan := { sdo := none, sclk := none }

/-- The scan after one event. -/
def Scan.after (c : Scan) : Event → Scan
  | .set .sdo v => { c with sdo := some v }
  | .set .sclk v => { c with sclk := some v }
  | _ => c

/-- A rising edge: a `Set(SCLK, 1)` that follows a `Set(SCLK, 0)` (30_encoding.md R98). -/
def Scan.rising (c : Scan) (ev : Event) : Bool :=
  decide (ev = .set .sclk true) && c.sclk == some false

/-- A falling edge: a `Set(SCLK, 0)` on a clock line last set to 1 (40_bitclock.md R132). -/
def Scan.falling (c : Scan) (ev : Event) : Bool :=
  decide (ev = .set .sclk false) && c.sclk == some true

/-- `Slots` from a given scan on: the data line's level at each rising edge (30_encoding.md R98). -/
def slotsFrom (c : Scan) : List Event → List Level
  | [] => []
  | ev :: rest => if c.rising ev then c.sdo :: slotsFrom (c.after ev) rest else slotsFrom (c.after ev) rest

/-- How many falling edges an event list has from a given scan on (40_bitclock.md R132). -/
def fallingFrom (c : Scan) : List Event → Nat
  | [] => 0
  | ev :: rest => (c.falling ev).toNat + fallingFrom (c.after ev) rest

/-- `Slots(T)` of a trace, oldest event first (30_encoding.md R98). -/
def slots (t : List Event) : List Level := slotsFrom Scan.start t

/-- The first `n` elements of a list, or `none` if it is shorter, and the rest. -/
def splitExactly {α : Type} : Nat → List α → Option (List α × List α)
  | 0, rest => some ([], rest)
  | _ + 1, [] => none
  | n + 1, x :: rest => (splitExactly n rest).map (fun p => (x :: p.1, p.2))

/-- `DecodeStream`, for at most `fuel` frames: cut a slot list into 24-slot pieces and decode each (30_encoding.md R97). -/
def decodeStreamFuel : Nat → List Bool → Option (List (Bool × Byte))
  | _, [] => some []
  | 0, _ :: _ => none
  | fuel + 1, levels =>
      match splitExactly 24 levels with
      | none => none
      | some (piece, rest) =>
          match decodeLevels piece, decodeStreamFuel fuel rest with
          | some f, some fs => some (f :: fs)
          | _, _ => none

/-- `DecodeStream` (30_encoding.md R97). -/
def decodeStream (levels : List Bool) : Option (List (Bool × Byte)) :=
  decodeStreamFuel levels.length levels

/-- The levels of the four lines. -/
structure Levels where
  sdo  : Level
  sclk : Level
  cs   : Level
  res  : Level
deriving DecidableEq, Repr

/-- One line's level. -/
def Levels.get (v : Levels) : Line → Level
  | .sdo => v.sdo
  | .sclk => v.sclk
  | .cs => v.cs
  | .res => v.res

/-- One line's level changed. -/
def Levels.put (v : Levels) (l : Line) (b : Bool) : Levels :=
  match l with
  | .sdo => { v with sdo := some b }
  | .sclk => { v with sclk := some b }
  | .cs => { v with cs := some b }
  | .res => { v with res := some b }

/-- The waveform of an event list from given levels: every `Set` that does not change its line's level and every `Dir`
is deleted (41_frame_encoder.md R157). -/
def waveform (v : Levels) : List Event → List Event
  | [] => []
  | .set l b :: rest => if v.get l = some b then waveform v rest else .set l b :: waveform (v.put l b) rest
  | .dir _ :: rest => waveform v rest
  | .waitUs n :: rest => .waitUs n :: waveform v rest
  | .waitMs n :: rest => .waitMs n :: waveform v rest

/-- Waveform conformance of two event lists from given levels (00_scope.md R18). -/
def waveformEqual (v : Levels) (t u : List Event) : Prop := waveform v t = waveform v u

/-- Whether an event names a line. -/
def Event.names (ev : Event) (l : Line) : Bool :=
  match ev with
  | .set m _ => decide (m = l)
  | .dir m => decide (m = l)
  | .waitUs _ => false
  | .waitMs _ => false

end Sys2Proof.Machine
end

