-- ==== Sys2Proof/Machine/Pending.lean ====
section
/-! DEFINITION. The view of spec/10_state.md R25: the event list still to be emitted, computed from the position of R26. The state
holds the position once; this is the other reading of it. -/

namespace Sys2Proof.Machine

/-- The slots of the frame in the register from slot `k` on. -/
def Encoder.slotEventsFrom (e : Encoder) (k : Nat) : List Event :=
  sendBitsEvents e.cfg (((List.range 24).drop k).map (frameSlot e.frame))

/-- What follows the current frame: nothing for a frame operation; in INIT the entry's pause and the rest of the table; in
SHUTDOWN the rest of its two entries and PARK (42_init_sequencer.md R190, R200). -/
def Encoder.eventsAfterFrame (e : Encoder) : List Event :=
  match e.op with
  | .sendCommand | .sendData => []
  | .init =>
      (match e.cfg.seqRom[e.seqPc]? with
        | some entry => afterEvents e.cfg entry.after
        | none => [])
        ++ romEvents e.cfg (e.cfg.seqRom.drop (e.seqPc + 1))
  | .shutdown =>
      shutdownFrames e.cfg ((e.cfg.seqRom.take shutdownEnd).drop (e.seqPc + 1)) ++ parkEvents e.cfg

/-- The rest of the current frame and what follows it, from slot `k` on. -/
def Encoder.eventsFromSlot (e : Encoder) (k : Nat) : List Event :=
  e.slotEventsFrom k ++ csDeassertEvents e.cfg ++ e.eventsAfterFrame

/-- `pending`: the events of the operation in progress still to be emitted (10_state.md R25). -/
def Encoder.pending (e : Encoder) : List Event :=
  match e.phase with
  | .idle => []
  | .setup => (linkSetupEvents e.cfg).drop e.sub.toNat ++ romEvents e.cfg e.cfg.seqRom
  | .seq => afterEvents e.cfg e.dueAfter ++ romEvents e.cfg (e.cfg.seqRom.drop e.seqPc)
  | .fCsLow => csAssertEvents e.cfg ++ e.eventsFromSlot 0
  | .fData => e.eventsFromSlot e.slot.toNat
  | .fClkLow => pulseEvents e.cfg ++ e.eventsFromSlot (e.slot.toNat + 1)
  | .fWaitLow => (pulseEvents e.cfg).drop 1 ++ e.eventsFromSlot (e.slot.toNat + 1)
  | .fClkHigh => (pulseEvents e.cfg).drop 2 ++ e.eventsFromSlot (e.slot.toNat + 1)
  | .fWaitHigh => (pulseEvents e.cfg).drop 3 ++ e.eventsFromSlot (e.slot.toNat + 1)
  | .fCsHigh => csDeassertEvents e.cfg ++ e.eventsAfterFrame
  | .park => (parkEvents e.cfg).drop e.sub.toNat
  | .fault => []

end Sys2Proof.Machine
end

