-- ==== Sys2Proof/Safety.lean ====
section
/-! DEFINITION. What counts as a good state and a good run: the launch premises of spec/70_reset_and_hazards.md R263, the end of a
run (R266), the host's duty after a clear (R272), and the invariants that rule out the states no run reaches. Checks are
Bools, so that they can be evaluated. -/

namespace Sys2Proof.Machine

/-- Every instance on the link. -/
def State.instances (s : State) : List Encoder := s.enc :: s.peers

/-! ### What any instance of `SEQ_ROM` must keep (42_init_sequencer.md R184) -/

/-- Runs of entries of one name each: so many of the first, then so many of the second, and on. -/
def nameRuns (runs : List (Nat × Param)) : List Param :=
  runs.flatMap (fun run => List.replicate run.1 run.2)

/-- R184 clause by clause, over the names of R183 column "parameter"; how its words are read is log entry 3. -/
structure KeepsR184 (rom : List SeqEntry) : Prop where
  /-- (a): "the steps come in the order 2, 3, ..., 13". -/
  order : rom.Pairwise (fun e f => e.initStep ≤ f.initStep)
  steps : ∀ e ∈ rom, 2 ≤ e.initStep ∧ e.initStep ≤ 13
  /-- (a): "and inside a step in the order of its words". -/
  step2 : stepNames rom 2 = [.cmdFuncsetExt]
  step3 : stepNames rom 3 = [.cmdFuncSelA, .datVreg]
  step4 : stepNames rom 4 = [.cmdFuncsetFund]
  step5 : stepNames rom 5 = [.cmdDisplayOff]
  step6 : ∃ i j k l, stepNames rom 6 =
    .cmdFuncsetExt :: nameRuns [(i + 1, .cmdOledEnable), (j, .cmdSetClock), (k + 1, .valClock), (l + 1, .cmdOledDisable)]
  step7 : stepNames rom 7 = [.cmdExtFuncset]
  step8 : stepNames rom 8 = [.cmdEntryMode]
  step9 : stepNames rom 9 = [.cmdFuncSelB, .datRomCgram]
  step10 : ∃ i j k l m n o p q r s t, stepNames rom 10 = nameRuns
    [(i + 1, .cmdOledEnable), (j, .cmdSetSegHw), (k + 1, .valSegHw), (l + 1, .cmdFuncSelC), (m + 1, .valFuncC),
     (n, .cmdSetContrast), (o + 1, .valContrast), (p, .cmdSetPhase), (q + 1, .valPhase), (r, .cmdSetVcomh),
     (s + 1, .valVcomh), (t + 1, .cmdOledDisable)]
  step11 : stepNames rom 11 = [.cmdFuncsetFund]
  step12 : stepNames rom 12 = [.cmdClear]
  step13 : stepNames rom 13 = [.cmdHome, .cmdDisplayOn]
  /-- (b): data frames end steps 3 and 9 and stand nowhere else. -/
  data : ∀ e ∈ rom, e.kind = .data ↔ e.param = .datVreg ∨ e.param = .datRomCgram
  /-- (c): exactly the function-set entries embed `Row_bit`. -/
  rowBit : ∀ e ∈ rom, (∃ b, e.code = .rowBit b) ↔ e.param = .cmdFuncsetExt ∨ e.param = .cmdFuncsetFund
  /-- (c) with R186: each of the two function-set codes is one code. -/
  oneCode : ∀ e ∈ rom, ∀ f ∈ rom, e.param = f.param → e.param = .cmdFuncsetExt ∨ e.param = .cmdFuncsetFund → e.code = f.code
  /-- (d): exactly the entry of step 7 depends on `ROWS > 2`, with two bytes that may be equal (log entry 27). -/
  rowsAboveTwo : ∀ e ∈ rom, (∃ a b, e.code = .rowsAboveTwo a b) ↔ e.param = .cmdExtFuncset
  /-- (e): the clear entry is `0x01`. -/
  clear : ∀ e ∈ rom, e.param = .cmdClear → e.code = .fixed 0x01#8
  /-- (f): the home entry is `0x80`. -/
  home : ∀ e ∈ rom, e.param = .cmdHome → e.code = .fixed 0x80#8
  /-- (g): the contrast value is 127. -/
  contrast : ∀ e ∈ rom, e.param = .valContrast → e.code = .fixed 0x7F#8
  /-- (e), (i): a pause of `T_CLEAR_MS` after the clear entry, one of `T_STABLE_MS` after the last, and no other. -/
  pauses : ∀ e ∈ rom, (e.after = .clear ↔ e.param = .cmdClear) ∧ (e.after = .stable ↔ e.param = .cmdDisplayOn)

/-! ### Launch premises (70_reset_and_hazards.md R263) -/

/-- `NoFault`. -/
abbrev State.NoFault (s : State) : Prop := s.enc.fault = false

/-- `Ready`: not busy, phase IDLE, no pending events. -/
abbrev State.Ready (s : State) : Prop := s.enc.busy = false ∧ s.enc.phase = .idle ∧ s.enc.pending = []

/-- `Configured`: `configured = 1` and every present line an output. -/
abbrev State.Configured (s : State) : Prop :=
  s.enc.configured = true ∧
    s.enc.sdoDir = .output ∧ s.enc.sclkDir = .output ∧
    (s.enc.cfg.csPresent = true → s.enc.csDir = .output) ∧ (s.enc.cfg.resPresent = true → s.enc.resDir = .output)

/-- `LinesIdle`: every present line at its idle level (10_state.md R20). -/
abbrev State.LinesIdle (s : State) : Prop :=
  s.sdo = some false ∧ s.sclk = some true ∧
    (s.enc.cfg.csPresent = true → s.enc.csLevel = some true) ∧
    (s.enc.cfg.resPresent = true → s.enc.resLevel = some true)

/-- `ConfigWF`, of every instance on the link, with the link's own condition (20_memory.md R77). -/
abbrev State.ConfigWF (s : State) : Prop := s.configFlaw = none ∧ s.sharingOk = true

/-- `LinkExclusive`: no other instance is inside a frame on this link (20_memory.md R76). -/
abbrev State.LinkExclusive (s : State) : Prop := s.peers.any Encoder.midFrame = false

/-- All six launch premises. -/
abbrev State.LaunchPremises (s : State) : Prop :=
  s.NoFault ∧ s.Ready ∧ s.Configured ∧ s.LinesIdle ∧ s.ConfigWF ∧ s.LinkExclusive

/-- At most one instance on the link is inside a frame (20_memory.md R76): what `LinkExclusive` is for the acting
instance, said for the whole link. -/
abbrev State.OneFrameAtATime (s : State) : Prop := s.instances.countP Encoder.midFrame ≤ 1

/-! ### The environment of a quiet run -/

/-- Nothing outside is due at the next `n` steps, no reset and no grant: what is listed for them is `run`. -/
abbrev State.UndisturbedFor (s : State) (n : Nat) : Prop := ∀ a ∈ s.outside.take n, a = .run

/-- Nothing outside is due at the next step. -/
abbrev State.Undisturbed (s : State) : Prop := s.UndisturbedFor 1

/-- No listed answer of the environment is a failure (20_memory.md R64). -/
abbrev State.NeverFails (s : State) : Prop := s.enc.cfg.ioFallible = false ∨ s.answers.all id = true

/-! ### The end of a run (70_reset_and_hazards.md R266) -/

/-- The host offers no further request and `busy = 0`. -/
abbrev State.RunOver (s : State) : Prop :=
  s.enc.reqValid = false ∧ s.enc.script = [] ∧ s.enc.busy = false

/-- The run is over and ended well: `fault = 0`; that no request was refused is that the state was reached at all. -/
abbrev State.EndedWell (s : State) : Prop := s.RunOver ∧ s.NoFault

/-! ### The host's duty after a clear (70_reset_and_hazards.md R272, 30_encoding.md R115) -/

/-- The pseudo-operation CLEAR: `SEND_COMMAND 0x01`, then the pause (30_encoding.md R115). -/
def clearSequence (c : Config) : List HostAct := [.request 0x001#10, .waitMs c.tClearMs]

/-- The pseudo-operation HOME: `SEND_COMMAND 0x80` (30_encoding.md R115). -/
def homeSequence : List HostAct := [.request 0x080#10]

/-- The pause a host owes after a request: `T_CLEAR_MS` after its own clear command, none after any other. R272's clear is
`0x01` "in fundamental command mode", and the mode is the controller's (10_state.md R47): that the pause is owed after
every `SEND_COMMAND 0x01`, in whatever mode it arrives, is the model's choice (log entry 28). -/
def pauseOwed (c : Config) (w : ReqWord) : Nat :=
  if decodeRequest w = .sendCommand 0x01#8 then c.tClearMs else 0

/-- The host, owing a pause of `owed` milliseconds, makes no request before its pauses have added up to it. -/
def dutyKeptFrom (c : Config) : Nat → List HostAct → Bool
  | _, [] => true
  | owed, .request w :: rest => decide (owed = 0) && dutyKeptFrom c (pauseOwed c w) rest
  | owed, .waitMs n :: rest => dutyKeptFrom c (owed - n) rest

/-- After each `SEND_COMMAND 0x01` of its own the host holds back for at least `T_CLEAR_MS` in all before its next request.
The encoder does not check it. -/
def clearDutyKept (c : Config) (acts : List HostAct) : Bool := dutyKeptFrom c 0 acts

/-! ### What statements about the sequencer compare -/

/-- What of an event does not depend on a payload: the level written to the data line is left out (10_state.md R27). -/
def Event.shape : Event → Event
  | .set .sdo _ => .set .sdo false
  | .set .sclk v => .set .sclk v
  | .set .cs v => .set .cs v
  | .set .res v => .set .res v
  | .dir l => .dir l
  | .waitUs n => .waitUs n
  | .waitMs n => .waitMs n

/-- An encoder with another request port. -/
def Encoder.withPort (e : Encoder) (v : Bool) (w : ReqWord) (script : List HostAct) : Encoder :=
  { e with reqValid := v, reqWord := w, script := script }

/-- An encoder with other contents in the registers that hold no value between operations (10_state.md R24, R55). -/
def Encoder.withScratch (e : Encoder) (op : Op) (payload : Byte) (frame : FrameWord) (sub : BitVec 3) (slot : BitVec 5)
    (seqPc : Nat) (evIdx : Nat) : Encoder :=
  { e with op := op, payload := payload, frame := frame, sub := sub, slot := slot, seqPc := seqPc, evIdx := evIdx }

/-- What hardware reset leaves of an instance (10_state.md R55): the registers R55 leaves unspecified are not mentioned; the
configuration stays, and so does the port, which is the host's (log entry 21). -/
structure Encoder.ResetFrom (after before : Encoder) : Prop where
  busy : after.busy = false
  fault : after.fault = false
  faultCode : after.faultCode = 0#2
  configured : after.configured = false
  phase : after.phase = .idle
  dir : ∀ l, after.dir l = .undriven
  csLevel : after.csLevel = none
  resLevel : after.resLevel = none
  trace : after.trace = []
  cfg : after.cfg = before.cfg
  reqValid : after.reqValid = before.reqValid
  reqWord : after.reqWord = before.reqWord
  script : after.script = before.script

/-- The state after the first event of SEND_FRAME dc b succeeded, every field named: `Set(CS, 0)` with chip-select, the
`Set(SDO, 1)` of slot 0 without (41_frame_encoder.md R156). -/
def State.afterFirstEvent (s : State) (dc : Bool) (b : Byte) : State :=
  { s with
    enc := { s.enc with
      payload := b
      frame := frameWord dc b
      slot := 0#5
      phase := if s.enc.cfg.csPresent then .fData else .fClkLow
      csLevel := if s.enc.cfg.csPresent then some false else s.enc.csLevel
      history := (if s.enc.cfg.csPresent then .set .cs false else .set .sdo true) :: s.enc.history
      evIdx := s.enc.evIdx + 1 }
    sdo := if s.enc.cfg.csPresent then s.sdo else some true
    answers := if s.enc.cfg.ioFallible then s.answers.tail else s.answers }

/-! ### Invariants -/

/-- The phases between the first and the last event of a frame sent with chip-select (10_state.md R26). -/
def Phase.insideFrame : Phase → Bool
  | .fData | .fClkLow | .fWaitLow | .fClkHigh | .fWaitHigh | .fCsHigh => true
  | .idle | .setup | .seq | .fCsLow | .park | .fault => false

/-- The phases of a frame. -/
def Phase.ofFrame : Phase → Bool
  | .fCsLow | .fData | .fClkLow | .fWaitLow | .fClkHigh | .fWaitHigh | .fCsHigh => true
  | .idle | .setup | .seq | .park | .fault => false

/-- The phases in which an operation is in progress (10_state.md R26). -/
def Phase.inProgress : Phase → Bool
  | .idle | .fault => false
  | .setup | .seq | .fCsLow | .fData | .fClkLow | .fWaitLow | .fClkHigh | .fWaitHigh | .fCsHigh | .park => true

/-- The phase FAULT. -/
def Phase.isFault : Phase → Bool
  | .fault => true
  | .idle | .setup | .seq | .fCsLow | .fData | .fClkLow | .fWaitLow | .fClkHigh | .fWaitHigh | .fCsHigh | .park => false

/-- The phase SETUP. -/
def Phase.isSetup : Phase → Bool
  | .setup => true
  | .idle | .seq | .fCsLow | .fData | .fClkLow | .fWaitLow | .fClkHigh | .fWaitHigh | .fCsHigh | .park | .fault => false

/-- The flags agree with the phase (10_state.md R26, R28, R29), and `slot` "never holds 24 to 31" (R26). -/
def Encoder.flagsOk (e : Encoder) : Bool :=
  decide (e.busy = e.phase.inProgress) && decide (e.fault = e.phase.isFault)
    && decide (e.faultCode = if e.phase.isFault then platformIOFailureCode else 0#2) && decide (e.slot.toNat < 24)

/-- A frame in progress belongs to its operation: a command frame to SEND_COMMAND, a data frame to SEND_DATA, the frame of
table entry `seq_pc` to INIT and SHUTDOWN. -/
def Encoder.frameOfOp (e : Encoder) : Bool :=
  match e.op with
  | .sendCommand => !frameSlot e.frame 6
  | .sendData => frameSlot e.frame 6
  | .init => decide (e.seqPc < e.cfg.seqRom.length)
  | .shutdown => decide (shutdownFirst ≤ e.seqPc) && decide (e.seqPc < shutdownEnd)

/-- The `frame` register holds the frame of the payload byte, and the frame belongs to the operation. -/
def Encoder.frameOk (e : Encoder) : Bool :=
  decide (e.frame = frameWord (frameSlot e.frame 6) e.payload) && e.frameOfOp

/-- The position exists and is one of the operation's own: SETUP and the due pause belong to INIT, PARK to SHUTDOWN, the
phases of chip-select to an encoder that has it. -/
def Encoder.positionOk (e : Encoder) : Bool :=
  match e.phase with
  | .idle | .fault => true
  | .setup => decide (e.op = .init) && decide (e.sub.toNat < (linkSetupEvents e.cfg).length)
  | .seq => decide (e.op = .init) && decide (1 ≤ e.seqPc) && decide (e.dueAfter ≠ .nothing)
  | .fCsLow | .fCsHigh => e.cfg.csPresent && e.frameOk
  | .fData | .fClkLow | .fWaitLow | .fClkHigh | .fWaitHigh => e.frameOk
  | .park => decide (e.op = .shutdown) && decide (e.sub.toNat < (parkEvents e.cfg).length)

/-- An event of LINK_SETUP that names one of the instance's own lines, or a direction, has taken effect. -/
def Encoder.hasEffect (e : Encoder) : Event → Bool
  | .dir l => decide (e.dir l = .output)
  | .set .cs v => decide (e.csLevel = some v)
  | .set .res v => decide (e.resLevel = some v)
  | .set .sdo _ | .set .sclk _ | .waitUs _ | .waitMs _ => true

/-- An absent line is never driven (10_state.md R20) and RES is never low (R22). -/
def Encoder.optionalLinesOk (e : Encoder) : Bool :=
  (e.cfg.csPresent || (decide (e.csLevel = none) && decide (e.csDir = .undriven)))
    && (e.cfg.resPresent || (decide (e.resLevel = none) && decide (e.resDir = .undriven)))
    && decide (e.resLevel ≠ some false)

/-- What `configured` means for the instance's own lines: every present line an output, RES high
(70_reset_and_hazards.md R263), and chip-select low exactly inside a frame, but for a fault (41_frame_encoder.md R164). -/
def Encoder.configuredLinesOk (e : Encoder) : Bool :=
  decide (e.sdoDir = .output) && decide (e.sclkDir = .output)
    && (!e.cfg.csPresent || decide (e.csDir = .output))
    && (!e.cfg.resPresent || (decide (e.resDir = .output) && decide (e.resLevel = some true)))
    && (e.fault || !e.cfg.csPresent || decide (e.csLevel = some (!e.phase.insideFrame)))

/-- The instance's own lines: only LINK_SETUP runs unconfigured (60_exceptions.md R237), its events emitted so far have
taken effect, and chip-select is not low before the first configuration. -/
def Encoder.ownLinesOk (e : Encoder) : Bool :=
  e.optionalLinesOk
    && (!e.phase.inProgress || e.phase.isSetup || e.configured)
    && (!e.phase.isSetup || ((linkSetupEvents e.cfg).take e.sub.toNat).all e.hasEffect)
    && (if e.configured then e.configuredLinesOk else decide (e.csLevel ≠ some false))

/-- One instance is in order. -/
def Encoder.inOrder (e : Encoder) : Bool := e.flagsOk && e.positionOk && e.ownLinesOk

/-- Every instance on the link is in order. -/
abbrev State.InOrder (s : State) : Prop := s.instances.all Encoder.inOrder = true

/-- The clock's level by phase (40_bitclock.md R131, R132): low between a pulse's two edges, else high. -/
def Phase.clockHigh : Phase → Bool
  | .fWaitLow | .fClkHigh => false
  | .idle | .setup | .seq | .fCsLow | .fData | .fClkLow | .fWaitHigh | .fCsHigh | .park | .fault => true

/-- The data line by position: the slot's level from its `Set` to the end of its pulse (40_bitclock.md R134), the idle level
outside frames (41_frame_encoder.md R165); before a slot's `Set`, the level the slot before left. -/
def Encoder.dataLevel (e : Encoder) : Bool :=
  match e.phase with
  | .fClkLow | .fWaitLow | .fClkHigh | .fWaitHigh => frameSlot e.frame e.slot.toNat
  | .fData => decide (0 < e.slot.toNat) && frameSlot e.frame (e.slot.toNat - 1)
  | .idle | .setup | .seq | .fCsLow | .fCsHigh | .park | .fault => false

/-- An event of LINK_SETUP that sets a shared line has taken effect. -/
def State.hasSharedEffect (s : State) : Event → Bool
  | .set .sdo v => decide (s.sdo = some v)
  | .set .sclk v => decide (s.sclk = some v)
  | .set .cs _ | .set .res _ | .dir _ | .waitUs _ | .waitMs _ => true

/-- The shared lines of an encoder alone on its link, unless it has faulted. -/
def State.sharedLinesOk (s : State) : Bool :=
  s.enc.fault
    || ((!s.enc.phase.isSetup || ((linkSetupEvents s.enc.cfg).take s.enc.sub.toNat).all s.hasSharedEffect)
      && (!s.enc.configured ||
        (decide (s.sclk = some s.enc.phase.clockHigh) && decide (s.sdo = some s.enc.dataLevel))))

/-- The invariant of an encoder alone on its link: in order, and the data and clock lines where the position says. -/
abbrev State.AloneInOrder (s : State) : Prop :=
  s.peers = [] ∧ s.InOrder ∧ s.sharedLinesOk = true

/-- No instance's trace drives the display's reset line low (10_state.md R22). -/
abbrev State.ResetLineNeverLow (s : State) : Prop :=
  ∀ e ∈ s.instances, e.resLevel ≠ some false ∧ Event.set .res false ∉ e.history

/-- "no event ever names" a line that is not present (10_state.md R20). -/
abbrev State.AbsentLinesUnnamed (s : State) : Prop :=
  ∀ e ∈ s.instances, ∀ l, Line.present l e.cfg = false → ∀ ev ∈ e.history, ev.names l = false

end Sys2Proof.Machine
end

