-- ==== Sys2Proof/Certificates/Slice0/Obligations.lean ====
section
/-! DEFINITION. The statements about the machine, from the numbered rules of spec/. -/

open Sys2Proof Sys2Proof.Machine

/-! ### Encodings -/

/-- Decoding an instruction's word gives the instruction back, from its bytes and from its table number, for every
instruction and every operand byte. -/
def Obligations.DecodingInvertsEncoding : Prop :=
  ∀ i : Instr, i.wellFormed = true →
    decodeBytes (encode i) = .ok i ∧ decodeTableWord (encodeBits i) (encodeNat i) = some i

/-- 30_encoding.md R111: a word selects the row with `(w & mask) = match`, its operand is bits 7:0; hence every one of the
1024 words selects exactly one row. -/
def Obligations.RequestWordSelectsExactlyOneRow : Prop :=
  ∀ (w : ReqWord) (b : Byte),
    (decodeRequest w = .sendCommand b ↔ w &&& 0x300#10 = 0x000#10 ∧ b = w.extractLsb' 0 8) ∧
    (decodeRequest w = .sendData b ↔ w &&& 0x300#10 = 0x100#10 ∧ b = w.extractLsb' 0 8) ∧
    (decodeRequest w = .init b ↔ w &&& 0x300#10 = 0x200#10 ∧ b = w.extractLsb' 0 8) ∧
    (decodeRequest w = .shutdown b ↔ w &&& 0x300#10 = 0x300#10 ∧ b = w.extractLsb' 0 8)

/-- Encoding what a request word decodes to gives the word back: no two words stand for one instruction. -/
def Obligations.EncodingInvertsRequestDecoding : Prop :=
  ∀ w : ReqWord, encodeNat (decodeRequest w) = w.toNat

/-- 30_encoding.md R93: payload slot k, and the length 16 regardless of the payload value. -/
def Obligations.PayloadFieldSlotBySlot : Prop :=
  ∀ b : Byte, (packPayload b).length = 16 ∧
    ∀ k, k < 16 →
      (packPayload b)[k]? =
        some (if k ≤ 3 then (b >>> k).getLsbD 0
          else if k ≤ 7 then false
          else if k ≤ 11 then (b >>> (k - 4)).getLsbD 0
          else false)

/-- 30_encoding.md R95: the frame as a number, by its formula and with slot s at bit 23 - s, is the frame as a list of 24
levels. -/
def Obligations.FrameNumberIsFrameList : Prop :=
  (∀ (dc : Bool) (b : Byte),
    frameLevels dc b = [true, true, true, true, true] ++ [false, dc, false] ++ packPayload b ∧
    (frameLevels dc b).length = 24 ∧
    (∀ s, s < 24 → (frameLevels dc b)[s]? = some ((frameWord dc b).getLsbD (23 - s))) ∧
    (payloadField b).toNat = (b.getLsbD 0).toNat <<< 15 ||| (b.getLsbD 1).toNat <<< 14 ||| (b.getLsbD 2).toNat <<< 13 |||
      (b.getLsbD 3).toNat <<< 12 ||| (b.getLsbD 4).toNat <<< 7 ||| (b.getLsbD 5).toNat <<< 6 |||
      (b.getLsbD 6).toNat <<< 5 ||| (b.getLsbD 7).toNat <<< 4 ∧
    (frameWord dc b).toNat = 0xF80000 ||| dc.toNat <<< 17 ||| (payloadField b).toNat) ∧
  frameWord false 0x00#8 = 0xF80000#24 ∧ frameWord true 0x00#8 = 0xFA0000#24 ∧
  frameWord false 0xFF#8 = 0xF8F0F0#24 ∧ frameWord true 0x5A#8 = 0xFA50A0#24

/-- 30_encoding.md R96: the counts that hold for every frame. -/
def Obligations.FrameSlotCounts : Prop :=
  ∀ (dc : Bool) (b : Byte),
    (frameLevels dc b).length = 24 ∧
    (∀ s, s < 5 → (frameLevels dc b)[s]? = some true) ∧
    (∀ s, s = 5 ∨ s = 7 ∨ (12 ≤ s ∧ s ≤ 15) ∨ (20 ≤ s ∧ s ≤ 23) → (frameLevels dc b)[s]? = some false) ∧
    (frameLevels dc b).count true = 5 + dc.toNat + (List.range 8).countP (fun k => b.getLsbD k) ∧
    5 ≤ (frameLevels dc b).count true ∧ (frameLevels dc b).count true ≤ 14 ∧
    (frameLevels dc b).getLast? = some false

/-- 30_encoding.md R97, R100: the frame decoder accepts exactly the 512 frames and gives back level and byte; anything
else it rejects. -/
def Obligations.FrameDecoderAcceptsExactlyTheFrames : Prop :=
  (∀ (dc : Bool) (b : Byte),
    decodeFrame (frameWord dc b) = .ok (if dc then .wireDataFrame b else .wireCommandFrame b) ∧
    decodeLevels (frameLevels dc b) = some (dc, b)) ∧
  (∀ (f : FrameWord) (i : Instr), decodeFrame f = .ok i → ∃ dc b, f = frameWord dc b)

/-- A few words written out from the spec's encodings (95_test_vectors.md sections 2.1 to 2.3). -/
def Obligations.WrittenOutWordsDecode : Prop :=
  decodeTableWord 16 0x080 = some (.sendCommand 0x80#8) ∧
  decodeTableWord 16 0x15A = some (.sendData 0x5A#8) ∧
  decodeTableWord 16 0x25A = some (.init 0x5A#8) ∧
  decodeTableWord 16 0x3FF = some (.shutdown 0xFF#8) ∧
  decodeTableWord 24 0xF8B040 = some (.wireCommandFrame 0x2D#8) ∧
  decodeTableWord 24 0xFA50A0 = some (.wireDataFrame 0x5A#8) ∧
  decodeTableWord 24 0xFC0000 = none ∧ decodeTableWord 24 0xF90000 = none ∧
  decodeTableWord 24 0xF80800 = none ∧ decodeTableWord 24 0x780000 = none

/-! ### What each instruction does -/

/-- 41_frame_encoder.md R160: a ready, configured encoder accepts SEND_COMMAND b, whatever b; every other field of the
machine stays but the port, which is the host's; the events to come are `FrameEvents(0, b)`. -/
def Obligations.SendCommandStartsItsFrame : Prop :=
  ∀ (s : State) (b : Byte), s.enc.reqReady = true → s.enc.configured = true →
    ∃ t, exec (.sendCommand b) s = .next t ∧
      t = { s with enc := { s.enc.portNext with
              busy := true, evIdx := 0, op := .sendCommand, payload := b, frame := frameWord false b, slot := 0#5,
              phase := if s.enc.cfg.csPresent then .fCsLow else .fData } } ∧
      t.enc.pending = frameEvents s.enc.cfg false b

/-- 41_frame_encoder.md R161: the same for SEND_DATA b, with the data/control level 1. -/
def Obligations.SendDataStartsItsFrame : Prop :=
  ∀ (s : State) (b : Byte), s.enc.reqReady = true → s.enc.configured = true →
    ∃ t, exec (.sendData b) s = .next t ∧
      t = { s with enc := { s.enc.portNext with
              busy := true, evIdx := 0, op := .sendData, payload := b, frame := frameWord true b, slot := 0#5,
              phase := if s.enc.cfg.csPresent then .fCsLow else .fData } } ∧
      t.enc.pending = frameEvents s.enc.cfg true b

/-- 42_init_sequencer.md R190: a ready encoder with an InitSequencer accepts INIT, configured or not; the events to come
are LINK_SETUP's and then the table's, and nothing changes but `op`, the position, `busy` and the port. -/
def Obligations.InitStartsItsSequence : Prop :=
  ∀ (s : State) (ignored : Byte), s.enc.reqReady = true → s.enc.cfg.hasInitSeq = true →
    ∃ t, exec (.init ignored) s = .next t ∧
      t = { s with enc := { s.enc.portNext with busy := true, evIdx := 0, op := .init, phase := .setup, sub := 0#3 } } ∧
      t.enc.pending = initEvents s.enc.cfg

/-- 42_init_sequencer.md R200: a ready, configured encoder with an InitSequencer and a well-formed configuration accepts
SHUTDOWN; the first frame is that of table entry 3, and the events to come are two frames and PARK. That `seqPc` is 3
then is the model's (log entry 4). -/
def Obligations.ShutdownStartsItsSequence : Prop :=
  ∀ (s : State) (ignored : Byte), s.enc.reqReady = true → s.enc.configured = true → s.enc.cfg.hasInitSeq = true →
    s.enc.cfg.WellFormed →
    ∃ t entry, exec (.shutdown ignored) s = .next t ∧ s.enc.cfg.seqRom[3]? = some entry ∧
      t = { s with enc := { s.enc.portNext with
              busy := true, evIdx := 0, op := .shutdown, seqPc := 3,
              payload := entryByte s.enc.cfg entry, frame := frameWord false (entryByte s.enc.cfg entry), slot := 0#5,
              phase := if s.enc.cfg.csPresent then .fCsLow else .fData } } ∧
      t.enc.pending = shutdownEvents s.enc.cfg

/-- 41_frame_encoder.md R156: at the start of a frame, with the link free and the environment answering success, the two
wire frames emit the first event of their frame and load it; the events to come are the rest of the frame and then
what follows it. Every other field of the machine stays. -/
def Obligations.WireFramesEmitTheirFirstEvent : Prop :=
  ∀ (s : State) (b : Byte), s.enc.atFrameStart = true → s.LinkExclusive → s.answer = true →
    (exec (.wireCommandFrame b) s = .next (s.afterFirstEvent false b) ∧
      (s.afterFirstEvent false b).enc.pending = (frameEvents s.enc.cfg false b).tail ++ s.enc.eventsAfterFrame) ∧
    (exec (.wireDataFrame b) s = .next (s.afterFirstEvent true b) ∧
      (s.afterFirstEvent true b).enc.pending = (frameEvents s.enc.cfg true b).tail ++ s.enc.eventsAfterFrame)

/-- 30_encoding.md R112: all words `0x200` to `0x2FF` do what `0x200` does and all words `0x300` to `0x3FF` what `0x300`
does, in every state. -/
def Obligations.SequenceOperationsIgnoreTheirPayload : Prop :=
  ∀ (s : State) (w : ReqWord),
    (w &&& 0x300#10 = 0x200#10 → exec (decodeRequest w) s = exec (.init 0x00#8) s) ∧
    (w &&& 0x300#10 = 0x300#10 → exec (decodeRequest w) s = exec (.shutdown 0x00#8) s)

/-! ### Where a request is not accepted or has no meaning -/

/-- A request offered while `busy = 1` or `fault = 1` is not accepted, is not queued and is still offered (60_exceptions.md
R239). That `exec` then answers the same state, instead of there being no step, is the model's choice: log entry 11. -/
def Obligations.UnreadyEncoderAcceptsNothing : Prop :=
  ∀ (s : State) (b : Byte), s.enc.busy = true ∨ s.enc.fault = true →
    s.enc.reqReady = false ∧
    exec (.sendCommand b) s = .next s ∧ exec (.sendData b) s = .next s ∧
    exec (.init b) s = .next s ∧ exec (.shutdown b) s = .next s

/-- 60_exceptions.md R237, R240: ready and unconfigured, SEND_COMMAND and SEND_DATA are refused, and SHUTDOWN is where
there is an InitSequencer. -/
def Obligations.UnconfiguredRequestsAreRefused : Prop :=
  ∀ (s : State) (b : Byte), s.enc.reqReady = true → s.enc.configured = false →
    exec (.sendCommand b) s = .refused .notConfigured ∧ exec (.sendData b) s = .refused .notConfigured ∧
    (s.enc.cfg.hasInitSeq = true → exec (.shutdown b) s = .refused .notConfigured)

/-- 60_exceptions.md R238, R240: ready and without an InitSequencer, INIT and SHUTDOWN are refused, configured or not. -/
def Obligations.SequencerlessRequestsAreRefused : Prop :=
  ∀ (s : State) (b : Byte), s.enc.reqReady = true → s.enc.cfg.hasInitSeq = false →
    exec (.init b) s = .refused .noInitSequencer ∧ exec (.shutdown b) s = .refused .noInitSequencer

/-- 30_encoding.md R114: a wire frame anywhere but at the start of a frame of an operation in progress has no meaning. -/
def Obligations.WireFramesElsewhereAreRefused : Prop :=
  ∀ (s : State) (b : Byte), s.enc.atFrameStart = false →
    exec (.wireCommandFrame b) s = .refused .notAtFrameStart ∧
    exec (.wireDataFrame b) s = .refused .notAtFrameStart

/-! ### One step -/

/-- A step of a machine whose configurations are well formed, with nothing outside due, runs exactly the instruction
fetched: the request offered to a ready encoder (10_state.md R30), or the frame in the register at the start of a frame.
The outside's act `run`, if one is listed, is spent.
That a step at the start of a frame decodes the frame register and executes it is the model's reading: log entry 16. -/
def Obligations.StepRunsTheFetchedInstruction : Prop :=
  (∀ s : State, s.ConfigWF → s.Undisturbed → s.enc.reqReady = true → s.enc.reqValid = true →
    step s = exec (decodeRequest s.enc.reqWord) s.spendAct) ∧
  (∀ (s : State) (i : Instr), s.ConfigWF → s.Undisturbed → s.enc.fault = false → s.enc.atFrameStart = true →
    decodeFrame s.enc.frame = .ok i → step s = exec i s.spendAct)

/-- 30_encoding.md R110: for the two frame operations `F(req_word[8], req_word[7:0])` is the frame. -/
def Obligations.RequestBitEightIsTheDataControlSlot : Prop :=
  ∀ s : State, s.ConfigWF → s.Undisturbed → s.enc.reqReady = true → s.enc.reqValid = true → s.enc.configured = true →
    s.enc.reqWord.getLsbD 9 = false →
    ∃ t, step s = .next t ∧ t.enc.busy = true ∧
      t.enc.frame = frameWord (s.enc.reqWord.getLsbD 8) (s.enc.reqWord.extractLsb' 0 8) ∧
      t.enc.frame.getLsbD 17 = s.enc.reqWord.getLsbD 8

/-- 20_memory.md R61 to R63, 10_state.md R25: a step of a busy encoder whose event succeeds appends exactly that event to
the trace and counts it; `Set` changes the level of its line and no other level or direction, `Dir` the direction of its
line and no other, a wait neither. The other instances, the host's port and the configuration stay. -/
def Obligations.StepEmitsOneEvent : Prop :=
  ∀ (s : State) (ev : Event), s.ConfigWF → s.Undisturbed → s.InOrder → s.LinkExclusive →
    s.enc.busy = true → s.enc.nextEvent = some ev → s.answer = true →
    ∃ t, step s = .next t ∧ t.enc.trace = s.enc.trace ++ [ev] ∧ t.enc.evIdx = s.enc.evIdx + 1 ∧
      (∀ l, t.level l = match ev with
        | .set m v => if m = l then some v else s.level l
        | .dir _ | .waitUs _ | .waitMs _ => s.level l) ∧
      (∀ l, t.enc.dir l = match ev with
        | .dir m => if m = l then .output else s.enc.dir l
        | .set _ _ | .waitUs _ | .waitMs _ => s.enc.dir l) ∧
      t.peers = s.peers ∧ t.outside = s.outside.tail ∧ t.enc.cfg = s.enc.cfg ∧ t.enc.op = s.enc.op ∧
      t.enc.fault = false ∧ t.enc.faultCode = s.enc.faultCode ∧
      t.enc.reqValid = s.enc.reqValid ∧ t.enc.reqWord = s.enc.reqWord ∧ t.enc.script = s.enc.script

/-- 10_state.md R26 (row IDLE, "emits nothing"), 20_memory.md R72(d): a step of an idle encoder at whose port no request stands,
with nothing outside due, changes nothing but the host's port; where the host goes on to do nothing, it changes nothing.
What the port holds then is the host's script (log entry 5), and that there is such a step is log entry 11. -/
def Obligations.IdleStepChangesOnlyThePort : Prop :=
  ∀ s : State, s.ConfigWF → s.Undisturbed → s.enc.busy = false → s.enc.fault = false → s.enc.reqValid = false →
    (∃ v w script, step s = .next { s.spendAct with enc := s.enc.withPort v w script }) ∧
    (s.enc.script = [] → step s = .next s.spendAct)

/-- 60_exceptions.md R232: a failed event is not recorded and touches no line; the encoder faults with code 2, is no longer
busy, and has nothing pending. A platform that cannot fail never answers failure. -/
def Obligations.FailureAbandonsTheOperation : Prop :=
  (∀ s : State, s.ConfigWF → s.Undisturbed → s.InOrder → s.LinkExclusive → s.enc.busy = true → s.answer = false →
    ∃ t, step s = .next t ∧
      t.enc.fault = true ∧ t.enc.faultCode = 2#2 ∧ t.enc.busy = false ∧ t.enc.phase = .fault ∧ t.enc.pending = [] ∧
      t.enc.trace = s.enc.trace ∧ t.enc.configured = s.enc.configured ∧
      (∀ l, t.level l = s.level l) ∧ (∀ l, t.enc.dir l = s.enc.dir l) ∧ t.peers = s.peers ∧ t.enc.cfg = s.enc.cfg) ∧
  (∀ s : State, s.enc.cfg.ioFallible = false → s.answer = true)

/-- The two wire frames raise `PlatformIOFailure` when the environment fails their first event, at the start of a frame.
That the step of a wire frame is the one that emits its frame's first event is the model's reading: log entry 16. -/
def Obligations.FailedFirstEventFaultsWireFrames : Prop :=
  ∀ (s : State) (b : Byte), s.enc.atFrameStart = true → s.LinkExclusive → s.answer = false →
    ∃ t u, exec (.wireCommandFrame b) s = .next t ∧ exec (.wireDataFrame b) s = .next u ∧
      t.enc.fault = true ∧ t.enc.faultCode = 2#2 ∧ t.enc.busy = false ∧ t.enc.phase = .fault ∧
      t.enc.history = s.enc.history ∧ (∀ l, t.level l = s.level l) ∧ (∀ l, t.enc.dir l = s.enc.dir l) ∧
      u.enc.fault = true ∧ u.enc.faultCode = 2#2 ∧ u.enc.busy = false ∧ u.enc.phase = .fault ∧
      u.enc.history = s.enc.history ∧ (∀ l, u.level l = s.level l) ∧ (∀ l, u.enc.dir l = s.enc.dir l)

/-- 60_exceptions.md R244: `fault` is cleared by hardware reset and by nothing else: while no reset and no hand-over of the
link is due, a faulted encoder takes no step, whatever is offered at its port. -/
def Obligations.FaultIsLeftOnlyByReset : Prop :=
  (∀ s : State, s.ConfigWF → s.enc.fault = true →
    (s.outside = [] → step s = .next s) ∧
    (∀ rest, s.outside = .run :: rest → step s = .next { s with outside := rest })) ∧
  (∀ (s : State) (rest : List EnvAct), s.ConfigWF → s.outside = .reset :: rest →
    ∃ t, step s = .next t ∧ t.enc.fault = false ∧ t.enc.phase = .idle)

/-- 10_state.md R55, 70_reset_and_hazards.md R260: what hardware reset leaves of the instance it resets, from every state:
of the acting instance, with or without others on its link, and of one of the others; every other instance stays. The
shared levels are at X where the instance was alone; with others on the link they follow log entry 6 and are not
mentioned. That the host's port stays is log entry 21. -/
def Obligations.ResetLeavesTheStatedValues : Prop :=
  (∀ (s : State) (rest : List EnvAct), s.ConfigWF → s.outside = .reset :: rest →
    ∃ t, step s = .next t ∧ t.enc.ResetFrom s.enc ∧ t.peers = s.peers ∧ t.answers = s.answers ∧ t.outside = rest ∧
      (s.peers = [] → ∀ l, t.level l = none)) ∧
  (∀ (s : State) (k : Nat) (p : Encoder) (rest : List EnvAct), s.ConfigWF → s.outside = .resetPeer k :: rest →
    s.peers[k]? = some p →
    ∃ t q, step s = .next t ∧ q.ResetFrom p ∧ t.peers = s.peers.set k q ∧ t.enc = s.enc ∧ t.answers = s.answers ∧
      t.outside = rest)

/-- 60_exceptions.md R231: when a configuration is well formed, its table's conjunct being R184 of 42_init_sequencer.md clause
by clause (its words as log entries 3 and 27 read them), and that construction refuses one that is not by a name (which of
several: log entry 23). That every step of a state with such a configuration is refused is the model's choice: log
entry 2. -/
def Obligations.IllFormedConfigurationYieldsNoEncoder : Prop :=
  (∀ c : Config, c.WellFormed ↔
    (1 ≤ c.rows ∧ c.rows ≤ 4) ∧ 1 ≤ c.columns ∧ 3 ≤ c.tSettleUs ∧ 2 ≤ c.tClearMs ∧ 250 ≤ c.tStableMs ∧
      KeepsR184 c.seqRom) ∧
  (∀ (c : Config) (flaw : ConfigFlaw), c.flaw = some flaw → construct c = .refused (.configError flaw)) ∧
  (∀ (s : State) (flaw : ConfigFlaw), s.enc.cfg.flaw = some flaw → step s = .refused (.configError flaw))

/-- 20_memory.md R77, 93_implementation_defined.md U2: a link shared by instances one of which has no chip-select is refused,
and nothing else is refused under that name. That the refusal meets every step is the model's choice: log entry 2. -/
def Obligations.SharedLinkNeedsChipSelect : Prop :=
  ∀ s : State, step s = .refused .sharedLinkWithoutChipSelect ↔
    s.configFlaw = none ∧ s.peers ≠ [] ∧ ∃ e ∈ s.instances, e.cfg.csPresent = false

/-- 20_memory.md R75: what stands at the port while the encoder is busy changes nothing of the step but the port. -/
def Obligations.PortIsNotReadWhileBusy : Prop :=
  ∀ (s t : State) (v : Bool) (w : ReqWord) (script : List HostAct), s.Undisturbed → s.enc.busy = true →
    step s = .next t →
    step { s with enc := s.enc.withPort v w script } = .next { t with enc := t.enc.withPort v w script }

/-- 10_state.md R24: the registers that hold no value between operations are not read there: whatever they hold, an
idle encoder accepts a request with the same events to come, and the host's turn is the same. -/
def Obligations.IdleRegistersAreNotRead : Prop :=
  ∀ (s t : State) (op : Op) (payload : Byte) (frame : FrameWord) (sub : BitVec 3) (slot : BitVec 5) (seqPc : Nat)
    (evIdx : Nat), s.Undisturbed → s.enc.reqReady = true → step s = .next t →
    ∃ u, step { s with enc := s.enc.withScratch op payload frame sub slot seqPc evIdx } = .next u ∧
      u.enc.busy = t.enc.busy ∧ u.enc.phase = t.enc.phase ∧ u.enc.configured = t.enc.configured ∧
      (t.enc.busy = true → u.enc.pending = t.enc.pending) ∧
      u.enc.trace = t.enc.trace ∧ u.enc.reqValid = t.enc.reqValid ∧ u.enc.reqWord = t.enc.reqWord ∧
      u.enc.script = t.enc.script ∧ u.sdo = t.sdo ∧ u.sclk = t.sclk

/-! ### Event lists -/

/-- 41_frame_encoder.md R158: event and edge counts of one frame; the clock is high before it (40_bitclock.md R132). -/
def Obligations.FrameEventCounts : Prop :=
  ∀ (c : Config) (dc : Bool) (b : Byte),
    (frameEvents c dc b).countP (fun ev => decide (ev = .set .sdo true ∨ ev = .set .sdo false)) = 24 ∧
    (frameEvents c dc b).count (.set .sclk false) = 24 ∧ (frameEvents c dc b).count (.set .sclk true) = 24 ∧
    (frameEvents c dc b).count (.waitUs c.tSettleUs) = 48 ∧
    (frameEvents c dc b).count (.set .cs false) = c.csPresent.toNat ∧
    (frameEvents c dc b).count (.set .cs true) = c.csPresent.toNat ∧
    (frameEvents c dc b).length = 120 + 2 * c.csPresent.toNat ∧
    (∀ ev ∈ frameEvents c dc b, ev.names .res = false) ∧
    (c.csPresent = false → ∀ ev ∈ frameEvents c dc b, ev.names .cs = false) ∧
    (∀ scan : Scan, scan.sclk = some true →
      fallingFrom scan (frameEvents c dc b) = 24 ∧ (slotsFrom scan (frameEvents c dc b)).length = 24)

/-- 41_frame_encoder.md R153: TRANSMIT_BYTE emits exactly 80 events and 16 pulses, and its slots are the payload field,
whatever was on the lines before. -/
def Obligations.TransmitByteClocksThePayloadField : Prop :=
  ∀ (c : Config) (b : Byte) (scan : Scan),
    (transmitByteEvents c b).length = 80 ∧ (transmitByteEvents c b).count (.set .sclk true) = 16 ∧
    (transmitByteEvents c b).count (.set .sclk false) = 16 ∧
    slotsFrom scan (transmitByteEvents c b) = (packPayload b).map some

/-- 30_encoding.md R95, R98: the slots of a frame's events are the frame. -/
def Obligations.FrameEventsCarryTheFrame : Prop :=
  ∀ (c : Config) (dc : Bool) (b : Byte) (scan : Scan),
    slotsFrom scan (frameEvents c dc b) = (frameLevels dc b).map some

/-- 42_init_sequencer.md R190, 30_encoding.md R97: the slots of INIT are the frames of the table's entries in order, and
decode to their levels and bytes. -/
def Obligations.InitCarriesTheTablesFrames : Prop :=
  ∀ c : Config,
    slots (initEvents c) = (c.seqRom.flatMap (fun e => frameLevels (entryDc e) (entryByte c e))).map some ∧
    decodeStream (c.seqRom.flatMap (fun e => frameLevels (entryDc e) (entryByte c e)))
      = some (c.seqRom.map (fun e => (entryDc e, entryByte c e)))

/-- 42_init_sequencer.md R180, R191, R200: how many events INIT and SHUTDOWN emit under a well-formed configuration whose
table has n entries. -/
def Obligations.SequenceEventCounts : Prop :=
  ∀ c : Config, c.WellFormed →
    (initEvents c).length =
      4 + 2 * c.resPresent.toNat + 2 * c.csPresent.toNat + c.seqRom.length * (120 + 2 * c.csPresent.toNat) + 2 ∧
    (shutdownEvents c).length =
      2 * (120 + 2 * c.csPresent.toNat) + 2 + c.csPresent.toNat + c.resPresent.toNat

/-- 42_init_sequencer.md R200, R186, R199: under every well-formed configuration SHUTDOWN's events are those of the command frame
of `CMD_FUNCSET_FUND | RB`, of the command frame of `CMD_DISPLAY_OFF`, and PARK's, the two codes being those of every table
entry of these names. -/
def Obligations.ShutdownSendsFundamentalDisplayOffAndParks : Prop :=
  ∀ c : Config, c.WellFormed →
    ∃ fund off : Byte,
      (∃ e ∈ c.seqRom, e.param = .cmdFuncsetFund) ∧ (∀ e ∈ c.seqRom, e.param = .cmdFuncsetFund → e.code = .rowBit fund) ∧
      (∃ e ∈ c.seqRom, e.param = .cmdDisplayOff) ∧ (∀ e ∈ c.seqRom, e.param = .cmdDisplayOff → e.code = .fixed off) ∧
      shutdownEvents c =
        frameEvents c false (if c.rows = 2 ∨ c.rows = 4 then fund ||| c.rowBitMask else fund) ++ frameEvents c false off
          ++ [.set .sdo false, .set .sclk true] ++ (if c.csPresent then [.set .cs true] else [])
          ++ (if c.resPresent then [.set .res true] else [])

/-- 42_init_sequencer.md R184, R273 of 70_reset_and_hazards.md: under every well-formed configuration INIT's last event is
the pause of at least 250 ms, the clear frame is followed at once by the pause of at least 2 ms and the home frame, and
the frame of the contrast value 127 is sent before them. -/
def Obligations.InitPausesAfterClearAndAtTheEnd : Prop :=
  ∀ c : Config, c.WellFormed →
    250 ≤ c.tStableMs ∧ (initEvents c).getLast? = some (.waitMs c.tStableMs) ∧
    2 ≤ c.tClearMs ∧
    ∃ before after, initEvents c =
      before ++ frameEvents c false 0x01#8 ++ [.waitMs c.tClearMs] ++ frameEvents c false 0x80#8 ++ after ∧
      ∃ u v, before = u ++ frameEvents c false 0x7F#8 ++ v

/-- 70_reset_and_hazards.md R272: a host keeps its duty after a clear exactly if between every `SEND_COMMAND 0x01` of its own and
its next request its pauses add up to at least `T_CLEAR_MS`. That the duty is owed after every `SEND_COMMAND 0x01`, whatever
mode the controller is in, is the model's choice: log entry 28. -/
def Obligations.ClearDutyIsThePauseBeforeTheNextRequest : Prop :=
  ∀ (c : Config) (script : List HostAct), clearDutyKept c script = true ↔
    ∀ (before after : List HostAct) (pauses : List Nat) (w : ReqWord),
      script = before ++ .request 0x001#10 :: pauses.map .waitMs ++ .request w :: after → c.tClearMs ≤ pauses.sum

/-- 42_init_sequencer.md R187: the two row tests are different tests. -/
def Obligations.RowTestsByRowCount : Prop :=
  ∀ (c : Config) (a b f : Byte) (e : SeqEntry), e.code = .rowsAboveTwo a b →
    (c.rows = 1 → c.rowBit = false ∧ withRowBit c f = f ∧ entryByte c e = b) ∧
    (c.rows = 2 → c.rowBit = true ∧ withRowBit c f = f ||| c.rowBitMask ∧ entryByte c e = b) ∧
    (c.rows = 3 → c.rowBit = false ∧ withRowBit c f = f ∧ entryByte c e = a) ∧
    (c.rows = 4 → c.rowBit = true ∧ withRowBit c f = f ||| c.rowBitMask ∧ entryByte c e = a)

/-- 41_frame_encoder.md R164: with chip-select, a frame's first event asserts it, its last deasserts it, and none between
names it; between them are all 24 pulses. -/
def Obligations.ChipSelectBracketsEachFrame : Prop :=
  ∀ (c : Config) (dc : Bool) (b : Byte), c.csPresent = true →
    ∃ mid, frameEvents c dc b = Event.set .cs false :: mid ++ [.set .cs true] ∧
      (∀ ev ∈ mid, ev.names .cs = false) ∧
      mid.count (.set .sclk false) = 24 ∧ mid.count (.set .sclk true) = 24

/-- 10_state.md R27: the number and kind of events of a frame never depend on the payload byte, nor on the frame's kind;
SEND_DATA differs from SEND_COMMAND in one event, the `Set` of slot 6. -/
def Obligations.EventsDoNotDependOnThePayload : Prop :=
  (∀ (c : Config) (dc dc' : Bool) (b b' : Byte),
    (frameEvents c dc b).map Event.shape = (frameEvents c dc' b').map Event.shape) ∧
  (∀ (c : Config) (b : Byte), ∃ u v,
    frameEvents c false b = u ++ [.set .sdo false] ++ v ∧ frameEvents c true b = u ++ [.set .sdo true] ++ v ∧
    u.count (.set .sclk true) = 6)

/-- 42_init_sequencer.md R199: from idle lines PARK changes nothing on the wire; it leaves every present line idle. -/
def Obligations.ParkKeepsIdleLines : Prop :=
  ∀ (c : Config) (v : Levels),
    v.sdo = some false → v.sclk = some true → (c.csPresent = true → v.cs = some true) →
    (c.resPresent = true → v.res = some true) → waveform v (parkEvents c) = []

/-! ### Whole-machine rules -/

/-- 10_state.md R25, R26: the phase sequencer emits exactly the head of the pending event list and leaves its tail, one
event a step, and is busy as long as something is pending. -/
def Obligations.SequencerWalksThePendingEvents : Prop :=
  ∀ s : State, s.ConfigWF → s.Undisturbed → s.InOrder → s.LinkExclusive → s.enc.busy = true → s.answer = true →
    ∃ t ev, step s = .next t ∧ s.enc.pending = ev :: t.enc.pending ∧ t.enc.trace = s.enc.trace ++ [ev] ∧
      t.enc.evIdx = s.enc.evIdx + 1 ∧ (t.enc.busy = true ↔ t.enc.pending ≠ [])

/-- 10_state.md R25, 41_frame_encoder.md R165: an operation of an encoder alone on its link, undisturbed and never failing,
emits exactly its pending events, in as many steps, and ends not busy, not faulted, configured, with every present
line at its idle level. -/
def Obligations.OperationRunsToItsEnd : Prop :=
  ∀ s : State, s.AloneInOrder → s.ConfigWF → s.UndisturbedFor s.enc.pending.length → s.NeverFails → s.enc.busy = true →
    ∃ t, Host.Core.run core s.enc.pending.length s = .next t ∧
      t.enc.trace = s.enc.trace ++ s.enc.pending ∧ t.NoFault ∧ t.Ready ∧ t.Configured ∧ t.LinesIdle ∧
      t.AloneInOrder ∧ t.enc.cfg = s.enc.cfg

/-- 41_frame_encoder.md R160, R161, 42_init_sequencer.md R190, R200, R201: from the launch premises each of the four requests
emits exactly its event list and ends with the launch premises again. -/
def Obligations.EachRequestEmitsItsEventsAndEndsIdle : Prop :=
  ∀ (s : State) (b : Byte) (i : Instr), s.AloneInOrder → s.LaunchPremises →
    s.UndisturbedFor (events s.enc.cfg i).length → s.NeverFails → s.enc.cfg.hasInitSeq = true →
    i = .sendCommand b ∨ i = .sendData b ∨ i = .init b ∨ i = .shutdown b →
    ∃ t u, exec i s = .next t ∧ t.enc.trace = s.enc.trace ∧
      Host.Core.run core (events s.enc.cfg i).length t = .next u ∧
      u.enc.trace = s.enc.trace ++ events s.enc.cfg i ∧ u.LaunchPremises

/-- 70_reset_and_hazards.md R262, R263: from reset, INIT on an encoder alone with a well-formed configuration emits
`Events(INIT)` and establishes the launch premises. That the environment of a newly constructed encoder never fails and
does nothing, and that it is alone on its link, is the model's choice: log entries 7 and 8. -/
def Obligations.InitFromResetEstablishesTheLaunchPremises : Prop :=
  ∀ (c : Config) (s : State) (b : Byte), c.WellFormed → c.hasInitSeq = true → construct c = .next s →
    ∃ t u, exec (.init b) s = .next t ∧ Host.Core.run core (initEvents c).length t = .next u ∧
      u.enc.trace = initEvents c ∧ u.LaunchPremises

/-- A state in order stays in order: flags agree with the phase, `slot` never holds 24 to 31, the position is one that
exists, frames are sent only when configured, absent lines stay undriven, RES is never low, and chip-select is low
exactly inside a frame. -/
def Obligations.StepKeepsOrder : Prop :=
  ∀ s t : State, s.InOrder → step s = .next t → t.InOrder

/-- 10_state.md R26: six bits hold `seq_pc` for every table of at most 63 entries. That the model's register is a natural number,
so that longer tables can be walked too, is log entry 26. -/
def Obligations.SixBitsHoldTheTableIndex : Prop :=
  ∀ s t : State, s.InOrder → (∀ e ∈ s.instances, e.cfg.seqRom.length ≤ 63 ∧ e.seqPc < 64) → step s = .next t →
    ∀ e ∈ t.instances, e.seqPc < 64

/-- The states a machine starts from are in order: reset, construction, and a launch from the premises of R263. -/
def Obligations.StartingStatesAreInOrder : Prop :=
  State.reset.AloneInOrder ∧
  (∀ (c : Config) (s : State), construct c = .next s → s.AloneInOrder) ∧
  (∀ c : Config, c.WellFormed → (launch c).AloneInOrder ∧ (launch c).LaunchPremises)

/-- 40_bitclock.md R131, R134, 41_frame_encoder.md R165: alone on its link, an encoder keeps the clock and data lines where its
position says: the clock low exactly between a pulse's edges, the data line at the slot's level through the pulse, both
idle between operations. -/
def Obligations.StepKeepsTheLinesInOrder : Prop :=
  ∀ s t : State, s.AloneInOrder → step s = .next t → t.AloneInOrder

/-- 70_reset_and_hazards.md R266, 41_frame_encoder.md R165: where a run of a configured encoder is over and ended well, or merely
no operation is in progress and none has failed, every present line is at its idle level. -/
def Obligations.LinesAreIdleBetweenOperations : Prop :=
  ∀ s : State, s.AloneInOrder → s.enc.configured = true →
    (s.EndedWell → s.LinesIdle) ∧ (s.enc.busy = false → s.enc.fault = false → s.LinesIdle ∧ s.Ready ∧ s.Configured)

/-- 40_bitclock.md R132: the first `Set(SCLK, 0)` of a pulse is always a real falling edge and the `Set(SCLK, 1)` a real
rising edge, for an encoder alone on its link that is sending a frame. -/
def Obligations.EveryPulseHasRealEdges : Prop :=
  ∀ s : State, s.AloneInOrder →
    (s.enc.nextEvent = some (.set .sclk false) → s.sclk = some true) ∧
    (s.enc.phase.ofFrame = true → s.enc.nextEvent = some (.set .sclk true) → s.sclk = some false)

/-- In a state in order no step stops at a position that does not exist, at a register that holds no frame, or at a
frame outside the start of one. -/
def Obligations.OrderedStatesHaveAPosition : Prop :=
  ∀ s : State, s.InOrder →
    step s ≠ .fault .noSuchPosition ∧ step s ≠ .refused .notAFrame ∧ step s ≠ .refused .notAtFrameStart

/-- 20_memory.md R76: on one shared link at most one instance is inside a frame, after every step. -/
def Obligations.StepKeepsOneFrameAtATime : Prop :=
  ∀ s t : State, s.OneFrameAtATime → step s = .next t → t.OneFrameAtATime

/-- 20_memory.md R76, 93_implementation_defined.md U3: a hand-over of the link emits nothing and changes no line, and no
instance emits an event while another is inside a frame; the machine stops there instead (log entry 10). -/
def Obligations.NoEventInsideAnothersFrame : Prop :=
  (∀ (s : State) (k : Nat) (p : Encoder) (rest : List EnvAct), s.ConfigWF → s.outside = .grant k :: rest →
    s.peers[k]? = some p →
    step s = .next { s with enc := p, peers := s.peers.set k s.enc, outside := rest }) ∧
  (∀ (s t : State), step s = .next t → s.peers.any Encoder.midFrame = true → s.Undisturbed →
    t.enc.trace = s.enc.trace) ∧
  (∀ (s : State) (b : Byte), s.enc.atFrameStart = true → s.peers.any Encoder.midFrame = true →
    exec (.wireCommandFrame b) s = .fault .linkOverlap ∧ exec (.wireDataFrame b) s = .fault .linkOverlap)

/-- 10_state.md R22: no operation of the encoder drives `RES` low. -/
def Obligations.StepNeverDrivesResetLow : Prop :=
  ∀ s t : State, s.ResetLineNeverLow → step s = .next t → t.ResetLineNeverLow

/-- 10_state.md R20: no event ever names a line that is not present. -/
def Obligations.StepNeverNamesAnAbsentLine : Prop :=
  ∀ s t : State, s.AbsentLinesUnnamed → step s = .next t → t.AbsentLinesUnnamed

/-- 20_memory.md R70, R72: a step with nothing outside due appends at most one event to the trace, and changes at most one
line's level and at most one line's direction; a step of an encoder that is not busy appends none and changes no line. -/
def Obligations.StepChangesAtMostOneLine : Prop :=
  ∀ s t : State, s.Undisturbed → step s = .next t →
    (t.enc.trace = s.enc.trace ∨ ∃ ev, t.enc.trace = s.enc.trace ++ [ev]) ∧
    (∀ l m : Line, t.level l ≠ s.level l → t.level m ≠ s.level m → l = m) ∧
    (∀ l m : Line, t.enc.dir l ≠ s.enc.dir l → t.enc.dir m ≠ s.enc.dir m → l = m) ∧
    (∀ l m : Line, t.level l ≠ s.level l → t.enc.dir m = s.enc.dir m) ∧
    (s.enc.busy = false → t.enc.trace = s.enc.trace ∧ ∀ l, t.level l = s.level l ∧ t.enc.dir l = s.enc.dir l)

/-- 10_state.md R28, 42_init_sequencer.md R180: with nothing outside due, the step that emits the last event of LINK_SETUP sets
`configured`, no other step sets it, and none clears it. -/
def Obligations.ConfiguredIsSetByLinkSetupAndKept : Prop :=
  (∀ s : State, s.ConfigWF → s.Undisturbed → s.LinkExclusive → s.enc.busy = true → s.enc.fault = false →
    s.enc.phase = .setup → s.enc.sub.toNat + 1 = (linkSetupEvents s.enc.cfg).length → s.answer = true →
    ∃ t, step s = .next t ∧ t.enc.configured = true ∧ t.enc.trace = s.enc.trace ++ [.set .sclk true]) ∧
  (∀ s t : State, s.Undisturbed → step s = .next t →
    (s.enc.configured = true → t.enc.configured = true) ∧
    (s.enc.configured = false → t.enc.configured = true →
      s.enc.phase = .setup ∧ (linkSetupEvents s.enc.cfg).length ≤ s.enc.sub.toNat + 1 ∧
        t.enc.trace = s.enc.trace ++ [.set .sclk true]))

/-- 10_state.md R31: no step changes an instance's configuration; a hand-over of the link exchanges the places of two
instances, with their configurations, and does nothing else to them. -/
def Obligations.ConfigurationNeverChanges : Prop :=
  (∀ s t : State, (∀ k rest, s.outside ≠ .grant k :: rest) → step s = .next t →
    t.enc.cfg = s.enc.cfg ∧ t.peers.map Encoder.cfg = s.peers.map Encoder.cfg) ∧
  (∀ (s t : State) (k : Nat) (rest : List EnvAct), s.outside = .grant k :: rest → step s = .next t →
    ∃ p, s.peers[k]? = some p ∧ t.enc.cfg = p.cfg ∧
      t.peers.map Encoder.cfg = (s.peers.map Encoder.cfg).set k s.enc.cfg)
end

