-- ==== Sys2Proof/Laws/State.lean ====
section
/-! SUPPORT. What each update of the encoder and of the state leaves unchanged and what it writes, one lemma per field, so
that no later proof unfolds a record update. -/

namespace Sys2Proof.Machine

/-! ### `setBusy` -/

@[simp] theorem Encoder.setBusy_cfg (e : Encoder) : (e.setBusy).cfg = e.cfg := rfl
@[simp] theorem Encoder.setBusy_op (e : Encoder) : (e.setBusy).op = e.op := rfl
@[simp] theorem Encoder.setBusy_payload (e : Encoder) : (e.setBusy).payload = e.payload := rfl
@[simp] theorem Encoder.setBusy_frame (e : Encoder) : (e.setBusy).frame = e.frame := rfl
@[simp] theorem Encoder.setBusy_phase (e : Encoder) : (e.setBusy).phase = e.phase := rfl
@[simp] theorem Encoder.setBusy_sub (e : Encoder) : (e.setBusy).sub = e.sub := rfl
@[simp] theorem Encoder.setBusy_slot (e : Encoder) : (e.setBusy).slot = e.slot := rfl
@[simp] theorem Encoder.setBusy_seqPc (e : Encoder) : (e.setBusy).seqPc = e.seqPc := rfl
@[simp] theorem Encoder.setBusy_evIdx (e : Encoder) : (e.setBusy).evIdx = 0 := rfl
@[simp] theorem Encoder.setBusy_busy (e : Encoder) : (e.setBusy).busy = true := rfl
@[simp] theorem Encoder.setBusy_configured (e : Encoder) : (e.setBusy).configured = e.configured := rfl
@[simp] theorem Encoder.setBusy_fault (e : Encoder) : (e.setBusy).fault = e.fault := rfl
@[simp] theorem Encoder.setBusy_faultCode (e : Encoder) : (e.setBusy).faultCode = e.faultCode := rfl
@[simp] theorem Encoder.setBusy_sdoDir (e : Encoder) : (e.setBusy).sdoDir = e.sdoDir := rfl
@[simp] theorem Encoder.setBusy_sclkDir (e : Encoder) : (e.setBusy).sclkDir = e.sclkDir := rfl
@[simp] theorem Encoder.setBusy_csDir (e : Encoder) : (e.setBusy).csDir = e.csDir := rfl
@[simp] theorem Encoder.setBusy_resDir (e : Encoder) : (e.setBusy).resDir = e.resDir := rfl
@[simp] theorem Encoder.setBusy_csLevel (e : Encoder) : (e.setBusy).csLevel = e.csLevel := rfl
@[simp] theorem Encoder.setBusy_resLevel (e : Encoder) : (e.setBusy).resLevel = e.resLevel := rfl
@[simp] theorem Encoder.setBusy_reqValid (e : Encoder) : (e.setBusy).reqValid = e.reqValid := rfl
@[simp] theorem Encoder.setBusy_reqWord (e : Encoder) : (e.setBusy).reqWord = e.reqWord := rfl
@[simp] theorem Encoder.setBusy_script (e : Encoder) : (e.setBusy).script = e.script := rfl
@[simp] theorem Encoder.setBusy_history (e : Encoder) : (e.setBusy).history = e.history := rfl

/-! ### `finish` -/

@[simp] theorem Encoder.finish_cfg (e : Encoder) : (e.finish).cfg = e.cfg := rfl
@[simp] theorem Encoder.finish_op (e : Encoder) : (e.finish).op = e.op := rfl
@[simp] theorem Encoder.finish_payload (e : Encoder) : (e.finish).payload = e.payload := rfl
@[simp] theorem Encoder.finish_frame (e : Encoder) : (e.finish).frame = e.frame := rfl
@[simp] theorem Encoder.finish_phase (e : Encoder) : (e.finish).phase = .idle := rfl
@[simp] theorem Encoder.finish_sub (e : Encoder) : (e.finish).sub = e.sub := rfl
@[simp] theorem Encoder.finish_slot (e : Encoder) : (e.finish).slot = e.slot := rfl
@[simp] theorem Encoder.finish_seqPc (e : Encoder) : (e.finish).seqPc = e.seqPc := rfl
@[simp] theorem Encoder.finish_evIdx (e : Encoder) : (e.finish).evIdx = e.evIdx := rfl
@[simp] theorem Encoder.finish_busy (e : Encoder) : (e.finish).busy = false := rfl
@[simp] theorem Encoder.finish_configured (e : Encoder) : (e.finish).configured = e.configured := rfl
@[simp] theorem Encoder.finish_fault (e : Encoder) : (e.finish).fault = e.fault := rfl
@[simp] theorem Encoder.finish_faultCode (e : Encoder) : (e.finish).faultCode = e.faultCode := rfl
@[simp] theorem Encoder.finish_sdoDir (e : Encoder) : (e.finish).sdoDir = e.sdoDir := rfl
@[simp] theorem Encoder.finish_sclkDir (e : Encoder) : (e.finish).sclkDir = e.sclkDir := rfl
@[simp] theorem Encoder.finish_csDir (e : Encoder) : (e.finish).csDir = e.csDir := rfl
@[simp] theorem Encoder.finish_resDir (e : Encoder) : (e.finish).resDir = e.resDir := rfl
@[simp] theorem Encoder.finish_csLevel (e : Encoder) : (e.finish).csLevel = e.csLevel := rfl
@[simp] theorem Encoder.finish_resLevel (e : Encoder) : (e.finish).resLevel = e.resLevel := rfl
@[simp] theorem Encoder.finish_reqValid (e : Encoder) : (e.finish).reqValid = e.reqValid := rfl
@[simp] theorem Encoder.finish_reqWord (e : Encoder) : (e.finish).reqWord = e.reqWord := rfl
@[simp] theorem Encoder.finish_script (e : Encoder) : (e.finish).script = e.script := rfl
@[simp] theorem Encoder.finish_history (e : Encoder) : (e.finish).history = e.history := rfl

/-! ### `setConfigured` -/

@[simp] theorem Encoder.setConfigured_cfg (e : Encoder) : (e.setConfigured).cfg = e.cfg := rfl
@[simp] theorem Encoder.setConfigured_op (e : Encoder) : (e.setConfigured).op = e.op := rfl
@[simp] theorem Encoder.setConfigured_payload (e : Encoder) : (e.setConfigured).payload = e.payload := rfl
@[simp] theorem Encoder.setConfigured_frame (e : Encoder) : (e.setConfigured).frame = e.frame := rfl
@[simp] theorem Encoder.setConfigured_phase (e : Encoder) : (e.setConfigured).phase = e.phase := rfl
@[simp] theorem Encoder.setConfigured_sub (e : Encoder) : (e.setConfigured).sub = e.sub := rfl
@[simp] theorem Encoder.setConfigured_slot (e : Encoder) : (e.setConfigured).slot = e.slot := rfl
@[simp] theorem Encoder.setConfigured_seqPc (e : Encoder) : (e.setConfigured).seqPc = e.seqPc := rfl
@[simp] theorem Encoder.setConfigured_evIdx (e : Encoder) : (e.setConfigured).evIdx = e.evIdx := rfl
@[simp] theorem Encoder.setConfigured_busy (e : Encoder) : (e.setConfigured).busy = e.busy := rfl
@[simp] theorem Encoder.setConfigured_configured (e : Encoder) : (e.setConfigured).configured = true := rfl
@[simp] theorem Encoder.setConfigured_fault (e : Encoder) : (e.setConfigured).fault = e.fault := rfl
@[simp] theorem Encoder.setConfigured_faultCode (e : Encoder) : (e.setConfigured).faultCode = e.faultCode := rfl
@[simp] theorem Encoder.setConfigured_sdoDir (e : Encoder) : (e.setConfigured).sdoDir = e.sdoDir := rfl
@[simp] theorem Encoder.setConfigured_sclkDir (e : Encoder) : (e.setConfigured).sclkDir = e.sclkDir := rfl
@[simp] theorem Encoder.setConfigured_csDir (e : Encoder) : (e.setConfigured).csDir = e.csDir := rfl
@[simp] theorem Encoder.setConfigured_resDir (e : Encoder) : (e.setConfigured).resDir = e.resDir := rfl
@[simp] theorem Encoder.setConfigured_csLevel (e : Encoder) : (e.setConfigured).csLevel = e.csLevel := rfl
@[simp] theorem Encoder.setConfigured_resLevel (e : Encoder) : (e.setConfigured).resLevel = e.resLevel := rfl
@[simp] theorem Encoder.setConfigured_reqValid (e : Encoder) : (e.setConfigured).reqValid = e.reqValid := rfl
@[simp] theorem Encoder.setConfigured_reqWord (e : Encoder) : (e.setConfigured).reqWord = e.reqWord := rfl
@[simp] theorem Encoder.setConfigured_script (e : Encoder) : (e.setConfigured).script = e.script := rfl
@[simp] theorem Encoder.setConfigured_history (e : Encoder) : (e.setConfigured).history = e.history := rfl

/-! ### `raisePlatformIOFailure` -/

@[simp] theorem Encoder.raisePlatformIOFailure_cfg (e : Encoder) : (e.raisePlatformIOFailure).cfg = e.cfg := rfl
@[simp] theorem Encoder.raisePlatformIOFailure_op (e : Encoder) : (e.raisePlatformIOFailure).op = e.op := rfl
@[simp] theorem Encoder.raisePlatformIOFailure_payload (e : Encoder) : (e.raisePlatformIOFailure).payload = e.payload := rfl
@[simp] theorem Encoder.raisePlatformIOFailure_frame (e : Encoder) : (e.raisePlatformIOFailure).frame = e.frame := rfl
@[simp] theorem Encoder.raisePlatformIOFailure_phase (e : Encoder) : (e.raisePlatformIOFailure).phase = .fault := rfl
@[simp] theorem Encoder.raisePlatformIOFailure_sub (e : Encoder) : (e.raisePlatformIOFailure).sub = e.sub := rfl
@[simp] theorem Encoder.raisePlatformIOFailure_slot (e : Encoder) : (e.raisePlatformIOFailure).slot = e.slot := rfl
@[simp] theorem Encoder.raisePlatformIOFailure_seqPc (e : Encoder) : (e.raisePlatformIOFailure).seqPc = e.seqPc := rfl
@[simp] theorem Encoder.raisePlatformIOFailure_evIdx (e : Encoder) : (e.raisePlatformIOFailure).evIdx = e.evIdx := rfl
@[simp] theorem Encoder.raisePlatformIOFailure_busy (e : Encoder) : (e.raisePlatformIOFailure).busy = false := rfl
@[simp] theorem Encoder.raisePlatformIOFailure_configured (e : Encoder) : (e.raisePlatformIOFailure).configured = e.configured := rfl
@[simp] theorem Encoder.raisePlatformIOFailure_fault (e : Encoder) : (e.raisePlatformIOFailure).fault = true := rfl
@[simp] theorem Encoder.raisePlatformIOFailure_faultCode (e : Encoder) : (e.raisePlatformIOFailure).faultCode = platformIOFailureCode := rfl
@[simp] theorem Encoder.raisePlatformIOFailure_sdoDir (e : Encoder) : (e.raisePlatformIOFailure).sdoDir = e.sdoDir := rfl
@[simp] theorem Encoder.raisePlatformIOFailure_sclkDir (e : Encoder) : (e.raisePlatformIOFailure).sclkDir = e.sclkDir := rfl
@[simp] theorem Encoder.raisePlatformIOFailure_csDir (e : Encoder) : (e.raisePlatformIOFailure).csDir = e.csDir := rfl
@[simp] theorem Encoder.raisePlatformIOFailure_resDir (e : Encoder) : (e.raisePlatformIOFailure).resDir = e.resDir := rfl
@[simp] theorem Encoder.raisePlatformIOFailure_csLevel (e : Encoder) : (e.raisePlatformIOFailure).csLevel = e.csLevel := rfl
@[simp] theorem Encoder.raisePlatformIOFailure_resLevel (e : Encoder) : (e.raisePlatformIOFailure).resLevel = e.resLevel := rfl
@[simp] theorem Encoder.raisePlatformIOFailure_reqValid (e : Encoder) : (e.raisePlatformIOFailure).reqValid = e.reqValid := rfl
@[simp] theorem Encoder.raisePlatformIOFailure_reqWord (e : Encoder) : (e.raisePlatformIOFailure).reqWord = e.reqWord := rfl
@[simp] theorem Encoder.raisePlatformIOFailure_script (e : Encoder) : (e.raisePlatformIOFailure).script = e.script := rfl
@[simp] theorem Encoder.raisePlatformIOFailure_history (e : Encoder) : (e.raisePlatformIOFailure).history = e.history := rfl

/-! ### `record` -/

@[simp] theorem Encoder.record_cfg (e : Encoder) (ev : Event) : (e.record ev).cfg = e.cfg := rfl
@[simp] theorem Encoder.record_op (e : Encoder) (ev : Event) : (e.record ev).op = e.op := rfl
@[simp] theorem Encoder.record_payload (e : Encoder) (ev : Event) : (e.record ev).payload = e.payload := rfl
@[simp] theorem Encoder.record_frame (e : Encoder) (ev : Event) : (e.record ev).frame = e.frame := rfl
@[simp] theorem Encoder.record_phase (e : Encoder) (ev : Event) : (e.record ev).phase = e.phase := rfl
@[simp] theorem Encoder.record_sub (e : Encoder) (ev : Event) : (e.record ev).sub = e.sub := rfl
@[simp] theorem Encoder.record_slot (e : Encoder) (ev : Event) : (e.record ev).slot = e.slot := rfl
@[simp] theorem Encoder.record_seqPc (e : Encoder) (ev : Event) : (e.record ev).seqPc = e.seqPc := rfl
@[simp] theorem Encoder.record_evIdx (e : Encoder) (ev : Event) : (e.record ev).evIdx = e.evIdx + 1 := rfl
@[simp] theorem Encoder.record_busy (e : Encoder) (ev : Event) : (e.record ev).busy = e.busy := rfl
@[simp] theorem Encoder.record_configured (e : Encoder) (ev : Event) : (e.record ev).configured = e.configured := rfl
@[simp] theorem Encoder.record_fault (e : Encoder) (ev : Event) : (e.record ev).fault = e.fault := rfl
@[simp] theorem Encoder.record_faultCode (e : Encoder) (ev : Event) : (e.record ev).faultCode = e.faultCode := rfl
@[simp] theorem Encoder.record_sdoDir (e : Encoder) (ev : Event) : (e.record ev).sdoDir = e.sdoDir := rfl
@[simp] theorem Encoder.record_sclkDir (e : Encoder) (ev : Event) : (e.record ev).sclkDir = e.sclkDir := rfl
@[simp] theorem Encoder.record_csDir (e : Encoder) (ev : Event) : (e.record ev).csDir = e.csDir := rfl
@[simp] theorem Encoder.record_resDir (e : Encoder) (ev : Event) : (e.record ev).resDir = e.resDir := rfl
@[simp] theorem Encoder.record_csLevel (e : Encoder) (ev : Event) : (e.record ev).csLevel = e.csLevel := rfl
@[simp] theorem Encoder.record_resLevel (e : Encoder) (ev : Event) : (e.record ev).resLevel = e.resLevel := rfl
@[simp] theorem Encoder.record_reqValid (e : Encoder) (ev : Event) : (e.record ev).reqValid = e.reqValid := rfl
@[simp] theorem Encoder.record_reqWord (e : Encoder) (ev : Event) : (e.record ev).reqWord = e.reqWord := rfl
@[simp] theorem Encoder.record_script (e : Encoder) (ev : Event) : (e.record ev).script = e.script := rfl
@[simp] theorem Encoder.record_history (e : Encoder) (ev : Event) : (e.record ev).history = ev :: e.history := rfl

/-! ### `beginFrame` -/

@[simp] theorem Encoder.beginFrame_cfg (e : Encoder) (dc : Bool) (b : Byte) : (e.beginFrame dc b).cfg = e.cfg := rfl
@[simp] theorem Encoder.beginFrame_op (e : Encoder) (dc : Bool) (b : Byte) : (e.beginFrame dc b).op = e.op := rfl
@[simp] theorem Encoder.beginFrame_payload (e : Encoder) (dc : Bool) (b : Byte) : (e.beginFrame dc b).payload = b := rfl
@[simp] theorem Encoder.beginFrame_frame (e : Encoder) (dc : Bool) (b : Byte) : (e.beginFrame dc b).frame = frameWord dc b := rfl
@[simp] theorem Encoder.beginFrame_phase (e : Encoder) (dc : Bool) (b : Byte) : (e.beginFrame dc b).phase = frameStartPhase e.cfg := rfl
@[simp] theorem Encoder.beginFrame_sub (e : Encoder) (dc : Bool) (b : Byte) : (e.beginFrame dc b).sub = e.sub := rfl
@[simp] theorem Encoder.beginFrame_slot (e : Encoder) (dc : Bool) (b : Byte) : (e.beginFrame dc b).slot = 0#5 := rfl
@[simp] theorem Encoder.beginFrame_seqPc (e : Encoder) (dc : Bool) (b : Byte) : (e.beginFrame dc b).seqPc = e.seqPc := rfl
@[simp] theorem Encoder.beginFrame_evIdx (e : Encoder) (dc : Bool) (b : Byte) : (e.beginFrame dc b).evIdx = e.evIdx := rfl
@[simp] theorem Encoder.beginFrame_busy (e : Encoder) (dc : Bool) (b : Byte) : (e.beginFrame dc b).busy = e.busy := rfl
@[simp] theorem Encoder.beginFrame_configured (e : Encoder) (dc : Bool) (b : Byte) : (e.beginFrame dc b).configured = e.configured := rfl
@[simp] theorem Encoder.beginFrame_fault (e : Encoder) (dc : Bool) (b : Byte) : (e.beginFrame dc b).fault = e.fault := rfl
@[simp] theorem Encoder.beginFrame_faultCode (e : Encoder) (dc : Bool) (b : Byte) : (e.beginFrame dc b).faultCode = e.faultCode := rfl
@[simp] theorem Encoder.beginFrame_sdoDir (e : Encoder) (dc : Bool) (b : Byte) : (e.beginFrame dc b).sdoDir = e.sdoDir := rfl
@[simp] theorem Encoder.beginFrame_sclkDir (e : Encoder) (dc : Bool) (b : Byte) : (e.beginFrame dc b).sclkDir = e.sclkDir := rfl
@[simp] theorem Encoder.beginFrame_csDir (e : Encoder) (dc : Bool) (b : Byte) : (e.beginFrame dc b).csDir = e.csDir := rfl
@[simp] theorem Encoder.beginFrame_resDir (e : Encoder) (dc : Bool) (b : Byte) : (e.beginFrame dc b).resDir = e.resDir := rfl
@[simp] theorem Encoder.beginFrame_csLevel (e : Encoder) (dc : Bool) (b : Byte) : (e.beginFrame dc b).csLevel = e.csLevel := rfl
@[simp] theorem Encoder.beginFrame_resLevel (e : Encoder) (dc : Bool) (b : Byte) : (e.beginFrame dc b).resLevel = e.resLevel := rfl
@[simp] theorem Encoder.beginFrame_reqValid (e : Encoder) (dc : Bool) (b : Byte) : (e.beginFrame dc b).reqValid = e.reqValid := rfl
@[simp] theorem Encoder.beginFrame_reqWord (e : Encoder) (dc : Bool) (b : Byte) : (e.beginFrame dc b).reqWord = e.reqWord := rfl
@[simp] theorem Encoder.beginFrame_script (e : Encoder) (dc : Bool) (b : Byte) : (e.beginFrame dc b).script = e.script := rfl
@[simp] theorem Encoder.beginFrame_history (e : Encoder) (dc : Bool) (b : Byte) : (e.beginFrame dc b).history = e.history := rfl

/-! ### `beginPark` -/

@[simp] theorem Encoder.beginPark_cfg (e : Encoder) : (e.beginPark).cfg = e.cfg := rfl
@[simp] theorem Encoder.beginPark_op (e : Encoder) : (e.beginPark).op = e.op := rfl
@[simp] theorem Encoder.beginPark_payload (e : Encoder) : (e.beginPark).payload = e.payload := rfl
@[simp] theorem Encoder.beginPark_frame (e : Encoder) : (e.beginPark).frame = e.frame := rfl
@[simp] theorem Encoder.beginPark_phase (e : Encoder) : (e.beginPark).phase = .park := rfl
@[simp] theorem Encoder.beginPark_sub (e : Encoder) : (e.beginPark).sub = 0#3 := rfl
@[simp] theorem Encoder.beginPark_slot (e : Encoder) : (e.beginPark).slot = e.slot := rfl
@[simp] theorem Encoder.beginPark_seqPc (e : Encoder) : (e.beginPark).seqPc = e.seqPc := rfl
@[simp] theorem Encoder.beginPark_evIdx (e : Encoder) : (e.beginPark).evIdx = e.evIdx := rfl
@[simp] theorem Encoder.beginPark_busy (e : Encoder) : (e.beginPark).busy = e.busy := rfl
@[simp] theorem Encoder.beginPark_configured (e : Encoder) : (e.beginPark).configured = e.configured := rfl
@[simp] theorem Encoder.beginPark_fault (e : Encoder) : (e.beginPark).fault = e.fault := rfl
@[simp] theorem Encoder.beginPark_faultCode (e : Encoder) : (e.beginPark).faultCode = e.faultCode := rfl
@[simp] theorem Encoder.beginPark_sdoDir (e : Encoder) : (e.beginPark).sdoDir = e.sdoDir := rfl
@[simp] theorem Encoder.beginPark_sclkDir (e : Encoder) : (e.beginPark).sclkDir = e.sclkDir := rfl
@[simp] theorem Encoder.beginPark_csDir (e : Encoder) : (e.beginPark).csDir = e.csDir := rfl
@[simp] theorem Encoder.beginPark_resDir (e : Encoder) : (e.beginPark).resDir = e.resDir := rfl
@[simp] theorem Encoder.beginPark_csLevel (e : Encoder) : (e.beginPark).csLevel = e.csLevel := rfl
@[simp] theorem Encoder.beginPark_resLevel (e : Encoder) : (e.beginPark).resLevel = e.resLevel := rfl
@[simp] theorem Encoder.beginPark_reqValid (e : Encoder) : (e.beginPark).reqValid = e.reqValid := rfl
@[simp] theorem Encoder.beginPark_reqWord (e : Encoder) : (e.beginPark).reqWord = e.reqWord := rfl
@[simp] theorem Encoder.beginPark_script (e : Encoder) : (e.beginPark).script = e.script := rfl
@[simp] theorem Encoder.beginPark_history (e : Encoder) : (e.beginPark).history = e.history := rfl

/-! ### `goto` -/

@[simp] theorem Encoder.goto_cfg (e : Encoder) (p : Phase) : (e.goto p).cfg = e.cfg := rfl
@[simp] theorem Encoder.goto_op (e : Encoder) (p : Phase) : (e.goto p).op = e.op := rfl
@[simp] theorem Encoder.goto_payload (e : Encoder) (p : Phase) : (e.goto p).payload = e.payload := rfl
@[simp] theorem Encoder.goto_frame (e : Encoder) (p : Phase) : (e.goto p).frame = e.frame := rfl
@[simp] theorem Encoder.goto_phase (e : Encoder) (p : Phase) : (e.goto p).phase = p := rfl
@[simp] theorem Encoder.goto_sub (e : Encoder) (p : Phase) : (e.goto p).sub = e.sub := rfl
@[simp] theorem Encoder.goto_slot (e : Encoder) (p : Phase) : (e.goto p).slot = e.slot := rfl
@[simp] theorem Encoder.goto_seqPc (e : Encoder) (p : Phase) : (e.goto p).seqPc = e.seqPc := rfl
@[simp] theorem Encoder.goto_evIdx (e : Encoder) (p : Phase) : (e.goto p).evIdx = e.evIdx := rfl
@[simp] theorem Encoder.goto_busy (e : Encoder) (p : Phase) : (e.goto p).busy = e.busy := rfl
@[simp] theorem Encoder.goto_configured (e : Encoder) (p : Phase) : (e.goto p).configured = e.configured := rfl
@[simp] theorem Encoder.goto_fault (e : Encoder) (p : Phase) : (e.goto p).fault = e.fault := rfl
@[simp] theorem Encoder.goto_faultCode (e : Encoder) (p : Phase) : (e.goto p).faultCode = e.faultCode := rfl
@[simp] theorem Encoder.goto_sdoDir (e : Encoder) (p : Phase) : (e.goto p).sdoDir = e.sdoDir := rfl
@[simp] theorem Encoder.goto_sclkDir (e : Encoder) (p : Phase) : (e.goto p).sclkDir = e.sclkDir := rfl
@[simp] theorem Encoder.goto_csDir (e : Encoder) (p : Phase) : (e.goto p).csDir = e.csDir := rfl
@[simp] theorem Encoder.goto_resDir (e : Encoder) (p : Phase) : (e.goto p).resDir = e.resDir := rfl
@[simp] theorem Encoder.goto_csLevel (e : Encoder) (p : Phase) : (e.goto p).csLevel = e.csLevel := rfl
@[simp] theorem Encoder.goto_resLevel (e : Encoder) (p : Phase) : (e.goto p).resLevel = e.resLevel := rfl
@[simp] theorem Encoder.goto_reqValid (e : Encoder) (p : Phase) : (e.goto p).reqValid = e.reqValid := rfl
@[simp] theorem Encoder.goto_reqWord (e : Encoder) (p : Phase) : (e.goto p).reqWord = e.reqWord := rfl
@[simp] theorem Encoder.goto_script (e : Encoder) (p : Phase) : (e.goto p).script = e.script := rfl
@[simp] theorem Encoder.goto_history (e : Encoder) (p : Phase) : (e.goto p).history = e.history := rfl

/-! ### `nextSub` -/

@[simp] theorem Encoder.nextSub_cfg (e : Encoder) : (e.nextSub).cfg = e.cfg := rfl
@[simp] theorem Encoder.nextSub_op (e : Encoder) : (e.nextSub).op = e.op := rfl
@[simp] theorem Encoder.nextSub_payload (e : Encoder) : (e.nextSub).payload = e.payload := rfl
@[simp] theorem Encoder.nextSub_frame (e : Encoder) : (e.nextSub).frame = e.frame := rfl
@[simp] theorem Encoder.nextSub_phase (e : Encoder) : (e.nextSub).phase = e.phase := rfl
@[simp] theorem Encoder.nextSub_sub (e : Encoder) : (e.nextSub).sub = e.sub + 1#3 := rfl
@[simp] theorem Encoder.nextSub_slot (e : Encoder) : (e.nextSub).slot = e.slot := rfl
@[simp] theorem Encoder.nextSub_seqPc (e : Encoder) : (e.nextSub).seqPc = e.seqPc := rfl
@[simp] theorem Encoder.nextSub_evIdx (e : Encoder) : (e.nextSub).evIdx = e.evIdx := rfl
@[simp] theorem Encoder.nextSub_busy (e : Encoder) : (e.nextSub).busy = e.busy := rfl
@[simp] theorem Encoder.nextSub_configured (e : Encoder) : (e.nextSub).configured = e.configured := rfl
@[simp] theorem Encoder.nextSub_fault (e : Encoder) : (e.nextSub).fault = e.fault := rfl
@[simp] theorem Encoder.nextSub_faultCode (e : Encoder) : (e.nextSub).faultCode = e.faultCode := rfl
@[simp] theorem Encoder.nextSub_sdoDir (e : Encoder) : (e.nextSub).sdoDir = e.sdoDir := rfl
@[simp] theorem Encoder.nextSub_sclkDir (e : Encoder) : (e.nextSub).sclkDir = e.sclkDir := rfl
@[simp] theorem Encoder.nextSub_csDir (e : Encoder) : (e.nextSub).csDir = e.csDir := rfl
@[simp] theorem Encoder.nextSub_resDir (e : Encoder) : (e.nextSub).resDir = e.resDir := rfl
@[simp] theorem Encoder.nextSub_csLevel (e : Encoder) : (e.nextSub).csLevel = e.csLevel := rfl
@[simp] theorem Encoder.nextSub_resLevel (e : Encoder) : (e.nextSub).resLevel = e.resLevel := rfl
@[simp] theorem Encoder.nextSub_reqValid (e : Encoder) : (e.nextSub).reqValid = e.reqValid := rfl
@[simp] theorem Encoder.nextSub_reqWord (e : Encoder) : (e.nextSub).reqWord = e.reqWord := rfl
@[simp] theorem Encoder.nextSub_script (e : Encoder) : (e.nextSub).script = e.script := rfl
@[simp] theorem Encoder.nextSub_history (e : Encoder) : (e.nextSub).history = e.history := rfl

/-! ### `firstSlot` -/

@[simp] theorem Encoder.firstSlot_cfg (e : Encoder) : (e.firstSlot).cfg = e.cfg := rfl
@[simp] theorem Encoder.firstSlot_op (e : Encoder) : (e.firstSlot).op = e.op := rfl
@[simp] theorem Encoder.firstSlot_payload (e : Encoder) : (e.firstSlot).payload = e.payload := rfl
@[simp] theorem Encoder.firstSlot_frame (e : Encoder) : (e.firstSlot).frame = e.frame := rfl
@[simp] theorem Encoder.firstSlot_phase (e : Encoder) : (e.firstSlot).phase = .fData := rfl
@[simp] theorem Encoder.firstSlot_sub (e : Encoder) : (e.firstSlot).sub = e.sub := rfl
@[simp] theorem Encoder.firstSlot_slot (e : Encoder) : (e.firstSlot).slot = 0#5 := rfl
@[simp] theorem Encoder.firstSlot_seqPc (e : Encoder) : (e.firstSlot).seqPc = e.seqPc := rfl
@[simp] theorem Encoder.firstSlot_evIdx (e : Encoder) : (e.firstSlot).evIdx = e.evIdx := rfl
@[simp] theorem Encoder.firstSlot_busy (e : Encoder) : (e.firstSlot).busy = e.busy := rfl
@[simp] theorem Encoder.firstSlot_configured (e : Encoder) : (e.firstSlot).configured = e.configured := rfl
@[simp] theorem Encoder.firstSlot_fault (e : Encoder) : (e.firstSlot).fault = e.fault := rfl
@[simp] theorem Encoder.firstSlot_faultCode (e : Encoder) : (e.firstSlot).faultCode = e.faultCode := rfl
@[simp] theorem Encoder.firstSlot_sdoDir (e : Encoder) : (e.firstSlot).sdoDir = e.sdoDir := rfl
@[simp] theorem Encoder.firstSlot_sclkDir (e : Encoder) : (e.firstSlot).sclkDir = e.sclkDir := rfl
@[simp] theorem Encoder.firstSlot_csDir (e : Encoder) : (e.firstSlot).csDir = e.csDir := rfl
@[simp] theorem Encoder.firstSlot_resDir (e : Encoder) : (e.firstSlot).resDir = e.resDir := rfl
@[simp] theorem Encoder.firstSlot_csLevel (e : Encoder) : (e.firstSlot).csLevel = e.csLevel := rfl
@[simp] theorem Encoder.firstSlot_resLevel (e : Encoder) : (e.firstSlot).resLevel = e.resLevel := rfl
@[simp] theorem Encoder.firstSlot_reqValid (e : Encoder) : (e.firstSlot).reqValid = e.reqValid := rfl
@[simp] theorem Encoder.firstSlot_reqWord (e : Encoder) : (e.firstSlot).reqWord = e.reqWord := rfl
@[simp] theorem Encoder.firstSlot_script (e : Encoder) : (e.firstSlot).script = e.script := rfl
@[simp] theorem Encoder.firstSlot_history (e : Encoder) : (e.firstSlot).history = e.history := rfl

/-! ### `nextSlot` -/

@[simp] theorem Encoder.nextSlot_cfg (e : Encoder) : (e.nextSlot).cfg = e.cfg := rfl
@[simp] theorem Encoder.nextSlot_op (e : Encoder) : (e.nextSlot).op = e.op := rfl
@[simp] theorem Encoder.nextSlot_payload (e : Encoder) : (e.nextSlot).payload = e.payload := rfl
@[simp] theorem Encoder.nextSlot_frame (e : Encoder) : (e.nextSlot).frame = e.frame := rfl
@[simp] theorem Encoder.nextSlot_phase (e : Encoder) : (e.nextSlot).phase = .fData := rfl
@[simp] theorem Encoder.nextSlot_sub (e : Encoder) : (e.nextSlot).sub = e.sub := rfl
@[simp] theorem Encoder.nextSlot_slot (e : Encoder) : (e.nextSlot).slot = e.slot + 1#5 := rfl
@[simp] theorem Encoder.nextSlot_seqPc (e : Encoder) : (e.nextSlot).seqPc = e.seqPc := rfl
@[simp] theorem Encoder.nextSlot_evIdx (e : Encoder) : (e.nextSlot).evIdx = e.evIdx := rfl
@[simp] theorem Encoder.nextSlot_busy (e : Encoder) : (e.nextSlot).busy = e.busy := rfl
@[simp] theorem Encoder.nextSlot_configured (e : Encoder) : (e.nextSlot).configured = e.configured := rfl
@[simp] theorem Encoder.nextSlot_fault (e : Encoder) : (e.nextSlot).fault = e.fault := rfl
@[simp] theorem Encoder.nextSlot_faultCode (e : Encoder) : (e.nextSlot).faultCode = e.faultCode := rfl
@[simp] theorem Encoder.nextSlot_sdoDir (e : Encoder) : (e.nextSlot).sdoDir = e.sdoDir := rfl
@[simp] theorem Encoder.nextSlot_sclkDir (e : Encoder) : (e.nextSlot).sclkDir = e.sclkDir := rfl
@[simp] theorem Encoder.nextSlot_csDir (e : Encoder) : (e.nextSlot).csDir = e.csDir := rfl
@[simp] theorem Encoder.nextSlot_resDir (e : Encoder) : (e.nextSlot).resDir = e.resDir := rfl
@[simp] theorem Encoder.nextSlot_csLevel (e : Encoder) : (e.nextSlot).csLevel = e.csLevel := rfl
@[simp] theorem Encoder.nextSlot_resLevel (e : Encoder) : (e.nextSlot).resLevel = e.resLevel := rfl
@[simp] theorem Encoder.nextSlot_reqValid (e : Encoder) : (e.nextSlot).reqValid = e.reqValid := rfl
@[simp] theorem Encoder.nextSlot_reqWord (e : Encoder) : (e.nextSlot).reqWord = e.reqWord := rfl
@[simp] theorem Encoder.nextSlot_script (e : Encoder) : (e.nextSlot).script = e.script := rfl
@[simp] theorem Encoder.nextSlot_history (e : Encoder) : (e.nextSlot).history = e.history := rfl

/-! ### `setSeqPc` -/

@[simp] theorem Encoder.setSeqPc_cfg (e : Encoder) (k : Nat) : (e.setSeqPc k).cfg = e.cfg := rfl
@[simp] theorem Encoder.setSeqPc_op (e : Encoder) (k : Nat) : (e.setSeqPc k).op = e.op := rfl
@[simp] theorem Encoder.setSeqPc_payload (e : Encoder) (k : Nat) : (e.setSeqPc k).payload = e.payload := rfl
@[simp] theorem Encoder.setSeqPc_frame (e : Encoder) (k : Nat) : (e.setSeqPc k).frame = e.frame := rfl
@[simp] theorem Encoder.setSeqPc_phase (e : Encoder) (k : Nat) : (e.setSeqPc k).phase = e.phase := rfl
@[simp] theorem Encoder.setSeqPc_sub (e : Encoder) (k : Nat) : (e.setSeqPc k).sub = e.sub := rfl
@[simp] theorem Encoder.setSeqPc_slot (e : Encoder) (k : Nat) : (e.setSeqPc k).slot = e.slot := rfl
@[simp] theorem Encoder.setSeqPc_seqPc (e : Encoder) (k : Nat) : (e.setSeqPc k).seqPc = k := rfl
@[simp] theorem Encoder.setSeqPc_evIdx (e : Encoder) (k : Nat) : (e.setSeqPc k).evIdx = e.evIdx := rfl
@[simp] theorem Encoder.setSeqPc_busy (e : Encoder) (k : Nat) : (e.setSeqPc k).busy = e.busy := rfl
@[simp] theorem Encoder.setSeqPc_configured (e : Encoder) (k : Nat) : (e.setSeqPc k).configured = e.configured := rfl
@[simp] theorem Encoder.setSeqPc_fault (e : Encoder) (k : Nat) : (e.setSeqPc k).fault = e.fault := rfl
@[simp] theorem Encoder.setSeqPc_faultCode (e : Encoder) (k : Nat) : (e.setSeqPc k).faultCode = e.faultCode := rfl
@[simp] theorem Encoder.setSeqPc_sdoDir (e : Encoder) (k : Nat) : (e.setSeqPc k).sdoDir = e.sdoDir := rfl
@[simp] theorem Encoder.setSeqPc_sclkDir (e : Encoder) (k : Nat) : (e.setSeqPc k).sclkDir = e.sclkDir := rfl
@[simp] theorem Encoder.setSeqPc_csDir (e : Encoder) (k : Nat) : (e.setSeqPc k).csDir = e.csDir := rfl
@[simp] theorem Encoder.setSeqPc_resDir (e : Encoder) (k : Nat) : (e.setSeqPc k).resDir = e.resDir := rfl
@[simp] theorem Encoder.setSeqPc_csLevel (e : Encoder) (k : Nat) : (e.setSeqPc k).csLevel = e.csLevel := rfl
@[simp] theorem Encoder.setSeqPc_resLevel (e : Encoder) (k : Nat) : (e.setSeqPc k).resLevel = e.resLevel := rfl
@[simp] theorem Encoder.setSeqPc_reqValid (e : Encoder) (k : Nat) : (e.setSeqPc k).reqValid = e.reqValid := rfl
@[simp] theorem Encoder.setSeqPc_reqWord (e : Encoder) (k : Nat) : (e.setSeqPc k).reqWord = e.reqWord := rfl
@[simp] theorem Encoder.setSeqPc_script (e : Encoder) (k : Nat) : (e.setSeqPc k).script = e.script := rfl
@[simp] theorem Encoder.setSeqPc_history (e : Encoder) (k : Nat) : (e.setSeqPc k).history = e.history := rfl

/-! ### `setOutput` -/

@[simp] theorem Encoder.setOutput_cfg (e : Encoder) (l : Line) : (e.setOutput l).cfg = e.cfg := by cases l <;> rfl
@[simp] theorem Encoder.setOutput_op (e : Encoder) (l : Line) : (e.setOutput l).op = e.op := by cases l <;> rfl
@[simp] theorem Encoder.setOutput_payload (e : Encoder) (l : Line) : (e.setOutput l).payload = e.payload := by cases l <;> rfl
@[simp] theorem Encoder.setOutput_frame (e : Encoder) (l : Line) : (e.setOutput l).frame = e.frame := by cases l <;> rfl
@[simp] theorem Encoder.setOutput_phase (e : Encoder) (l : Line) : (e.setOutput l).phase = e.phase := by cases l <;> rfl
@[simp] theorem Encoder.setOutput_sub (e : Encoder) (l : Line) : (e.setOutput l).sub = e.sub := by cases l <;> rfl
@[simp] theorem Encoder.setOutput_slot (e : Encoder) (l : Line) : (e.setOutput l).slot = e.slot := by cases l <;> rfl
@[simp] theorem Encoder.setOutput_seqPc (e : Encoder) (l : Line) : (e.setOutput l).seqPc = e.seqPc := by cases l <;> rfl
@[simp] theorem Encoder.setOutput_evIdx (e : Encoder) (l : Line) : (e.setOutput l).evIdx = e.evIdx := by cases l <;> rfl
@[simp] theorem Encoder.setOutput_busy (e : Encoder) (l : Line) : (e.setOutput l).busy = e.busy := by cases l <;> rfl
@[simp] theorem Encoder.setOutput_configured (e : Encoder) (l : Line) : (e.setOutput l).configured = e.configured := by cases l <;> rfl
@[simp] theorem Encoder.setOutput_fault (e : Encoder) (l : Line) : (e.setOutput l).fault = e.fault := by cases l <;> rfl
@[simp] theorem Encoder.setOutput_faultCode (e : Encoder) (l : Line) : (e.setOutput l).faultCode = e.faultCode := by cases l <;> rfl
@[simp] theorem Encoder.setOutput_csLevel (e : Encoder) (l : Line) : (e.setOutput l).csLevel = e.csLevel := by cases l <;> rfl
@[simp] theorem Encoder.setOutput_resLevel (e : Encoder) (l : Line) : (e.setOutput l).resLevel = e.resLevel := by cases l <;> rfl
@[simp] theorem Encoder.setOutput_reqValid (e : Encoder) (l : Line) : (e.setOutput l).reqValid = e.reqValid := by cases l <;> rfl
@[simp] theorem Encoder.setOutput_reqWord (e : Encoder) (l : Line) : (e.setOutput l).reqWord = e.reqWord := by cases l <;> rfl
@[simp] theorem Encoder.setOutput_script (e : Encoder) (l : Line) : (e.setOutput l).script = e.script := by cases l <;> rfl
@[simp] theorem Encoder.setOutput_history (e : Encoder) (l : Line) : (e.setOutput l).history = e.history := by cases l <;> rfl

/-! ### `portNext` -/

@[simp] theorem Encoder.portNext_cfg (e : Encoder) : (e.portNext).cfg = e.cfg := by unfold Encoder.portNext; split <;> rfl
@[simp] theorem Encoder.portNext_op (e : Encoder) : (e.portNext).op = e.op := by unfold Encoder.portNext; split <;> rfl
@[simp] theorem Encoder.portNext_payload (e : Encoder) : (e.portNext).payload = e.payload := by unfold Encoder.portNext; split <;> rfl
@[simp] theorem Encoder.portNext_frame (e : Encoder) : (e.portNext).frame = e.frame := by unfold Encoder.portNext; split <;> rfl
@[simp] theorem Encoder.portNext_phase (e : Encoder) : (e.portNext).phase = e.phase := by unfold Encoder.portNext; split <;> rfl
@[simp] theorem Encoder.portNext_sub (e : Encoder) : (e.portNext).sub = e.sub := by unfold Encoder.portNext; split <;> rfl
@[simp] theorem Encoder.portNext_slot (e : Encoder) : (e.portNext).slot = e.slot := by unfold Encoder.portNext; split <;> rfl
@[simp] theorem Encoder.portNext_seqPc (e : Encoder) : (e.portNext).seqPc = e.seqPc := by unfold Encoder.portNext; split <;> rfl
@[simp] theorem Encoder.portNext_evIdx (e : Encoder) : (e.portNext).evIdx = e.evIdx := by unfold Encoder.portNext; split <;> rfl
@[simp] theorem Encoder.portNext_busy (e : Encoder) : (e.portNext).busy = e.busy := by unfold Encoder.portNext; split <;> rfl
@[simp] theorem Encoder.portNext_configured (e : Encoder) : (e.portNext).configured = e.configured := by unfold Encoder.portNext; split <;> rfl
@[simp] theorem Encoder.portNext_fault (e : Encoder) : (e.portNext).fault = e.fault := by unfold Encoder.portNext; split <;> rfl
@[simp] theorem Encoder.portNext_faultCode (e : Encoder) : (e.portNext).faultCode = e.faultCode := by unfold Encoder.portNext; split <;> rfl
@[simp] theorem Encoder.portNext_sdoDir (e : Encoder) : (e.portNext).sdoDir = e.sdoDir := by unfold Encoder.portNext; split <;> rfl
@[simp] theorem Encoder.portNext_sclkDir (e : Encoder) : (e.portNext).sclkDir = e.sclkDir := by unfold Encoder.portNext; split <;> rfl
@[simp] theorem Encoder.portNext_csDir (e : Encoder) : (e.portNext).csDir = e.csDir := by unfold Encoder.portNext; split <;> rfl
@[simp] theorem Encoder.portNext_resDir (e : Encoder) : (e.portNext).resDir = e.resDir := by unfold Encoder.portNext; split <;> rfl
@[simp] theorem Encoder.portNext_csLevel (e : Encoder) : (e.portNext).csLevel = e.csLevel := by unfold Encoder.portNext; split <;> rfl
@[simp] theorem Encoder.portNext_resLevel (e : Encoder) : (e.portNext).resLevel = e.resLevel := by unfold Encoder.portNext; split <;> rfl
@[simp] theorem Encoder.portNext_history (e : Encoder) : (e.portNext).history = e.history := by unfold Encoder.portNext; split <;> rfl

/-- `dir[m] <- output` changes `dir[m]` and no other direction. -/
@[simp] theorem Encoder.setOutput_dir (e : Encoder) (m l : Line) :
    (e.setOutput m).dir l = if m = l then .output else e.dir l := by
  cases m <;> cases l <;> rfl

/-- The host's turn is at the port alone: the trace and every register stay. -/
theorem Encoder.portNext_eq (e : Encoder) :
    e.portNext = { e with reqValid := e.portNext.reqValid, reqWord := e.portNext.reqWord, script := e.portNext.script } := by
  unfold Encoder.portNext; split <;> rfl

theorem Encoder.hostTurn_eq (e : Encoder) :
    e.hostTurn = { e with reqValid := e.hostTurn.reqValid, reqWord := e.hostTurn.reqWord, script := e.hostTurn.script } := by
  unfold Encoder.hostTurn
  split
  · rw [Encoder.portNext_eq]
  · exact e.portNext_eq

/-! ### The trace -/

@[simp] theorem Encoder.record_trace (e : Encoder) (ev : Event) : (e.record ev).trace = e.trace ++ [ev] := by
  simp [Encoder.trace]

/-! ### Levels -/

/-- `level[m] <- v` changes `level[m]` and no other level. -/
@[simp] theorem State.setLevel_level (s : State) (m l : Line) (v : Bool) :
    (s.setLevel m v).level l = if m = l then some v else s.level l := by
  cases m <;> cases l <;> rfl

@[simp] theorem State.setLevel_peers (s : State) (l : Line) (v : Bool) : (s.setLevel l v).peers = s.peers := by cases l <;> rfl
@[simp] theorem State.setLevel_answers (s : State) (l : Line) (v : Bool) : (s.setLevel l v).answers = s.answers := by cases l <;> rfl
@[simp] theorem State.setLevel_outside (s : State) (l : Line) (v : Bool) : (s.setLevel l v).outside = s.outside := by cases l <;> rfl
@[simp] theorem State.setLevel_enc_cfg (s : State) (l : Line) (v : Bool) : (s.setLevel l v).enc.cfg = s.enc.cfg := by cases l <;> rfl
@[simp] theorem State.setLevel_enc_op (s : State) (l : Line) (v : Bool) : (s.setLevel l v).enc.op = s.enc.op := by cases l <;> rfl
@[simp] theorem State.setLevel_enc_payload (s : State) (l : Line) (v : Bool) : (s.setLevel l v).enc.payload = s.enc.payload := by cases l <;> rfl
@[simp] theorem State.setLevel_enc_frame (s : State) (l : Line) (v : Bool) : (s.setLevel l v).enc.frame = s.enc.frame := by cases l <;> rfl
@[simp] theorem State.setLevel_enc_phase (s : State) (l : Line) (v : Bool) : (s.setLevel l v).enc.phase = s.enc.phase := by cases l <;> rfl
@[simp] theorem State.setLevel_enc_sub (s : State) (l : Line) (v : Bool) : (s.setLevel l v).enc.sub = s.enc.sub := by cases l <;> rfl
@[simp] theorem State.setLevel_enc_slot (s : State) (l : Line) (v : Bool) : (s.setLevel l v).enc.slot = s.enc.slot := by cases l <;> rfl
@[simp] theorem State.setLevel_enc_seqPc (s : State) (l : Line) (v : Bool) : (s.setLevel l v).enc.seqPc = s.enc.seqPc := by cases l <;> rfl
@[simp] theorem State.setLevel_enc_evIdx (s : State) (l : Line) (v : Bool) : (s.setLevel l v).enc.evIdx = s.enc.evIdx := by cases l <;> rfl
@[simp] theorem State.setLevel_enc_busy (s : State) (l : Line) (v : Bool) : (s.setLevel l v).enc.busy = s.enc.busy := by cases l <;> rfl
@[simp] theorem State.setLevel_enc_configured (s : State) (l : Line) (v : Bool) : (s.setLevel l v).enc.configured = s.enc.configured := by cases l <;> rfl
@[simp] theorem State.setLevel_enc_fault (s : State) (l : Line) (v : Bool) : (s.setLevel l v).enc.fault = s.enc.fault := by cases l <;> rfl
@[simp] theorem State.setLevel_enc_faultCode (s : State) (l : Line) (v : Bool) : (s.setLevel l v).enc.faultCode = s.enc.faultCode := by cases l <;> rfl
@[simp] theorem State.setLevel_enc_sdoDir (s : State) (l : Line) (v : Bool) : (s.setLevel l v).enc.sdoDir = s.enc.sdoDir := by cases l <;> rfl
@[simp] theorem State.setLevel_enc_sclkDir (s : State) (l : Line) (v : Bool) : (s.setLevel l v).enc.sclkDir = s.enc.sclkDir := by cases l <;> rfl
@[simp] theorem State.setLevel_enc_csDir (s : State) (l : Line) (v : Bool) : (s.setLevel l v).enc.csDir = s.enc.csDir := by cases l <;> rfl
@[simp] theorem State.setLevel_enc_resDir (s : State) (l : Line) (v : Bool) : (s.setLevel l v).enc.resDir = s.enc.resDir := by cases l <;> rfl
@[simp] theorem State.setLevel_enc_reqValid (s : State) (l : Line) (v : Bool) : (s.setLevel l v).enc.reqValid = s.enc.reqValid := by cases l <;> rfl
@[simp] theorem State.setLevel_enc_reqWord (s : State) (l : Line) (v : Bool) : (s.setLevel l v).enc.reqWord = s.enc.reqWord := by cases l <;> rfl
@[simp] theorem State.setLevel_enc_script (s : State) (l : Line) (v : Bool) : (s.setLevel l v).enc.script = s.enc.script := by cases l <;> rfl
@[simp] theorem State.setLevel_enc_history (s : State) (l : Line) (v : Bool) : (s.setLevel l v).enc.history = s.enc.history := by cases l <;> rfl

/-! ### The environment's answer -/

@[simp] theorem State.spendAnswer_enc (s : State) : s.spendAnswer.enc = s.enc := by unfold State.spendAnswer; split <;> rfl
@[simp] theorem State.spendAnswer_peers (s : State) : s.spendAnswer.peers = s.peers := by unfold State.spendAnswer; split <;> rfl
@[simp] theorem State.spendAnswer_sdo (s : State) : s.spendAnswer.sdo = s.sdo := by unfold State.spendAnswer; split <;> rfl
@[simp] theorem State.spendAnswer_sclk (s : State) : s.spendAnswer.sclk = s.sclk := by unfold State.spendAnswer; split <;> rfl
@[simp] theorem State.spendAnswer_outside (s : State) : s.spendAnswer.outside = s.outside := by unfold State.spendAnswer; split <;> rfl
@[simp] theorem State.spendAnswer_answers (s : State) :
    s.spendAnswer.answers = if s.enc.cfg.ioFallible then s.answers.tail else s.answers := by
  unfold State.spendAnswer; split <;> rfl

/-! ### The effect of an event -/

@[simp] theorem State.applyEvent_peers (s : State) (ev : Event) : (s.applyEvent ev).peers = s.peers := by cases ev <;> simp [State.applyEvent]
@[simp] theorem State.applyEvent_answers (s : State) (ev : Event) : (s.applyEvent ev).answers = s.answers := by cases ev <;> simp [State.applyEvent]
@[simp] theorem State.applyEvent_outside (s : State) (ev : Event) : (s.applyEvent ev).outside = s.outside := by cases ev <;> simp [State.applyEvent]
@[simp] theorem State.applyEvent_enc_cfg (s : State) (ev : Event) : (s.applyEvent ev).enc.cfg = s.enc.cfg := by cases ev <;> simp [State.applyEvent]
@[simp] theorem State.applyEvent_enc_op (s : State) (ev : Event) : (s.applyEvent ev).enc.op = s.enc.op := by cases ev <;> simp [State.applyEvent]
@[simp] theorem State.applyEvent_enc_payload (s : State) (ev : Event) : (s.applyEvent ev).enc.payload = s.enc.payload := by cases ev <;> simp [State.applyEvent]
@[simp] theorem State.applyEvent_enc_frame (s : State) (ev : Event) : (s.applyEvent ev).enc.frame = s.enc.frame := by cases ev <;> simp [State.applyEvent]
@[simp] theorem State.applyEvent_enc_phase (s : State) (ev : Event) : (s.applyEvent ev).enc.phase = s.enc.phase := by cases ev <;> simp [State.applyEvent]
@[simp] theorem State.applyEvent_enc_sub (s : State) (ev : Event) : (s.applyEvent ev).enc.sub = s.enc.sub := by cases ev <;> simp [State.applyEvent]
@[simp] theorem State.applyEvent_enc_slot (s : State) (ev : Event) : (s.applyEvent ev).enc.slot = s.enc.slot := by cases ev <;> simp [State.applyEvent]
@[simp] theorem State.applyEvent_enc_seqPc (s : State) (ev : Event) : (s.applyEvent ev).enc.seqPc = s.enc.seqPc := by cases ev <;> simp [State.applyEvent]
@[simp] theorem State.applyEvent_enc_evIdx (s : State) (ev : Event) : (s.applyEvent ev).enc.evIdx = s.enc.evIdx := by cases ev <;> simp [State.applyEvent]
@[simp] theorem State.applyEvent_enc_busy (s : State) (ev : Event) : (s.applyEvent ev).enc.busy = s.enc.busy := by cases ev <;> simp [State.applyEvent]
@[simp] theorem State.applyEvent_enc_configured (s : State) (ev : Event) : (s.applyEvent ev).enc.configured = s.enc.configured := by cases ev <;> simp [State.applyEvent]
@[simp] theorem State.applyEvent_enc_fault (s : State) (ev : Event) : (s.applyEvent ev).enc.fault = s.enc.fault := by cases ev <;> simp [State.applyEvent]
@[simp] theorem State.applyEvent_enc_faultCode (s : State) (ev : Event) : (s.applyEvent ev).enc.faultCode = s.enc.faultCode := by cases ev <;> simp [State.applyEvent]
@[simp] theorem State.applyEvent_enc_reqValid (s : State) (ev : Event) : (s.applyEvent ev).enc.reqValid = s.enc.reqValid := by cases ev <;> simp [State.applyEvent]
@[simp] theorem State.applyEvent_enc_reqWord (s : State) (ev : Event) : (s.applyEvent ev).enc.reqWord = s.enc.reqWord := by cases ev <;> simp [State.applyEvent]
@[simp] theorem State.applyEvent_enc_script (s : State) (ev : Event) : (s.applyEvent ev).enc.script = s.enc.script := by cases ev <;> simp [State.applyEvent]
@[simp] theorem State.applyEvent_enc_history (s : State) (ev : Event) : (s.applyEvent ev).enc.history = s.enc.history := by cases ev <;> simp [State.applyEvent]

/-- The levels after an event: `Set` changes its line's, nothing else changes any (20_memory.md R61 to R63). -/
theorem State.applyEvent_level (s : State) (ev : Event) (l : Line) :
    (s.applyEvent ev).level l = match ev with
      | .set m v => if m = l then some v else s.level l
      | .dir _ | .waitUs _ | .waitMs _ => s.level l := by
  cases ev with
  | set m v => simp [State.applyEvent]
  | dir m => cases m <;> cases l <;> rfl
  | waitUs n => rfl
  | waitMs n => rfl

/-- The directions after an event: `Dir` makes its line an output, nothing else changes any (20_memory.md R61 to R63). -/
theorem State.applyEvent_dir (s : State) (ev : Event) (l : Line) :
    (s.applyEvent ev).enc.dir l = match ev with
      | .dir m => if m = l then .output else s.enc.dir l
      | .set _ _ | .waitUs _ | .waitMs _ => s.enc.dir l := by
  cases ev with
  | set m v => cases m <;> cases l <;> rfl
  | dir m => simp [State.applyEvent]
  | waitUs n => rfl
  | waitMs n => rfl

end Sys2Proof.Machine
end

