-- ==== Sys2Proof/Laws/Advance.lean ====
section
/-! SUPPORT. What moving the sequencer's position leaves unchanged: the configuration, the operation, the fault,
    the lines, the
port and the trace. `nextEntry`, `frameDone` and `advance` touch only `payload`, `frame`, `phase`, `sub`, `slot`,
`seqPc`, `busy` and, at the end of LINK_SETUP, `configured`. -/

namespace Sys2Proof.Machine

/-- Everything a change of position leaves unchanged. -/
structure Encoder.SameButPosition (a b : Encoder) : Prop where
  cfg : b.cfg = a.cfg
  op : b.op = a.op
  evIdx : b.evIdx = a.evIdx
  fault : b.fault = a.fault
  faultCode : b.faultCode = a.faultCode
  sdoDir : b.sdoDir = a.sdoDir
  sclkDir : b.sclkDir = a.sclkDir
  csDir : b.csDir = a.csDir
  resDir : b.resDir = a.resDir
  csLevel : b.csLevel = a.csLevel
  resLevel : b.resLevel = a.resLevel
  reqValid : b.reqValid = a.reqValid
  reqWord : b.reqWord = a.reqWord
  script : b.script = a.script
  history : b.history = a.history

theorem Encoder.SameButPosition.dir {a b : Encoder} (h : a.SameButPosition b) (l : Line) : b.dir l = a.dir l := by
  cases l <;> simp [Encoder.dir, h.sdoDir, h.sclkDir, h.csDir, h.resDir]

theorem Encoder.SameButPosition.trace {a b : Encoder} (h : a.SameButPosition b) : b.trace = a.trace := by
  simp [Encoder.trace, h.history]

theorem Encoder.nextEntry_same (e : Encoder) : e.SameButPosition e.nextEntry := by
  unfold Encoder.nextEntry
  split
  · constructor <;> simp
  · split <;> constructor <;> simp

theorem Encoder.nextEntry_configured (e : Encoder) : e.nextEntry.configured = e.configured := by
  unfold Encoder.nextEntry
  split
  · simp
  · split <;> simp

theorem Encoder.frameDone_same (e : Encoder) : e.SameButPosition e.frameDone := by
  unfold Encoder.frameDone
  split
  case h_1 | h_2 => constructor <;> simp
  all_goals
    split
    · have h := (e.setSeqPc (e.seqPc + 1)).nextEntry_same
      exact ⟨h.1, h.2, h.3, h.4, h.5, h.6, h.7, h.8, h.9, h.10, h.11, h.12, h.13, h.14, h.15⟩
    · constructor <;> simp

theorem Encoder.frameDone_configured (e : Encoder) : e.frameDone.configured = e.configured := by
  unfold Encoder.frameDone
  split
  case h_1 | h_2 => simp
  all_goals
    split
    · exact Encoder.nextEntry_configured _
    · simp

/-- Moving on changes the position only (10_state.md R26). -/
theorem Encoder.advance_same (e : Encoder) : e.SameButPosition e.advance := by
  unfold Encoder.advance
  split
  case h_2 =>
    split
    · constructor <;> simp
    · have h := (e.setConfigured.setSeqPc 0).nextEntry_same
      exact ⟨h.1, h.2, h.3, h.4, h.5, h.6, h.7, h.8, h.9, h.10, h.11, h.12, h.13, h.14, h.15⟩
  case h_3 => exact e.nextEntry_same
  case h_9 =>
    split
    · constructor <;> simp
    · split
      · constructor <;> simp
      · exact e.frameDone_same
  case h_10 => exact e.frameDone_same
  case h_11 => split <;> constructor <;> simp
  all_goals constructor <;> simp

/-- `configured` is set by the end of LINK_SETUP and by nothing else (10_state.md R28). -/
theorem Encoder.advance_configured (e : Encoder) :
    e.advance.configured = (e.configured ||
      (decide (e.phase = .setup) && decide ((linkSetupEvents e.cfg).length ≤ e.sub.toNat + 1))) := by
  unfold Encoder.advance
  split
  case h_2 h =>
    split
    · simp [h]; omega
    · rw [Encoder.nextEntry_configured]; simp [h]; omega
  case h_3 h => rw [Encoder.nextEntry_configured]; simp [h]
  case h_9 h =>
    split
    · simp [h]
    · split
      · simp [h]
      · rw [Encoder.frameDone_configured]; simp [h]
  case h_10 h => rw [Encoder.frameDone_configured]; simp [h]
  case h_11 h => split <;> simp [h]
  all_goals simp_all

end Sys2Proof.Machine
end

