-- ==== Sys2Proof/Laws/Ops.lean ====
section
/-! SUPPORT. Everything each shared operation can do: when it answers a next state, which one; when it stops, why. -/

namespace Sys2Proof.Machine

/-- The state after the current position's event took effect (spec/20_memory.md R61 to R63, 10_state.md R25). -/
def State.afterEvent (s : State) (ev : Event) : State :=
  { s.spendAnswer.applyEvent ev with enc := ((s.spendAnswer.applyEvent ev).enc.record ev).advance }

/-- The state after the current position's event failed (spec/60_exceptions.md R232). -/
def State.afterFailure (s : State) : State :=
  { s.spendAnswer with enc := s.enc.raisePlatformIOFailure }

theorem State.emitNext_success {s : State} {ev : Event} (hp : s.peers.any Encoder.midFrame = false)
    (he : s.enc.nextEvent = some ev) (ha : s.answer = true) : s.emitNext = .next (s.afterEvent ev) := by
  simp [State.emitNext, hp, he, ha, State.afterEvent]

theorem State.emitNext_failure {s : State} {ev : Event} (hp : s.peers.any Encoder.midFrame = false)
    (he : s.enc.nextEvent = some ev) (ha : s.answer = false) : s.emitNext = .next s.afterFailure := by
  simp [State.emitNext, hp, he, ha, State.afterFailure]

/-- Emitting answers a next state only by the event or by its failure, and only while no other instance is inside a frame. -/
theorem State.emitNext_next {s t : State} (h : s.emitNext = .next t) :
    s.peers.any Encoder.midFrame = false ∧ ∃ ev, s.enc.nextEvent = some ev ∧
      ((s.answer = true ∧ t = s.afterEvent ev) ∨ (s.answer = false ∧ t = s.afterFailure)) := by
  have hp : s.peers.any Encoder.midFrame = false := by
    cases hq : s.peers.any Encoder.midFrame with
    | false => rfl
    | true => simp [State.emitNext, hq] at h
  cases he : s.enc.nextEvent with
  | none => simp [State.emitNext, hp, he] at h
  | some ev =>
    refine ⟨hp, ev, rfl, ?_⟩
    cases ha : s.answer with
    | true => rw [State.emitNext_success hp he ha] at h; cases h; exact .inl ⟨rfl, rfl⟩
    | false => rw [State.emitNext_failure hp he ha] at h; cases h; exact .inr ⟨rfl, rfl⟩

/-- A wire frame's step is the emission of its first event. -/
theorem State.sendFrame_at_start {s : State} {dc : Bool} {b : Byte} (h : s.enc.atFrameStart = true) :
    s.sendFrame dc b = ({ s with enc := s.enc.beginFrame dc b } : State).emitNext := by
  simp [State.sendFrame, h]

theorem State.sendFrame_next {s t : State} {dc : Bool} {b : Byte} (h : s.sendFrame dc b = .next t) :
    s.enc.atFrameStart = true ∧ ({ s with enc := s.enc.beginFrame dc b } : State).emitNext = .next t := by
  unfold State.sendFrame at h
  split at h
  · exact ⟨‹_›, h⟩
  · cases h

/-- A request answers a next state only by not being accepted, or by starting its operation. -/
theorem State.accept_next {s t : State} {needsSequencer needsConfigured : Bool} {start : Encoder → Encoder}
    (h : s.accept needsSequencer needsConfigured start = .next t) :
    (s.enc.reqReady = false ∧ t = s) ∨
    (s.enc.reqReady = true ∧ (needsSequencer = true → s.enc.cfg.hasInitSeq = true) ∧
      (needsConfigured = true → s.enc.configured = true) ∧
      t = { s with enc := start s.enc.portNext.setBusy }) := by
  unfold State.accept at h
  split at h
  · cases h; left; simp_all
  · split at h
    · cases h
    · split at h
      · cases h
      · cases h; right; simp_all

theorem State.accept_ready {s : State} {needsSequencer needsConfigured : Bool} {start : Encoder → Encoder}
    (hr : s.enc.reqReady = true) (hs : needsSequencer = true → s.enc.cfg.hasInitSeq = true)
    (hc : needsConfigured = true → s.enc.configured = true) :
    s.accept needsSequencer needsConfigured start = .next { s with enc := start s.enc.portNext.setBusy } := by
  cases needsSequencer <;> cases needsConfigured <;> simp_all [State.accept]

/-- A hand-over changes places and nothing else (20_memory.md R76). -/
theorem State.grant_next {s t : State} {k : Nat} (h : s.grant k = .next t) :
    ∃ p, s.peers[k]? = some p ∧ t = { s with enc := p, peers := s.peers.set k s.enc } := by
  unfold State.grant at h
  split at h
  · cases h
  · rename_i p hp
    cases h
    exact ⟨p, hp, rfl⟩

theorem State.hardwareResetPeer_next {s t : State} {k : Nat} (h : s.hardwareResetPeer k = .next t) :
    ∃ p, s.peers[k]? = some p ∧ t.enc = s.enc ∧ t.peers = s.peers.set k p.hardwareReset ∧
      t.answers = s.answers ∧ t.outside = s.outside := by
  unfold State.hardwareResetPeer at h
  split at h
  · cases h
  · rename_i p hp
    cases h
    exact ⟨p, hp, rfl, rfl, rfl, rfl⟩

end Sys2Proof.Machine
end

