-- ==== Sys2Proof/Laws/Pending.lean ====
section
/-! SUPPORT. The pending events of Machine/Pending.lean,
    position by position: what each move of the sequencer does to them. -/

namespace Sys2Proof.Machine

/-- The events of a slot come before those of the slots after it. -/
theorem Encoder.slotEventsFrom_lt (e : Encoder) (k : Nat) (hk : k < 24) :
    e.slotEventsFrom k = sendBitEvents e.cfg (frameSlot e.frame k) ++ e.slotEventsFrom (k+1) := by
  unfold Encoder.slotEventsFrom sendBitsEvents
  rw [List.drop_eq_getElem_cons (by simpa using hk)]
  simp

/-- No slot follows slot 23. -/
theorem Encoder.slotEventsFrom_end (e : Encoder) : e.slotEventsFrom 24 = [] := by
  unfold Encoder.slotEventsFrom
  rw [List.drop_eq_nil_of_le (by simp)]; rfl

/-- The slots left depend on the configuration and the `frame` register only. -/
theorem Encoder.slotEventsFrom_congr {a b : Encoder} (h1 : b.cfg = a.cfg) (h2 : b.frame = a.frame) (k : Nat) :
    b.slotEventsFrom k = a.slotEventsFrom k := by unfold Encoder.slotEventsFrom; rw [h1, h2]

/-- What follows a frame depends on the configuration, `op` and `seqPc` only. -/
theorem Encoder.eventsAfterFrame_congr {a b : Encoder} (h1 : b.cfg = a.cfg) (h2 : b.op = a.op) (h3 : b.seqPc = a.seqPc) :
    b.eventsAfterFrame = a.eventsAfterFrame := by unfold Encoder.eventsAfterFrame; rw [h1, h2, h3]

/-- The slots read from the frame as a number are the frame as a list (30_encoding.md R95). -/
theorem frameWord_slots (dc : Bool) (b : Byte) :
    (List.range 24).map (frameSlot (frameWord dc b)) = frameLevels dc b := by
  revert dc b; decide

/-- All slots of a frame, with its chip-select events, are `FrameEvents(dc, b)` (41_frame_encoder.md R156). -/
theorem Encoder.slotEventsFrom_zero (e : Encoder) (dc b) (h : e.frame = frameWord dc b) :
    csAssertEvents e.cfg ++ e.slotEventsFrom 0 ++ csDeassertEvents e.cfg = frameEvents e.cfg dc b := by
  simp [Encoder.slotEventsFrom, h, frameWord_slots, frameEvents, frameLevels, sendPrefixEvents, transmitByteEvents,
      sendBitsEvents]

/-- At the start of a frame the frame and what follows it are pending. -/
theorem Encoder.beginFrame_pending (e : Encoder) (dc b) :
    (e.beginFrame dc b).pending = frameEvents e.cfg dc b ++ e.eventsAfterFrame := by
  have h := Encoder.slotEventsFrom_zero (e.beginFrame dc b) dc b rfl
  simp only [Encoder.beginFrame_cfg] at h
  rw [← h]
  have h2 : (e.beginFrame dc b).eventsAfterFrame = e.eventsAfterFrame := rfl
  unfold Encoder.pending
  simp only [Encoder.beginFrame_phase, frameStartPhase]
  by_cases hc : e.cfg.csPresent = true
  · simp [hc, Encoder.eventsFromSlot, h2]
  · simp [hc, Encoder.eventsFromSlot, h2, csAssertEvents]

/-- What the table walk of INIT or SHUTDOWN still has to emit from entry `seqPc` on. -/
def Encoder.tableRest (e : Encoder) : List Event :=
  match e.op with
  | .init => romEvents e.cfg (e.cfg.seqRom.drop e.seqPc)
  | .shutdown => shutdownFrames e.cfg ((e.cfg.seqRom.take shutdownEnd).drop e.seqPc) ++ parkEvents e.cfg
  | _ => []

/-- A finished operation has nothing pending. -/
theorem Encoder.finish_pending (e : Encoder) : e.finish.pending = [] := rfl
/-- At the start of PARK the whole of PARK is pending. -/
theorem Encoder.beginPark_pending (e : Encoder) : e.beginPark.pending = parkEvents e.cfg := rfl

/-- Loading the next entry leaves the rest of the table pending (10_state.md R26). -/
theorem Encoder.nextEntry_pending (e : Encoder) (h : e.op = .init ∨ e.op = .shutdown) :
    e.nextEntry.pending = e.tableRest := by
  unfold Encoder.nextEntry
  rcases h with h | h
  · simp only [h, entryAt, Encoder.tableRest]
    cases hr : e.cfg.seqRom[e.seqPc]? with
    | none =>
      rw [List.drop_eq_nil_of_le (by simpa using hr)]
      simp [Encoder.finish_pending, romEvents]
    | some x =>
      simp only [Encoder.beginFrame_pending]
      obtain ⟨hl, hx⟩ := List.getElem?_eq_some_iff.1 hr
      rw [List.drop_eq_getElem_cons hl, hx]
      simp [romEvents, entryEvents, Encoder.eventsAfterFrame, h, hr]
  · simp only [h, entryAt, Encoder.tableRest]
    split
    · rename_i x hr
      simp only [Encoder.beginFrame_pending]
      split at hr
      · rename_i hlt
        obtain ⟨hl, hx⟩ := List.getElem?_eq_some_iff.1 hr
        have hl' : e.seqPc < (e.cfg.seqRom.take shutdownEnd).length := by simp; omega
        rw [List.drop_eq_getElem_cons hl', List.getElem_take, hx]
        simp [shutdownFrames, entryEvents, Encoder.eventsAfterFrame, h]
      · cases hr
    · rename_i hr
      have : (e.cfg.seqRom.take shutdownEnd).length ≤ e.seqPc := by
        split at hr
        · simp at hr; simp; omega
        · simp; omega
      simp [Encoder.beginPark_pending, shutdownFrames, List.drop_eq_nil_of_le this]

/-- `busy` falls exactly when nothing is pending. -/
theorem Encoder.nextEntry_busy (e : Encoder) (hb : e.busy = true)  :
    e.nextEntry.busy = true ↔ e.nextEntry.pending ≠ [] := by
  unfold Encoder.nextEntry
  split
  · simp [hb, Encoder.beginFrame_pending, frameEvents, sendPrefixEvents, sendBitsEvents, framePrefix, sendBitEvents]
  · split
    · simp [hb, Encoder.beginPark_pending, parkEvents]
    · simp [Encoder.finish_pending]

/-- A well-formed configuration has a table without a flaw. -/
theorem romFlaw_of_wellFormed {c : Config} (h : c.WellFormed) : romFlaw c.seqRom = none := by
  unfold Config.WellFormed Config.flaw at h
  repeat' (split at h; · cases h)
  exact h

/-- In a phase of a frame the frame register is that of the operation. -/
theorem Encoder.frameOk_of_positionOk {e : Encoder} (hp : e.positionOk = true) (hph : e.phase.ofFrame = true) :
    e.frameOk = true := by
  revert hp hph
  unfold Encoder.positionOk
  cases e.phase <;> simp [Phase.ofFrame]
/-- Inside a frame of INIT `seqPc` points into the table. -/
theorem Encoder.seqPc_of_init {e : Encoder} (hp : e.positionOk = true) (hph : e.phase.ofFrame = true)
    (hop : e.op = .init) :
    e.seqPc < e.cfg.seqRom.length := by
  have := Encoder.frameOk_of_positionOk hp hph
  simp [Encoder.frameOk, Encoder.frameOfOp, hop] at this; exact this.2
/-- Inside a frame of SHUTDOWN `seqPc` is one of its two entries. -/
theorem Encoder.seqPc_of_shutdown {e : Encoder} (hp : e.positionOk = true) (hph : e.phase.ofFrame = true)
    (hop : e.op = .shutdown) :
    shutdownFirst ≤ e.seqPc ∧ e.seqPc < shutdownEnd := by
  have := Encoder.frameOk_of_positionOk hp hph
  simp [Encoder.frameOk, Encoder.frameOfOp, hop] at this; exact this.2

/-- The end of a frame leaves pending what follows the frame. -/
theorem Encoder.frameDone_pending (e : Encoder) (hp : e.positionOk = true)
    (hph : e.phase.ofFrame = true) :
    e.frameDone.pending = e.eventsAfterFrame := by
  have hop : ∃ o, e.op = o := ⟨_, rfl⟩
  obtain ⟨o, hop⟩ := hop
  unfold Encoder.frameDone
  cases o with
  | sendCommand => simp [Encoder.finish_pending, Encoder.eventsAfterFrame, hop]
  | sendData => simp [Encoder.finish_pending, Encoder.eventsAfterFrame, hop]
  | init =>
    have hlt := Encoder.seqPc_of_init hp hph hop
    have hget := List.getElem?_eq_getElem hlt
    have hdue : (e.setSeqPc (e.seqPc + 1)).dueAfter = e.cfg.seqRom[e.seqPc].after := by
      simp [Encoder.dueAfter, hop, hget]
    simp only [hop]
    split
    · rename_i hd
      rw [Encoder.nextEntry_pending _ (.inl (by simpa using hop))]
      rw [hdue] at hd
      simp [Encoder.tableRest, Encoder.eventsAfterFrame, hop, hget, hd, afterEvents]
    · rename_i hd
      have h3 : ((e.setSeqPc (e.seqPc + 1)).goto .seq).dueAfter = e.cfg.seqRom[e.seqPc].after := hdue
      simp only [Encoder.pending, Encoder.goto_phase, h3]
      simp [Encoder.eventsAfterFrame, hop, hget]
  | shutdown =>
    have hdue : (e.setSeqPc (e.seqPc + 1)).dueAfter = .nothing := by
      simp [Encoder.dueAfter, hop]
    simp only [hop]
    rw [if_pos hdue, Encoder.nextEntry_pending _ (.inr (by simpa using hop))]
    simp [Encoder.tableRest, Encoder.eventsAfterFrame, hop]

/-- After a frame `busy` falls exactly when nothing is pending. -/
theorem Encoder.frameDone_busy (e : Encoder) (hb : e.busy = true)  :
    e.frameDone.busy = true ↔ e.frameDone.pending ≠ [] := by
  unfold Encoder.frameDone
  split
  case h_1 | h_2 => simp [Encoder.finish_pending]
  all_goals
    split
    · exact Encoder.nextEntry_busy _ (by simpa using hb)
    · rename_i h
      simp only [Encoder.goto_busy, Encoder.setSeqPc_busy, hb, true_iff]
      simp only [Encoder.pending, Encoder.goto_phase]
      have : ((e.setSeqPc (e.seqPc + 1)).goto .seq).dueAfter = (e.setSeqPc (e.seqPc + 1)).dueAfter := rfl
      rw [this]
      revert h
      cases (e.setSeqPc (e.seqPc + 1)).dueAfter <;> simp [afterEvents]

/-- A list from an existing element on. -/
theorem drop_cons_of_get {α} {l : List α} {k : Nat} {x : α} (h : l[k]? = some x) : l.drop k = x :: l.drop (k+1) := by
  obtain ⟨hl, hx⟩ := List.getElem?_eq_some_iff.1 h
  rw [List.drop_eq_getElem_cons hl, hx]

/-- LINK_SETUP has at most eight events (42_init_sequencer.md R180). -/
theorem linkSetupEvents_length_le (c : Config) : (linkSetupEvents c).length ≤ 8 := by
  unfold linkSetupEvents; split <;> split <;> simp
/-- PARK has at most four events (42_init_sequencer.md R199). -/
theorem parkEvents_length_le (c : Config) : (parkEvents c).length ≤ 4 := by
  unfold parkEvents; split <;> split <;> simp

/-- What is pending from a slot on depends on the configuration, `op`, `seqPc` and `frame` only. -/
theorem Encoder.eventsFromSlot_congr {a b : Encoder} (h1 : b.cfg = a.cfg) (h2 : b.op = a.op)
    (h3 : b.seqPc = a.seqPc) (h4 : b.frame = a.frame) (k : Nat) :
    b.eventsFromSlot k = a.eventsFromSlot k := by
  unfold Encoder.eventsFromSlot; rw [Encoder.slotEventsFrom_congr h1 h4, Encoder.eventsAfterFrame_congr h1 h2 h3, h1]
@[simp] theorem Encoder.goto_eventsFromSlot (e : Encoder) (p k) :
    (e.goto p).eventsFromSlot k = e.eventsFromSlot k := rfl
@[simp] theorem Encoder.firstSlot_eventsFromSlot (e : Encoder) (k) :
    (e.firstSlot).eventsFromSlot k = e.eventsFromSlot k := rfl
@[simp] theorem Encoder.nextSlot_eventsFromSlot (e : Encoder) (k) :
    (e.nextSlot).eventsFromSlot k = e.eventsFromSlot k := rfl
@[simp] theorem Encoder.goto_eventsAfterFrame (e : Encoder) (p) :
    (e.goto p).eventsAfterFrame = e.eventsAfterFrame := rfl

/-- Moving on removes exactly the event the position emits from what is pending (10_state.md R25, R26). -/
theorem Encoder.advance_pending (e : Encoder) (ev : Event) (hf : e.flagsOk = true) (hp : e.positionOk = true)
    (hn : e.nextEvent = some ev) : e.pending = ev :: e.advance.pending := by
  unfold Encoder.nextEvent at hn
  unfold Encoder.advance
  split at hn
  case h_1 | h_12 => cases hn
  case h_2 h =>
    have hl := (List.getElem?_eq_some_iff.1 hn).1
    have h8 := linkSetupEvents_length_le e.cfg
    have hop : e.op = .init := by simp [Encoder.positionOk, h] at hp; exact hp.1
    rw [show e.pending = (linkSetupEvents e.cfg).drop e.sub.toNat ++ romEvents e.cfg e.cfg.seqRom by simp
        [Encoder.pending, h]]
    rw [drop_cons_of_get hn, List.cons_append]
    congr 1
    split
    · rename_i hlt
      have hs : (e.sub + 1#3).toNat = e.sub.toNat + 1 := by rw [BitVec.toNat_add]; simp; omega
      simp [Encoder.pending, h, hs]
    · rename_i hge
      rw [List.drop_eq_nil_of_le (by omega), Encoder.nextEntry_pending _ (.inl (by simpa using hop))]
      simp [Encoder.tableRest, hop]
  case h_3 h =>
    have hop : e.op = .init := by simp [Encoder.positionOk, h] at hp; exact hp.1.1
    rw [Encoder.nextEntry_pending _ (.inl hop)]
    simp only [Encoder.pending, h, Encoder.tableRest, hop]
    revert hn
    cases e.dueAfter <;> simp [afterEvents]
  case h_4 h =>
    split at hn
    · cases hn
      rename_i hc
      simp [Encoder.pending, h, csAssertEvents, hc]
    · cases hn
  case h_5 h =>
    split at hn
    · cases hn
      rename_i hs
      simp only [Encoder.pending, h, Encoder.goto_phase, Encoder.goto_eventsFromSlot, Encoder.goto_cfg, Encoder.goto_slot]
      unfold Encoder.eventsFromSlot
      simp [Encoder.slotEventsFrom_lt e _ hs, sendBitEvents]
    · cases hn
  case h_6 h => cases hn; simp [Encoder.pending, h, pulseEvents]
  case h_7 h => cases hn; simp [Encoder.pending, h, pulseEvents]
  case h_8 h => cases hn; simp [Encoder.pending, h, pulseEvents]
  case h_9 h =>
    cases hn
    have hsl : e.slot.toNat < 24 := by simp [Encoder.flagsOk] at hf; exact hf.2
    split
    · rename_i hlt
      have hs : (e.slot + 1#5).toNat = e.slot.toNat + 1 := by rw [BitVec.toNat_add]; simp; omega
      simp [Encoder.pending, h, pulseEvents, hs]
    · have hs : e.slot.toNat + 1 = 24 := by omega
      split
      · rename_i hc
        simp [Encoder.pending, h, pulseEvents, hs, Encoder.eventsFromSlot, Encoder.slotEventsFrom_end]
      · rename_i hc
        rw [Encoder.frameDone_pending e hp (by simp [h, Phase.ofFrame])]
        simp [Encoder.pending, h, pulseEvents, hs, Encoder.eventsFromSlot, Encoder.slotEventsFrom_end,
            csDeassertEvents, hc]
  case h_10 h =>
    split at hn
    · cases hn
      rename_i hc
      rw [Encoder.frameDone_pending e hp (by simp [h, Phase.ofFrame])]
      simp [Encoder.pending, h, csDeassertEvents, hc]
    · cases hn
  case h_11 h =>
    have hl := (List.getElem?_eq_some_iff.1 hn).1
    have h8 := parkEvents_length_le e.cfg
    rw [show e.pending = (parkEvents e.cfg).drop e.sub.toNat by simp [Encoder.pending, h]]
    rw [drop_cons_of_get hn]
    congr 1
    split
    · rename_i hlt
      have hs : (e.sub + 1#3).toNat = e.sub.toNat + 1 := by rw [BitVec.toNat_add]; simp; omega
      simp [Encoder.pending, h, hs]
    · rename_i hge
      rw [List.drop_eq_nil_of_le (by omega)]; rfl

/-- `busy` falls with the last event of the operation and no earlier (10_state.md R28). -/
theorem Encoder.advance_busy (e : Encoder) (ev : Event)  (hb : e.busy = true)
    (hn : e.nextEvent = some ev) : e.advance.busy = true ↔ e.advance.pending ≠ [] := by
  unfold Encoder.nextEvent at hn
  unfold Encoder.advance
  split at hn
  case h_1 | h_12 => cases hn
  case h_2 h =>
    split
    · rename_i hlt
      have h8 := linkSetupEvents_length_le e.cfg
      have hs : (e.sub + 1#3).toNat = e.sub.toNat + 1 := by rw [BitVec.toNat_add]; simp; omega
      simp [Encoder.pending, h, hb, hs]; intro h; omega
    · exact Encoder.nextEntry_busy _ (by simpa using hb)
  case h_3 h => exact Encoder.nextEntry_busy _ hb
  case h_9 =>
    split
    · simp only [Encoder.nextSlot_busy, hb, Encoder.pending, Encoder.nextSlot_phase, true_iff, Encoder.nextSlot_slot,
        Encoder.nextSlot_eventsFromSlot]
      rename_i hlt
      have hs : (e.slot + 1#5).toNat = e.slot.toNat + 1 := by rw [BitVec.toNat_add]; simp; omega
      unfold Encoder.eventsFromSlot
      rw [hs, Encoder.slotEventsFrom_lt _ _ (by omega)]
      simp [sendBitEvents]
    · split
      · rename_i hc; simp [hb, Encoder.pending, csDeassertEvents, hc]
      · exact Encoder.frameDone_busy e hb
  case h_10 => exact Encoder.frameDone_busy e hb
  case h_11 h =>
    split
    · rename_i hlt
      have h8 := parkEvents_length_le e.cfg
      have hs : (e.sub + 1#3).toNat = e.sub.toNat + 1 := by rw [BitVec.toNat_add]; simp; omega
      simp [Encoder.pending, h, hb, hs]; omega
    · simp [Encoder.finish_pending]
  case h_4 =>
    simp only [Encoder.firstSlot_busy, hb, Encoder.pending, Encoder.firstSlot_phase, true_iff,
        Encoder.firstSlot_slot, Encoder.firstSlot_eventsFromSlot]
    unfold Encoder.eventsFromSlot
    rw [show (0#5).toNat = 0 from rfl, Encoder.slotEventsFrom_lt _ _ (by omega)]
    simp [sendBitEvents]
  all_goals simp [hb, Encoder.pending, pulseEvents]

end Sys2Proof.Machine
end

