-- ==== Sys2Proof/Laws/InOrder.lean ====
section
/-! SUPPORT. The invariants of Safety.lean, part by part: flags, position and the instance's own lines, each kept by
moving on and by the event of the position. -/

namespace Sys2Proof.Machine

/-- Slot 6 of a frame is its data/control level. -/
theorem frameWord_dc (dc b) : frameSlot (frameWord dc b) 6 = dc := by revert dc b; decide

/-- `flagsOk` field by field. -/
theorem Encoder.flagsOk_iff (e : Encoder) : e.flagsOk = true ↔ e.busy = e.phase.inProgress ∧ e.fault = e.phase.isFault ∧
   (e.faultCode = if e.phase.isFault then platformIOFailureCode else 0#2) ∧ e.slot.toNat < 24 := by
  simp [Encoder.flagsOk, and_assoc]

/-- The first phase of a frame by configuration. -/
theorem frameStartPhase_cases (c : Config) :
    (c.csPresent = true ∧ frameStartPhase c = .fCsLow) ∨ (c.csPresent = false ∧ frameStartPhase c = .fData) := by
  unfold frameStartPhase; cases c.csPresent <;> simp

/-- The flags of an encoder with an operation in progress. -/
structure Encoder.Running (e : Encoder) : Prop where
  busy : e.busy = true
  fault : e.fault = false
  code : e.faultCode = 0#2
  slot : e.slot.toNat < 24

/-- Loading the next entry keeps the flags in agreement with the phase. -/
theorem Encoder.nextEntry_flagsOk (e : Encoder) (h : e.Running) :
    e.nextEntry.flagsOk = true := by
  obtain ⟨hb, hf, hc, hs⟩ := h
  unfold Encoder.nextEntry
  rw [Encoder.flagsOk_iff]
  split
  · rcases frameStartPhase_cases e.cfg with ⟨h1, h2⟩ | ⟨h1, h2⟩ <;> simp [hb, hf, hc, h2, Phase.inProgress, Phase.isFault]
  · split <;> simp [hb, hf, hc, hs, Phase.inProgress, Phase.isFault]

/-- A frame begun for the operation's own entry or byte is a position in order. -/
theorem Encoder.beginFrame_positionOk (e : Encoder) (dc b) (h : match e.op with
    | .sendCommand => dc = false | .sendData => dc = true | .init => e.seqPc < e.cfg.seqRom.length
    | .shutdown => shutdownFirst ≤ e.seqPc ∧
        e.seqPc < shutdownEnd) : (e.beginFrame dc b).positionOk = true := by
  have : (e.beginFrame dc b).frameOk = true := by
    unfold Encoder.frameOk Encoder.frameOfOp
    simp only [Encoder.beginFrame_frame, frameWord_dc, Encoder.beginFrame_payload, Encoder.beginFrame_op,
        Encoder.beginFrame_cfg, Encoder.beginFrame_seqPc]
    revert h; cases e.op <;> intro h <;> simp [h]
  unfold Encoder.positionOk
  rcases frameStartPhase_cases e.cfg with ⟨h1, h2⟩ | ⟨h1, h2⟩ <;> simp [h1, h2, this]

/-- Loading the next entry keeps the position in order. -/
theorem Encoder.nextEntry_positionOk (e : Encoder) (h : (e.op = .init) ∨
    (e.op = .shutdown ∧ shutdownFirst ≤ e.seqPc)) :
    e.nextEntry.positionOk = true := by
  unfold Encoder.nextEntry
  split
  · rename_i x hx
    apply Encoder.beginFrame_positionOk
    rcases h with h | ⟨h, h'⟩
    · have hlt : e.seqPc < e.cfg.seqRom.length := by
        simp only [entryAt, h] at hx; exact (List.getElem?_eq_some_iff.1 hx).1
      simp [h, hlt]
    · have hlt : e.seqPc < shutdownEnd := by
        simp only [entryAt, h] at hx; split at hx; assumption; cases hx
      simp [h, h', hlt]
  · split
    · rename_i h2
      simp [Encoder.positionOk, h2, parkEvents]
    · simp [Encoder.positionOk]

/-- The end of a frame keeps the flags in agreement with the phase. -/
theorem Encoder.frameDone_flagsOk (e : Encoder) (h : e.Running) :
    e.frameDone.flagsOk = true := by
  unfold Encoder.frameDone
  have hh := h
  obtain ⟨hb, hf, hc, hs⟩ := h
  split
  case h_1 | h_2 => simp [Encoder.flagsOk_iff, hf, hc, hs, Phase.inProgress, Phase.isFault]
  all_goals
    split
    · exact Encoder.nextEntry_flagsOk _ ⟨by simpa using hb, by simpa using hf, by simpa using hc, by simpa using hs⟩
    · simp [Encoder.flagsOk_iff, hb, hf, hc, hs, Phase.inProgress, Phase.isFault]

/-- The end of a frame keeps the position in order. -/
theorem Encoder.frameDone_positionOk (e : Encoder) (hp : e.positionOk = true)
    (hph : e.phase.ofFrame = true) :
    e.frameDone.positionOk = true := by
  unfold Encoder.frameDone
  split
  case h_1 | h_2 => simp [Encoder.positionOk]
  case h_3 hop =>
    have hlt := Encoder.seqPc_of_init hp hph hop
    split
    · exact Encoder.nextEntry_positionOk _ (.inl (by simpa using hop))
    · rename_i hd
      have : ((e.setSeqPc (e.seqPc + 1)).goto .seq).dueAfter = (e.setSeqPc (e.seqPc + 1)).dueAfter := rfl
      simp [Encoder.positionOk, hop, this, hd]
  case h_4 hop =>
    have hlt := Encoder.seqPc_of_shutdown hp hph hop
    have hdue : (e.setSeqPc (e.seqPc + 1)).dueAfter = .nothing := by
      simp [Encoder.dueAfter, hop]
    rw [if_pos hdue]
    exact Encoder.nextEntry_positionOk _ (.inr ⟨by simpa using hop, by simp; omega⟩)

/-- In a phase of an operation the flags are those of a running encoder. -/
theorem Encoder.running_of_flagsOk (e : Encoder) (hf : e.flagsOk = true) (hp : e.phase.inProgress = true) :
    e.Running := by
  rw [Encoder.flagsOk_iff] at hf
  obtain ⟨h1, h2, h3, h4⟩ := hf
  have : e.phase.isFault = false := by revert hp; cases e.phase <;> simp [Phase.inProgress, Phase.isFault]
  simp [this, hp] at *
  exact ⟨h1, h2, h3, h4⟩

/-- Only a phase of an operation emits. -/
theorem Encoder.inProgress_of_nextEvent {e : Encoder} {ev} (hn : e.nextEvent = some ev) :
    e.phase.inProgress = true := by
  unfold Encoder.nextEvent at hn
  split at hn <;> simp_all [Phase.inProgress]

/-- Moving on keeps the flags in agreement with the phase. -/
theorem Encoder.advance_flagsOk (e : Encoder) (hf : e.flagsOk = true) (ev) (hn : e.nextEvent = some ev) :
    e.advance.flagsOk = true := by
  have hr := Encoder.running_of_flagsOk e hf (Encoder.inProgress_of_nextEvent hn)
  have hr2 := hr
  obtain ⟨hb, hfa, hc, hs⟩ := hr2
  unfold Encoder.nextEvent at hn
  unfold Encoder.advance
  split at hn <;> rename_i h <;> try (cases hn; done)
  case h_2 =>
    split
    · simp [Encoder.flagsOk_iff, h, hb, hfa, hc, hs, Phase.inProgress, Phase.isFault]
    · exact Encoder.nextEntry_flagsOk _ ⟨by simpa using hb, by simpa using hfa, by simpa using hc, by simpa using hs⟩
  case h_3 => exact Encoder.nextEntry_flagsOk _ hr
  case h_9 =>
    split
    · rename_i hlt
      have hs : (e.slot + 1#5).toNat = e.slot.toNat + 1 := by rw [BitVec.toNat_add]; simp; omega
      simp [Encoder.flagsOk_iff, hb, hfa, hc, Phase.inProgress, Phase.isFault]; simp at hs; omega
    · split
      · simp [Encoder.flagsOk_iff, hb, hfa, hc, hs, Phase.inProgress, Phase.isFault]
      · exact Encoder.frameDone_flagsOk _ hr
  case h_10 => exact Encoder.frameDone_flagsOk _ hr
  case h_11 =>
    split <;> simp [Encoder.flagsOk_iff, h, hb, hfa, hc, hs, Phase.inProgress, Phase.isFault]
  all_goals
    simp [Encoder.flagsOk_iff, hb, hfa, hc, hs, Phase.inProgress, Phase.isFault]

/-- `frameOk` depends on five registers only. -/
theorem Encoder.frameOk_congr {a b : Encoder} (h1 : b.frame = a.frame) (h2 : b.payload = a.payload)
    (h3 : b.op = a.op) (h4 : b.seqPc = a.seqPc) (h5 : b.cfg = a.cfg) :
   b.frameOk = a.frameOk := by unfold Encoder.frameOk Encoder.frameOfOp; rw [h1, h2, h3, h4, h5]

/-- Moving on keeps the position in order. -/
theorem Encoder.advance_positionOk (e : Encoder) (hp : e.positionOk = true) (ev)
    (hn : e.nextEvent = some ev) :
    e.advance.positionOk = true := by
  unfold Encoder.nextEvent at hn
  unfold Encoder.advance
  split at hn <;> rename_i h <;> try (cases hn; done)
  case h_2 =>
    have hop : e.op = .init := by simp [Encoder.positionOk, h] at hp; exact hp.1
    split
    · have h8 := linkSetupEvents_length_le e.cfg
      have hs : (e.sub + 1#3).toNat = e.sub.toNat + 1 := by rw [BitVec.toNat_add]; simp; omega
      simp [Encoder.positionOk, h, hop, hs]; assumption
    · exact Encoder.nextEntry_positionOk _ (.inl (by simpa using hop))
  case h_3 =>
    have hop : e.op = .init := by simp [Encoder.positionOk, h] at hp; exact hp.1.1
    exact Encoder.nextEntry_positionOk _ (.inl hop)
  case h_9 =>
    have hok := Encoder.frameOk_of_positionOk hp (by simp [h, Phase.ofFrame])
    split
    · simp [Encoder.positionOk]; rw [← hok]; apply Encoder.frameOk_congr <;> simp
    · split
      · rename_i hc
        simp [Encoder.positionOk, hc]; rw [← hok]; apply Encoder.frameOk_congr <;> simp
      · exact Encoder.frameDone_positionOk e hp (by simp [h, Phase.ofFrame])
  case h_10 => exact Encoder.frameDone_positionOk e hp (by simp [h, Phase.ofFrame])
  case h_11 =>
    split
    · rename_i hlt
      have h8 := parkEvents_length_le e.cfg
      have hs : (e.sub + 1#3).toNat = e.sub.toNat + 1 := by rw [BitVec.toNat_add]; simp; omega
      simp [Encoder.positionOk, h] at hp
      simp [Encoder.positionOk, h, hs, hp.1, hlt]
    · simp [Encoder.positionOk]
  all_goals
    have hok := Encoder.frameOk_of_positionOk hp (by simp [h, Phase.ofFrame])
    simp [Encoder.positionOk]; rw [← hok]; apply Encoder.frameOk_congr <;> simp

/-- An event's effect on the instance's own lines and directions; the shared levels are the state's. -/
def Encoder.withEffect (e : Encoder) : Event → Encoder
  | .set .cs v => { e with csLevel := some v }
  | .set .res v => { e with resLevel := some v }
  | .dir l => e.setOutput l
  | _ => e

/-- The encoder after an event's effect. -/
theorem State.applyEvent_enc (s : State) (ev : Event) : (s.applyEvent ev).enc = s.enc.withEffect ev := by
  cases ev with
  | set l v => cases l <;> rfl
  | dir l => rfl
  | waitUs => rfl
  | waitMs => rfl

/-- The encoder after the event of its position. -/
theorem State.afterEvent_enc (s : State) (ev : Event) :
    (s.afterEvent ev).enc = ((s.enc.withEffect ev).record ev).advance := by
  simp [State.afterEvent, State.applyEvent_enc]

/-- Loading the next entry leaves the encoder outside a frame sent with chip-select. -/
theorem Encoder.nextEntry_outside (e : Encoder) :
    e.nextEntry.phase.isSetup = false ∧
        e.nextEntry.phase.insideFrame = (e.nextEntry.phase.insideFrame && !e.cfg.csPresent) := by
  unfold Encoder.nextEntry
  split
  · rcases frameStartPhase_cases e.cfg with ⟨h1, h2⟩ | ⟨h1, h2⟩ <;> simp [h1, h2, Phase.isSetup, Phase.insideFrame]
  · split <;> simp [Phase.isSetup, Phase.insideFrame]

/-- The end of a frame leaves the encoder outside a frame sent with chip-select. -/
theorem Encoder.frameDone_outside (e : Encoder) :
    e.frameDone.phase.isSetup = false ∧
        e.frameDone.phase.insideFrame = (e.frameDone.phase.insideFrame && !e.cfg.csPresent) := by
  unfold Encoder.frameDone
  split
  case h_1 | h_2 => simp [Phase.isSetup, Phase.insideFrame]
  all_goals
    split
    · exact Encoder.nextEntry_outside _
    · simp [Phase.isSetup, Phase.insideFrame]

/-- How to show `ownLinesOk` after a change of position. -/
theorem Encoder.ownLinesOk_of {a b : Encoder} (h : a.SameButPosition b) (hf : a.fault = false)
    (hopt : a.optionalLinesOk = true)
    (hrun : b.phase.inProgress = true → b.phase.isSetup = true ∨ b.configured = true)
    (hset : b.phase.isSetup = true → ((linkSetupEvents a.cfg).take b.sub.toNat).all a.hasEffect = true)
    (hnc : b.configured = false → a.csLevel ≠ some false)
    (hc : b.configured = true → a.sdoDir = .output ∧ a.sclkDir = .output ∧ (a.cfg.csPresent = true → a.csDir = .output) ∧
      (a.cfg.resPresent = true → a.resDir = .output ∧ a.resLevel = some true) ∧
      (a.cfg.csPresent = true → a.csLevel = some (!b.phase.insideFrame))) : b.ownLinesOk = true := by
  have heff : b.hasEffect = a.hasEffect := by
    funext ev; cases ev with
    | set l v => cases l <;> simp [Encoder.hasEffect, h.csLevel, h.resLevel]
    | dir l => simp [Encoder.hasEffect, h.dir]
    | waitUs => rfl
    | waitMs => rfl
  have hopt' : b.optionalLinesOk = true := by
    unfold Encoder.optionalLinesOk at *; rw [h.cfg, h.csLevel, h.csDir, h.resLevel, h.resDir]; exact hopt
  unfold Encoder.ownLinesOk
  rw [hopt', heff, h.cfg]
  simp only [Bool.true_and, Bool.and_eq_true, Bool.or_eq_true, Bool.not_eq_true']
  refine ⟨⟨?_, ?_⟩, ?_⟩
  · cases hq : b.phase.inProgress with
    | false => simp
    | true => rcases hrun hq with h | h <;> simp [h]
  · cases hq : b.phase.isSetup with
    | false => simp
    | true => right; exact hset hq
  · cases hq : b.configured with
    | false => simpa [h.csLevel] using hnc hq
    | true =>
      obtain ⟨h1, h2, h3, h4, h5⟩ := hc hq
      simp only [if_true, Encoder.configuredLinesOk, h.cfg, h.sdoDir, h.sclkDir, h.csDir, h.resDir, h.resLevel,
          h.csLevel, h.fault, hf, h1, h2]
      cases hcs : a.cfg.csPresent <;> cases hrs : a.cfg.resPresent <;> simp_all

/-- What `ownLinesOk` says of an encoder that has not faulted. -/
theorem Encoder.ownLinesOk_elim {a : Encoder} (hf : a.fault = false) (h : a.ownLinesOk = true) :
    a.optionalLinesOk = true ∧ (a.phase.inProgress = true → a.phase.isSetup = true ∨ a.configured = true) ∧
    (a.phase.isSetup = true → ((linkSetupEvents a.cfg).take a.sub.toNat).all a.hasEffect = true) ∧
    (a.configured = false → a.csLevel ≠ some false) ∧
    (a.configured = true → a.sdoDir = .output ∧ a.sclkDir = .output ∧ (a.cfg.csPresent = true → a.csDir = .output) ∧
      (a.cfg.resPresent = true → a.resDir = .output ∧ a.resLevel = some true) ∧
      (a.cfg.csPresent = true → a.csLevel = some (!a.phase.insideFrame))) := by
  unfold Encoder.ownLinesOk Encoder.configuredLinesOk at h
  simp only [Bool.and_eq_true, Bool.or_eq_true, Bool.not_eq_true'] at h
  obtain ⟨⟨⟨h1, h2⟩, h3⟩, h4⟩ := h
  refine ⟨h1, ?_, ?_, ?_, ?_⟩
  · intro hp; rcases h2 with (h2 | h2) | h2 <;> simp_all
  · intro hp; rcases h3 with h3 | h3 <;> simp_all
  · intro hc; simpa [hc] using h4
  · intro hc
    simp only [hc, if_true, Bool.and_eq_true, decide_eq_true_eq, Bool.or_eq_true, Bool.not_eq_true', hf] at h4
    obtain ⟨⟨⟨⟨h5, h6⟩, h7⟩, h8⟩, h9⟩ := h4
    refine ⟨h5, h6, ?_, ?_, ?_⟩
    · intro h; simp_all
    · intro h; simp_all
    · intro h; simp_all

/-- What an event's effect leaves unchanged. -/
theorem Encoder.withEffect_same (e : Encoder) (ev : Event) :
    (e.withEffect ev).phase = e.phase ∧ (e.withEffect ev).cfg = e.cfg ∧ (e.withEffect ev).sub = e.sub ∧
        (e.withEffect ev).configured = e.configured ∧ (e.withEffect ev).fault = e.fault ∧
            (e.withEffect ev).op = e.op ∧ (e.withEffect ev).slot = e.slot ∧ (e.withEffect ev).seqPc = e.seqPc ∧
                (e.withEffect ev).frame = e.frame ∧ (e.withEffect ev).payload = e.payload ∧
                    (e.withEffect ev).busy = e.busy ∧ (e.withEffect ev).faultCode = e.faultCode := by
  cases ev with
  | set l v => cases l <;> simp [Encoder.withEffect]
  | dir l => simp [Encoder.withEffect]
  | waitUs => simp [Encoder.withEffect]
  | waitMs => simp [Encoder.withEffect]

/-- Moving on in SETUP: the next event of LINK_SETUP, or its end. -/
theorem Encoder.advance_of_setup (a : Encoder) (h : a.phase = .setup) :
   (a.advance.phase = .setup ∧ a.advance.sub = a.sub + 1#3 ∧ a.sub.toNat + 1 < (linkSetupEvents a.cfg).length) ∨
   ((linkSetupEvents a.cfg).length ≤ a.sub.toNat + 1 ∧ a.advance.phase.isSetup = false ∧
       (a.cfg.csPresent = true → a.advance.phase.insideFrame = false)) := by
  unfold Encoder.advance
  simp only [h]
  split
  · left; simpa [h]
  · right
    refine ⟨by omega, (Encoder.nextEntry_outside _).1, ?_⟩
    have := (Encoder.nextEntry_outside (a.setConfigured.setSeqPc 0)).2
    intro hc; simp at this;
    cases hq : ((a.setConfigured.setSeqPc 0).nextEntry.phase.insideFrame) with
    | false => rfl
    | true => simp [hq, hc] at this

/-- The events of LINK_SETUP that have taken effect, one more. -/
theorem Encoder.hasEffect_succ (c : Config) (e : Encoder) (ev : Event) (n : Nat) (hget :
    (linkSetupEvents c)[n]? = some ev)
   (h : ((linkSetupEvents c).take n).all e.hasEffect = true) :
   ((linkSetupEvents c).take (n+1)).all ((e.withEffect ev).record ev).hasEffect = true := by
  have h1 : (linkSetupEvents c).take (n+1) = (linkSetupEvents c).take n ++ [ev] := by
    rw [List.take_add_one, hget]; rfl
  rw [h1, List.all_append]
  simp only [List.all_cons, List.all_nil, Bool.and_true, Bool.and_eq_true]
  constructor
  · rw [List.all_eq_true] at *
    intro x hx
    have hxe := h x hx
    -- ev is an event of linkSetup: sets are to idle levels
    have hev : ev ∈ linkSetupEvents c := List.mem_of_getElem? hget
    have hxl : x ∈ linkSetupEvents c := List.mem_of_mem_take hx
    have key : ∀ y ∈ linkSetupEvents c, (∀ v, y = .set .cs v → v = true) ∧ (∀ v, y = .set .res v → v = true) := by
      intro y hy
      unfold linkSetupEvents at hy
      cases c.csPresent <;> cases c.resPresent <;> simp at hy <;> (constructor <;> intro v hv <;> subst hv <;> simp_all)
    cases x with
    | waitUs => rfl
    | waitMs => rfl
    | dir l =>
      simp only [Encoder.hasEffect, decide_eq_true_eq] at *
      cases ev with
      | set m v => cases m <;> cases l <;> exact hxe
      | dir m => simp only [Encoder.withEffect]; show ((e.setOutput m).dir l) = _; simp [hxe]
      | waitUs => exact hxe
      | waitMs => exact hxe
    | set l v =>
      cases l with
      | sdo => rfl
      | sclk => rfl
      | cs =>
        have hv := (key _ hxl).1 v rfl
        simp only [Encoder.hasEffect, decide_eq_true_eq] at *
        cases ev with
        | set m w => cases m with
          | cs => have := (key _ hev).1 w rfl; simp [Encoder.withEffect, hv, this]
          | _ => simpa [Encoder.withEffect] using hxe
        | _ => simpa [Encoder.withEffect] using hxe
      | res =>
        have hv := (key _ hxl).2 v rfl
        simp only [Encoder.hasEffect, decide_eq_true_eq] at *
        cases ev with
        | set m w => cases m with
          | res => have := (key _ hev).2 w rfl; simp [Encoder.withEffect, hv, this]
          | _ => simpa [Encoder.withEffect] using hxe
        | _ => simpa [Encoder.withEffect] using hxe
  · cases ev with
    | set l v => cases l <;> simp [Encoder.hasEffect, Encoder.withEffect]
    | dir l => simp [Encoder.hasEffect, Encoder.withEffect]; cases l <;> rfl
    | waitUs => rfl
    | waitMs => rfl

/-- What a completed LINK_SETUP leaves on the instance's own lines (42_init_sequencer.md R181). -/
theorem Encoder.linesOk_of_setupDone (a : Encoder) (c : Config) (h : (linkSetupEvents c).all a.hasEffect = true) :
   a.sdoDir = .output ∧ a.sclkDir = .output ∧ (c.csPresent = true → a.csDir = .output ∧ a.csLevel = some true) ∧
      (c.resPresent = true → a.resDir = .output ∧ a.resLevel = some true) := by
  rw [List.all_eq_true] at h
  have hd : ∀ l, Event.dir l ∈ linkSetupEvents c → a.dir l = .output := by
    intro l hl; simpa [Encoder.hasEffect] using h _ hl
  refine ⟨hd .sdo (by simp [linkSetupEvents]), hd .sclk (by simp [linkSetupEvents]), ?_, ?_⟩
  · intro hc
    have hm : Event.set .cs true ∈ linkSetupEvents c := by simp [linkSetupEvents, hc]
    exact ⟨hd .cs (by simp [linkSetupEvents, hc]), by simpa [Encoder.hasEffect] using h _ hm⟩
  · intro hc
    have hm : Event.set .res true ∈ linkSetupEvents c := by simp [linkSetupEvents, hc]
    exact ⟨hd .res (by simp [linkSetupEvents, hc]), by simpa [Encoder.hasEffect] using h _ hm⟩

/-- The event SETUP emits. -/
theorem Encoder.nextEvent_of_setup {e : Encoder} {ev} (hn : e.nextEvent = some ev) (h : e.phase = .setup) :
    (linkSetupEvents e.cfg)[e.sub.toNat]? = some ev := by
  simpa [Encoder.nextEvent, h] using hn

/-- No event ever emitted drives RES low or names an absent line (10_state.md R20, R22). -/
theorem Encoder.nextEvent_lines {e : Encoder} {ev} (hn : e.nextEvent = some ev) :
   ev ≠ .set .res false ∧ ∀ l, Line.present l e.cfg = false → ev.names l = false := by
  have key : ∀ y, (y ∈ linkSetupEvents e.cfg ∨ y ∈ parkEvents e.cfg) → y ≠ .set .res false ∧
      ∀ l, Line.present l e.cfg = false → y.names l = false := by
    intro y hy
    unfold linkSetupEvents parkEvents at hy
    cases hc : e.cfg.csPresent <;> cases hr : e.cfg.resPresent <;> simp [hc, hr] at hy <;>
     (constructor
      · rintro rfl; simp at hy
      · intro l hl; cases l <;> simp [Line.present, hc, hr] at hl <;>
         (rcases hy with hy | hy <;> simp_all [Event.names] <;> (repeat' (rcases hy with hy | hy)) <;>
             simp_all))
  unfold Encoder.nextEvent at hn
  split at hn
  case h_1 | h_12 => cases hn
  case h_2 => exact key _ (.inl (List.mem_of_getElem? hn))
  case h_11 => exact key _ (.inr (List.mem_of_getElem? hn))
  case h_3 =>
    cases hd : e.dueAfter <;> simp [afterEvents, hd] at hn <;> subst hn <;> simp [Event.names]
  case h_4 | h_10 =>
    split at hn
    · cases hn; refine ⟨by simp, ?_⟩; intro l hl; cases l <;> simp_all [Line.present, Event.names]
    · cases hn
  case h_5 =>
    split at hn
    · cases hn; refine ⟨by simp, ?_⟩; intro l hl; cases l <;> simp_all [Line.present, Event.names]
    · cases hn
  all_goals
    cases hn; refine ⟨by simp, ?_⟩; intro l hl; cases l <;> simp_all [Line.present, Event.names]

/-- `optionalLinesOk` line by line. -/
theorem Encoder.optionalLinesOk_iff (e : Encoder) : e.optionalLinesOk = true ↔
   (e.cfg.csPresent = false → e.csLevel = none ∧ e.csDir = .undriven) ∧
       (e.cfg.resPresent = false → e.resLevel = none ∧ e.resDir = .undriven) ∧ e.resLevel ≠ some false := by
  unfold Encoder.optionalLinesOk
  cases e.cfg.csPresent <;> cases e.cfg.resPresent <;> simp [and_assoc]

/-- No event disturbs the optional lines. -/
theorem Encoder.optionalLinesOk_afterEvent {e : Encoder} {ev} (hn : e.nextEvent = some ev)
    (h : e.optionalLinesOk = true) :
   ((e.withEffect ev).record ev).optionalLinesOk = true := by
  obtain ⟨h1, h2⟩ := Encoder.nextEvent_lines hn
  have hcs := h2 .cs; have hres := h2 .res
  simp only [Line.present] at hcs hres
  rw [Encoder.optionalLinesOk_iff] at *
  clear h2 hn
  cases ev with
  | waitUs => exact h
  | waitMs => exact h
  | dir l =>
    cases l <;> simp [Event.names] at hcs hres <;> simp_all [Encoder.withEffect, Encoder.setOutput]
  | set l v =>
    cases l
    · exact h
    · exact h
    · simp [Event.names] at hcs; simp_all [Encoder.withEffect]
    · simp [Event.names] at hres; simp_all [Encoder.withEffect]

/-- An event keeps the instance's own lines in order. -/
theorem Encoder.ownLinesOk_afterEvent (e : Encoder) (ev) (hf : e.flagsOk = true) (ho : e.ownLinesOk = true)
    (hn : e.nextEvent = some ev) :
    ((e.withEffect ev).record ev).advance.ownLinesOk = true := by
  have hr := Encoder.running_of_flagsOk e hf (Encoder.inProgress_of_nextEvent hn)
  obtain ⟨q1, q2, q3, q4, q5⟩ := Encoder.ownLinesOk_elim hr.fault ho
  obtain ⟨s1, s2, s3, s4, s5, s6, s7, s8, s9, s10, s11, s12⟩ := Encoder.withEffect_same e ev
  have hsame := ((e.withEffect ev).record ev).advance_same
  have hconf := ((e.withEffect ev).record ev).advance_configured
  simp only [Encoder.record_configured, Encoder.record_phase, Encoder.record_cfg, Encoder.record_sub, s1, s2, s3,
      s4] at hconf
  by_cases hph : e.phase = .setup
  · have hget := Encoder.nextEvent_of_setup hn hph
    have hall := q3 (by simp [hph, Phase.isSetup])
    have hall' := Encoder.hasEffect_succ e.cfg e ev _ hget hall
    have h8 := linkSetupEvents_length_le e.cfg
    have hlt := (List.getElem?_eq_some_iff.1 hget).1
    -- levels stay when already configured
    have hcs : (e.withEffect ev).csLevel ≠ some false ∧
        (e.configured = true → e.cfg.csPresent = true → (e.withEffect ev).csLevel = some true) := by
      have hev : ev ∈ linkSetupEvents e.cfg := List.mem_of_getElem? hget
      have hset : ∀ v, ev = .set .cs v → v = true := by
        rintro v rfl; unfold linkSetupEvents at hev
        cases hc : e.cfg.csPresent <;> cases hr : e.cfg.resPresent <;> simp_all
      have hle : e.csLevel ≠ some false := by
        cases hc : e.configured with
        | false => exact q4 hc
        | true =>
          cases hcp : e.cfg.csPresent with
          | true => have := (q5 hc).2.2.2.2 hcp; rw [this]; simp [hph, Phase.insideFrame]
          | false => simp [Encoder.optionalLinesOk, hcp] at q1; simp [q1.1.1]
      cases ev with
      | set l v => cases l with
        | cs => have := hset v rfl; simp [Encoder.withEffect, this]
        | _ => refine ⟨hle, ?_⟩; intro h1 h2; have :=
            (q5 h1).2.2.2.2 h2; simpa [Encoder.withEffect, hph, Phase.insideFrame] using this
      | dir l => refine ⟨by simpa [Encoder.withEffect] using hle, ?_⟩; intro h1 h2; have :=
          (q5 h1).2.2.2.2 h2; simpa [Encoder.withEffect, hph, Phase.insideFrame] using this
      | waitUs => refine ⟨hle, ?_⟩; intro h1 h2; have :=
          (q5 h1).2.2.2.2 h2; simpa [Encoder.withEffect, hph, Phase.insideFrame] using this
      | waitMs => refine ⟨hle, ?_⟩; intro h1 h2; have :=
          (q5 h1).2.2.2.2 h2; simpa [Encoder.withEffect, hph, Phase.insideFrame] using this
    have hkeep : e.configured = true → ((e.withEffect ev).sdoDir = .output ∧ (e.withEffect ev).sclkDir = .output ∧
        (e.cfg.csPresent = true → (e.withEffect ev).csDir = .output) ∧
      (e.cfg.resPresent = true → (e.withEffect ev).resDir = .output ∧ (e.withEffect ev).resLevel = some true)) := by
      intro hc
      obtain ⟨r1, r2, r3, r4, _⟩ := q5 hc
      have hev : ev ∈ linkSetupEvents e.cfg := List.mem_of_getElem? hget
      have hset : ∀ v, ev = .set .res v → v = true := by
        rintro v rfl; exact (by simpa using (Encoder.nextEvent_lines hn).1)
      cases ev with
      | set l v => cases l with
        | res => have := hset v rfl; subst this; exact ⟨r1, r2, r3, fun h => ⟨(r4 h).1, rfl⟩⟩
        | _ => exact ⟨r1, r2, r3, r4⟩
      | dir l => cases l <;> simp [Encoder.withEffect, Encoder.setOutput] <;> simp_all
      | waitUs => exact ⟨r1, r2, r3, r4⟩
      | waitMs => exact ⟨r1, r2, r3, r4⟩
    rcases Encoder.advance_of_setup ((e.withEffect ev).record ev)
        (by simpa [s1] using hph) with ⟨p1, p2, p3⟩ | ⟨p1, p2, p3⟩
    · simp only [Encoder.record_sub, s3, Encoder.record_cfg, s2] at p2 p3
      have hs : (e.sub + 1#3).toNat = e.sub.toNat + 1 := by rw [BitVec.toNat_add]; simp; omega
      have hc' : ((e.withEffect ev).record ev).advance.configured = e.configured := by
        rw [hconf]; simp; omega
      apply Encoder.ownLinesOk_of hsame (by simpa [s5] using hr.fault) (Encoder.optionalLinesOk_afterEvent hn q1)
      · intro _; left; simp [p1, Phase.isSetup]
      · intro _; rw [p2, hs]; simpa [s2] using hall'
      · intro _; simpa using hcs.1
      · intro h; rw [hc'] at h
        obtain ⟨r1, r2, r3, r4⟩ := hkeep h
        refine ⟨by simpa using r1, by simpa using r2, by simpa [s2] using r3, by simpa [s2] using r4, ?_⟩
        intro h2; simp [p1, Phase.insideFrame]; exact hcs.2 h (by simpa [s2] using h2)
    · simp only [Encoder.record_sub, s3, Encoder.record_cfg, s2] at p1 p3
      have hc' : ((e.withEffect ev).record ev).advance.configured = true := by
        rw [hconf]; simp [hph]; omega
      rw [List.take_of_length_le (by omega)] at hall'
      obtain ⟨r1, r2, r3, r4⟩ := Encoder.linesOk_of_setupDone _ _ hall'
      apply Encoder.ownLinesOk_of hsame (by simpa [s5] using hr.fault) (Encoder.optionalLinesOk_afterEvent hn q1)
      · intro _; right; exact hc'
      · intro h; rw [p2] at h; cases h
      · intro h; rw [hc'] at h; cases h
      · intro _
        refine ⟨r1, r2, ?_, ?_, ?_⟩
        · intro h; exact (r3 (by simpa [s2] using h)).1
        · intro h; exact (r4 (by simpa [s2] using h))
        · intro h; rw [p3 (by simpa [s2] using h)]; exact (r3 (by simpa [s2] using h)).2
  · have hcfg : e.configured = true := by
      rcases q2 (Encoder.inProgress_of_nextEvent hn) with h | h
      · exfalso; revert h hph; cases e.phase <;> simp [Phase.isSetup]
      · exact h
    have hc' : ((e.withEffect ev).record ev).advance.configured = true := by rw [hconf]; simp [hcfg]
    obtain ⟨r1, r2, r3, r4, r5⟩ := q5 hcfg
    have main : ((e.withEffect ev).record ev).advance.phase.isSetup = false ∧
       (e.cfg.csPresent = true → (e.withEffect ev).csLevel = some
           (!((e.withEffect ev).record ev).advance.phase.insideFrame)) ∧
       (e.withEffect ev).sdoDir = e.sdoDir ∧ (e.withEffect ev).sclkDir = e.sclkDir ∧ (e.withEffect ev).csDir = e.csDir ∧
       (e.withEffect ev).resDir = e.resDir ∧ (e.cfg.resPresent = true → (e.withEffect ev).resLevel = some true) := by
      clear hconf hc' hsame
      have hn' := hn
      unfold Encoder.nextEvent at hn
      unfold Encoder.advance
      simp only [Encoder.record_phase, s1, Encoder.record_cfg, s2, Encoder.record_sub, s3, Encoder.record_slot, s7]
      have ne := Encoder.nextEntry_outside ((e.withEffect ev).record ev)
      have fd := Encoder.frameDone_outside ((e.withEffect ev).record ev)
      simp only [Encoder.record_cfg, s2] at ne fd
      split at hn <;> rename_i h <;> try (cases hn; done)
      case h_2 => exact absurd h hph
      case h_3 =>
        have : e.withEffect ev = e := by cases hd : e.dueAfter <;> simp [afterEvents, hd] at hn <;> subst hn <;> rfl
        refine ⟨ne.1, ?_, by simp [this], by simp [this], by simp [this], by simp [this], ?_⟩
        · intro hcp
          have h2 : ((e.withEffect ev).record ev).nextEntry.phase.insideFrame = false := by
            have := ne.2; rw [hcp] at this; simpa using this
          rw [this] at h2 ⊢
          rw [h2, r5 hcp, h]; rfl
        · intro hrp; rw [this]; exact (r4 hrp).2
      case h_4 =>
        split at hn
        · cases hn; simp [Encoder.withEffect, Phase.isSetup, Phase.insideFrame]; intro h; exact (r4 h).2
        · cases hn
      case h_5 =>
        split at hn
        · cases hn; simp [Encoder.withEffect, Phase.isSetup, Phase.insideFrame]
          exact ⟨fun hc => by simpa [h, Phase.insideFrame] using r5 hc, fun h => (r4 h).2⟩
        · cases hn
      case h_9 =>
        cases hn
        simp only [Encoder.withEffect] at fd ⊢
        refine ⟨?_, ?_, trivial, trivial, trivial, trivial, fun h => (r4 h).2⟩
        · split
          · simp [Phase.isSetup]
          · split
            · simp [Phase.isSetup]
            · exact fd.1
        · intro hc
          have := r5 hc
          rw [h] at this
          split
          · simpa [Phase.insideFrame] using this
          · simpa [hc, Phase.insideFrame] using this
      case h_10 =>
        split at hn
        · rename_i hc
          cases hn
          refine ⟨fd.1, ?_, rfl, rfl, rfl, rfl, fun h => (r4 h).2⟩
          intro _
          have := fd.2; rw [hc] at this; simp only [Bool.not_true, Bool.and_false] at this
          rw [this]; rfl
        · cases hn
      case h_11 =>
        have hm : ev ∈ parkEvents e.cfg := List.mem_of_getElem? hn
        have hc1 := r5
        rw [h] at hc1
        simp only [Phase.insideFrame, Bool.not_false] at hc1
        have hpark : (e.withEffect ev).sdoDir = e.sdoDir ∧ (e.withEffect ev).sclkDir = e.sclkDir ∧
            (e.withEffect ev).csDir = e.csDir ∧
           (e.withEffect ev).resDir = e.resDir ∧ (e.cfg.resPresent = true → (e.withEffect ev).resLevel = some true) ∧
               (e.cfg.csPresent = true → (e.withEffect ev).csLevel = some true) := by
          have r4' : e.cfg.resPresent = true → e.resLevel = some true := fun h => (r4 h).2
          unfold parkEvents at hm
          cases hcp : e.cfg.csPresent <;> cases hrp : e.cfg.resPresent <;> simp [hcp, hrp] at hm <;>
              rcases hm with rfl | rfl | rfl | rfl <;> simp_all [Encoder.withEffect]
        obtain ⟨u1, u2, u3, u4, u5, u6⟩ := hpark
        have hset : (if e.sub.toNat + 1 < (parkEvents e.cfg).length then ((e.withEffect ev).record ev).nextSub else
            ((e.withEffect ev).record ev).finish).phase.isSetup = false ∧
          (if e.sub.toNat + 1 < (parkEvents e.cfg).length then ((e.withEffect ev).record ev).nextSub else
              ((e.withEffect ev).record ev).finish).phase.insideFrame = false := by
          split <;> simp [s1, h, Phase.isSetup, Phase.insideFrame]
        exact ⟨hset.1, fun hc => by rw [hset.2]; exact u6 hc, u1, u2, u3, u4, u5⟩
      all_goals
        cases hn; simp [Encoder.withEffect, Phase.isSetup, Phase.insideFrame]
        exact ⟨fun hc => by simpa [h, Phase.insideFrame] using r5 hc, fun h => (r4 h).2⟩
    obtain ⟨m1, m2, m3, m4, m5, m6, m7⟩ := main
    apply Encoder.ownLinesOk_of hsame (by simpa [s5] using hr.fault) (Encoder.optionalLinesOk_afterEvent hn q1)
    · intro _; right; exact hc'
    · intro h; rw [m1] at h; cases h
    · intro h; rw [hc'] at h; cases h
    · intro _
      refine ⟨by simpa [m3] using r1, by simpa [m4] using r2, by simpa [m5, s2] using r3, ?_, ?_⟩
      · intro h; exact ⟨by simpa [m6] using (r4 (by simpa [s2] using h)).1, m7 (by simpa [s2] using h)⟩
      · intro h; exact m2 (by simpa [s2] using h)

end Sys2Proof.Machine
end

