-- ==== Sys2Proof/Laws/PerInstr.lean ====
section
/-! SUPPORT. The family of statements about every instruction as syntax: its word lies under its row's fixed bits
(spec/30_encoding.md R111 and R95, spec/opcode_table.json). -/

namespace Sys2Proof.Laws

/-- The bits spec/opcode_table.json fixes in an instruction's row. -/
def rowMask : Instr → Nat
  | .sendCommand _ | .sendData _ | .init _ | .shutdown _ => 0x300
  | .wireCommandFrame _ | .wireDataFrame _ => 0xFF0F0F

/-- Their values. -/
def rowMatch : Instr → Nat
  | .sendCommand _ => 0x000
  | .sendData _ => 0x100
  | .init _ => 0x200
  | .shutdown _ => 0x300
  | .wireCommandFrame _ => 0xF80000
  | .wireDataFrame _ => 0xFA0000

/-- `(w & mask) = match` for the instruction's own word. -/
def FixedBits.Statement (i : Instr) : Prop := encodeNat i &&& rowMask i = rowMatch i

theorem FixedBits.sendCommand (b : Byte) : FixedBits.Statement (.sendCommand b) := by
  revert b; unfold FixedBits.Statement; decide

theorem FixedBits.sendData (b : Byte) : FixedBits.Statement (.sendData b) := by
  revert b; unfold FixedBits.Statement; decide

theorem FixedBits.init (b : Byte) : FixedBits.Statement (.init b) := by
  revert b; unfold FixedBits.Statement; decide

theorem FixedBits.shutdown (b : Byte) : FixedBits.Statement (.shutdown b) := by
  revert b; unfold FixedBits.Statement; decide

theorem FixedBits.wireCommandFrame (b : Byte) : FixedBits.Statement (.wireCommandFrame b) := by
  revert b; unfold FixedBits.Statement; decide

theorem FixedBits.wireDataFrame (b : Byte) : FixedBits.Statement (.wireDataFrame b) := by
  revert b; unfold FixedBits.Statement; decide

end Sys2Proof.Laws
end

