-- ==== Sys2Proof/Laws/SeqRom.lean ====
section
/-! SUPPORT. What the check of `SEQ_ROM` says, part by part (spec/42_init_sequencer.md R184): proofs cite these lemmas instead of
unfolding the check. -/

namespace Sys2Proof.Machine

/-! ### The order of the words -/

/-- Every name is one of the words'. -/
theorem followsWords_mem {words : List (Param × Bool)} {names : List Param} (h : followsWords words names = true) :
    ∀ q ∈ names, q ∈ words.map Prod.fst := by
  induction words generalizing names with
  | nil =>
    intro q hq
    rw [List.isEmpty_iff.mp h] at hq
    cases hq
  | cons w rest ih =>
    obtain ⟨p, needed⟩ := w
    simp only [followsWords, Bool.and_eq_true] at h
    intro q hq
    rw [← List.takeWhile_append_dropWhile (p := fun q => q == p) (l := names), List.mem_append] at hq
    rcases hq with hq | hq
    · have := List.mem_takeWhile_imp hq
      simp only [beq_iff_eq] at this
      simp [this]
    · simp [ih h.2 q hq]

/-- The entries of one name at the head of a list of names are that many copies of it. -/
theorem takeWhile_eq_replicate (p : Param) (names : List Param) :
    ∃ n, names.takeWhile (fun q => q == p) = List.replicate n p :=
  ⟨_, List.eq_replicate_of_mem fun q hq => by simpa using List.mem_takeWhile_imp hq⟩

/-- One word: its entries, at least one where it is needed, and then the entries of the words that follow. -/
theorem followsWords_cons {p : Param} {needed : Bool} {rest : List (Param × Bool)} (hp : p ∉ rest.map Prod.fst)
    (names : List Param) :
    followsWords ((p, needed) :: rest) names = true ↔
      ∃ n tail, names = List.replicate (n + needed.toNat) p ++ tail ∧ followsWords rest tail = true := by
  simp only [followsWords, Bool.and_eq_true, Bool.or_eq_true, Bool.not_eq_true', beq_iff_eq]
  constructor
  · rintro ⟨hneed, htail⟩
    obtain ⟨n, hn⟩ := takeWhile_eq_replicate p names
    have hsplit := List.takeWhile_append_dropWhile (p := fun q => q == p) (l := names)
    rw [hn] at hsplit
    cases needed with
    | false => exact ⟨n, _, by simpa using hsplit.symm, htail⟩
    | true =>
      cases n with
      | zero =>
        cases names with
        | nil => simp at hneed
        | cons a l => simp at hneed; subst hneed; simp at hn
      | succ n => exact ⟨n, _, by simpa using hsplit.symm, htail⟩
  · rintro ⟨n, tail, rfl, htail⟩
    have hdrop : (List.replicate (n + needed.toNat) p ++ tail).dropWhile (fun q => q == p) = tail := by
      rw [List.dropWhile_append_of_pos (by simp)]
      cases tail with
      | nil => rfl
      | cons a l =>
        have : a ≠ p := fun h => hp (h ▸ followsWords_mem htail a (by simp))
        simp [this]
    rw [hdrop]
    refine ⟨?_, htail⟩
    cases needed with
    | false => simp
    | true => simp [List.replicate_succ]

/-- Conversely, the entries of a word may be put before those of the words that follow. -/
theorem followsWords_replicate {p : Param} {needed : Bool} {rest : List (Param × Bool)} (hp : p ∉ rest.map Prod.fst)
    {tail : List Param} (h : followsWords rest tail = true) (n : Nat) :
    followsWords ((p, needed) :: rest) (List.replicate (n + needed.toNat) p ++ tail) = true :=
  (followsWords_cons hp _).mpr ⟨n, tail, rfl, h⟩

/-- No words, no names. -/
theorem followsWords_nil (names : List Param) : followsWords [] names = true ↔ names = [] := List.isEmpty_iff

/-- The first run, then the others. -/
theorem nameRuns_cons (n : Nat) (p : Param) (rest : List (Nat × Param)) :
    nameRuns ((n, p) :: rest) = List.replicate n p ++ nameRuns rest := rfl

/-- No run, no names. -/
theorem nameRuns_nil : nameRuns [] = [] := rfl

/-- The names of step 6 (R184(a)). -/
theorem wordsOk_six (names : List Param) : wordsOk 6 names = true ↔ ∃ i j k l, names = .cmdFuncsetExt ::
    nameRuns [(i + 1, .cmdOledEnable), (j, .cmdSetClock), (k + 1, .valClock), (l + 1, .cmdOledDisable)] := by
  rw [wordsOk, step6Words, Bool.and_eq_true]
  constructor
  · rintro ⟨hhead, htail⟩
    simp (disch := decide) only [followsWords_cons, followsWords_nil] at htail
    obtain ⟨i, _, hi, j, _, rfl, k, _, rfl, l, _, rfl, rfl⟩ := htail
    refine ⟨i, j, k, l, ?_⟩
    cases names with
    | nil => cases hhead
    | cons a rest => simpa [nameRuns_cons, nameRuns_nil] using And.intro (by simpa using hhead) hi
  · rintro ⟨i, j, k, l, rfl⟩
    refine ⟨rfl, ?_⟩
    have h1 := followsWords_replicate (p := .cmdOledDisable) (needed := true) (by decide) ((followsWords_nil []).mpr rfl) l
    have h2 := followsWords_replicate (p := .valClock) (needed := true) (by decide) h1 k
    have h3 := followsWords_replicate (p := .cmdSetClock) (needed := false) (by decide) h2 j
    exact followsWords_replicate (p := .cmdOledEnable) (needed := true) (by decide) h3 i

/-- The names of step 10 (R184(a)). -/
theorem wordsOk_ten (names : List Param) : wordsOk 10 names = true ↔ ∃ i j k l m n o p q r s t, names = nameRuns
    [(i + 1, .cmdOledEnable), (j, .cmdSetSegHw), (k + 1, .valSegHw), (l + 1, .cmdFuncSelC), (m + 1, .valFuncC),
     (n, .cmdSetContrast), (o + 1, .valContrast), (p, .cmdSetPhase), (q + 1, .valPhase), (r, .cmdSetVcomh),
     (s + 1, .valVcomh), (t + 1, .cmdOledDisable)] := by
  rw [wordsOk, step10Words]
  constructor
  · intro h
    simp (disch := decide) only [followsWords_cons, followsWords_nil] at h
    obtain ⟨i, _, rfl, j, _, rfl, k, _, rfl, l, _, rfl, m, _, rfl, n, _, rfl, o, _, rfl, p, _, rfl, q, _, rfl, r, _, rfl,
      s, _, rfl, t, _, rfl, rfl⟩ := h
    exact ⟨i, j, k, l, m, n, o, p, q, r, s, t, rfl⟩
  · rintro ⟨i, j, k, l, m, n, o, p, q, r, s, t, rfl⟩
    have h1 := followsWords_replicate (p := .cmdOledDisable) (needed := true) (by decide) ((followsWords_nil []).mpr rfl) t
    have h2 := followsWords_replicate (p := .valVcomh) (needed := true) (by decide) h1 s
    have h3 := followsWords_replicate (p := .cmdSetVcomh) (needed := false) (by decide) h2 r
    have h4 := followsWords_replicate (p := .valPhase) (needed := true) (by decide) h3 q
    have h5 := followsWords_replicate (p := .cmdSetPhase) (needed := false) (by decide) h4 p
    have h6 := followsWords_replicate (p := .valContrast) (needed := true) (by decide) h5 o
    have h7 := followsWords_replicate (p := .cmdSetContrast) (needed := false) (by decide) h6 n
    have h8 := followsWords_replicate (p := .valFuncC) (needed := true) (by decide) h7 m
    have h9 := followsWords_replicate (p := .cmdFuncSelC) (needed := true) (by decide) h8 l
    have h10 := followsWords_replicate (p := .valSegHw) (needed := true) (by decide) h9 k
    have h11 := followsWords_replicate (p := .cmdSetSegHw) (needed := false) (by decide) h10 j
    exact followsWords_replicate (p := .cmdOledEnable) (needed := true) (by decide) h11 i

/-! ### The whole check -/

/-- What a table without a flaw has passed. -/
theorem romFlaw_eq_none (rom : List SeqEntry) :
    romFlaw rom = none ↔
      stepsInOrder rom = true ∧ (∀ e ∈ rom, e.initStep ∈ romStepNumbers) ∧
      (∀ n ∈ romStepNumbers, wordsOk n (stepNames rom n) = true) ∧ (∀ e ∈ rom, entryOk e = true) ∧
      sameCode rom .cmdFuncsetExt = true ∧ sameCode rom .cmdFuncsetFund = true := by
  unfold romFlaw
  split
  · next h =>
    simp only [reduceCtorEq, false_iff]
    rintro ⟨h1, h2, -⟩
    simp [h1] at h
    obtain ⟨e, he, hn⟩ := h
    exact hn (h2 e he)
  · next h =>
    have hord : stepsInOrder rom = true ∧ ∀ e ∈ rom, e.initStep ∈ romStepNumbers := by simpa using h
    rw [← and_assoc, and_iff_right hord]
    split
    · next n hn =>
      simp only [reduceCtorEq, false_iff]
      rintro ⟨hall, -⟩
      have := List.find?_some hn
      simp [hall n (List.mem_of_find?_eq_some hn)] at this
    · next hn =>
      rw [and_iff_right (by simpa using List.find?_eq_none.mp hn)]
      split
      · next e he =>
        simp only [reduceCtorEq, false_iff]
        rintro ⟨hall, -⟩
        have := List.find?_some he
        simp [hall e (List.mem_of_find?_eq_some he)] at this
      · next he =>
        rw [and_iff_right (by simpa using List.find?_eq_none.mp he)]
        simp

/-- No step stands before an earlier one. -/
theorem stepsInOrder_iff (rom : List SeqEntry) :
    stepsInOrder rom = true ↔ rom.Pairwise (fun e f => e.initStep ≤ f.initStep) := by
  induction rom with
  | nil => simp [stepsInOrder]
  | cons e l ih =>
    cases l with
    | nil => simp [stepsInOrder]
    | cons f l =>
      simp only [stepsInOrder, Bool.and_eq_true, decide_eq_true_eq, ih]
      simp only [List.pairwise_cons, List.mem_cons, forall_eq_or_imp]
      constructor
      · rintro ⟨h, h1, h2⟩
        exact ⟨⟨h, fun a ha => h.trans (h1 a ha)⟩, h1, h2⟩
      · rintro ⟨⟨h, _⟩, h1, h2⟩
        exact ⟨h, h1, h2⟩

/-- Any two entries of the name have one code. -/
theorem sameCode_iff (rom : List SeqEntry) (p : Param) :
    sameCode rom p = true ↔ ∀ e ∈ rom, ∀ f ∈ rom, e.param = p → f.param = p → e.code = f.code := by
  unfold sameCode
  have hm : ∀ e, e ∈ rom.filter (fun e => e.param == p) ↔ e ∈ rom ∧ e.param = p := by simp
  split
  · next h =>
    rw [h] at hm
    simp only [List.not_mem_nil, false_iff, not_and] at hm
    simp only [true_iff]
    intro e he _ _ hp
    exact absurd hp (hm e he)
  · next e rest h =>
    rw [h] at hm
    simp only [List.all_eq_true, beq_iff_eq]
    constructor
    · intro hc a ha b hb hap hbp
      have h1 := (hm a).mpr ⟨ha, hap⟩
      have h2 := (hm b).mpr ⟨hb, hbp⟩
      simp only [List.mem_cons] at h1 h2
      rcases h1 with rfl | h1 <;> rcases h2 with rfl | h2 <;> simp_all
    · intro hc f hf
      have h1 := (hm f).mp (by simp [hf])
      have h2 := (hm e).mp (by simp)
      exact hc f h1.1 e h2.1 h1.2 h2.2

/-! ### What an entry of a given name must be -/

/-- Data for the two data bytes, command for every other name (R184(b)). -/
theorem eq_paramKind_iff (p : Param) (k : Kind) :
    k = paramKind p ↔ (k = .data ↔ p = .datVreg ∨ p = .datRomCgram) := by
  cases p <;> cases k <;> decide

/-- The two pauses (R184(e), (i)). -/
theorem eq_pauseAfter_iff (p : Param) (a : After) :
    a = pauseAfter p ↔ (a = .clear ↔ p = .cmdClear) ∧ (a = .stable ↔ p = .cmdDisplayOn) := by
  cases p <;> cases a <;> decide

/-- Which entries depend on the geometry (R184(c), (d)), and the three fixed bytes (R184(e), (f), (g)). -/
theorem codeOk_iff (p : Param) (c : Code) : codeOk p c = true ↔
    ((∃ b, c = .rowBit b) ↔ p = .cmdFuncsetExt ∨ p = .cmdFuncsetFund) ∧
    ((∃ a b, c = .rowsAboveTwo a b) ↔ p = .cmdExtFuncset) ∧
    (p = .cmdClear → c = .fixed 0x01#8) ∧ (p = .cmdHome → c = .fixed 0x80#8) ∧ (p = .valContrast → c = .fixed 0x7F#8) := by
  have h1 : ∀ b, codeOk p (.fixed b) = true ↔ (p ≠ .cmdFuncsetExt ∧ p ≠ .cmdFuncsetFund) ∧ p ≠ .cmdExtFuncset ∧
      (fixedByte p = none ∨ fixedByte p = some b) := by simp [codeOk, isFuncset, and_assoc]
  have h2 : ∀ b, codeOk p (.rowBit b) = true ↔ p = .cmdFuncsetExt ∨ p = .cmdFuncsetFund := by simp [codeOk, isFuncset]
  have h3 : ∀ a b, codeOk p (.rowsAboveTwo a b) = true ↔ p = .cmdExtFuncset := by simp [codeOk]
  have h4 : ∀ b, (fixedByte p = none ∨ fixedByte p = some b) ↔
      (p = .cmdClear → b = 0x01#8) ∧ (p = .cmdHome → b = 0x80#8) ∧ (p = .valContrast → b = 0x7F#8) := by
    intro b
    unfold fixedByte
    split_ifs with a1 a2 a3 <;> simp_all <;> exact eq_comm
  cases c with
  | fixed b => rw [h1, h4]; simp
  | rowBit b => cases p <;> simp [h2]
  | rowsAboveTwo a b => cases p <;> simp [h3]

/-- An entry is checked exactly as R184(b) to (i) says of its name. -/
theorem entryOk_iff (e : SeqEntry) : entryOk e = true ↔
    (e.kind = .data ↔ e.param = .datVreg ∨ e.param = .datRomCgram) ∧
    (((∃ b, e.code = .rowBit b) ↔ e.param = .cmdFuncsetExt ∨ e.param = .cmdFuncsetFund) ∧
    ((∃ a b, e.code = .rowsAboveTwo a b) ↔ e.param = .cmdExtFuncset) ∧
    (e.param = .cmdClear → e.code = .fixed 0x01#8) ∧ (e.param = .cmdHome → e.code = .fixed 0x80#8) ∧
    (e.param = .valContrast → e.code = .fixed 0x7F#8)) ∧
    (e.after = .clear ↔ e.param = .cmdClear) ∧ (e.after = .stable ↔ e.param = .cmdDisplayOn) := by
  simp only [entryOk, Bool.and_eq_true, decide_eq_true_eq, eq_paramKind_iff, eq_pauseAfter_iff, codeOk_iff, and_assoc]

/-! ### The steps of a table -/

/-- A table whose steps never go back is its steps' entries, step after step. -/
theorem rom_eq_steps {rom : List SeqEntry} {first count : Nat} (ho : rom.Pairwise (fun e f => e.initStep ≤ f.initStep))
    (hs : ∀ e ∈ rom, first ≤ e.initStep ∧ e.initStep < first + count) :
    rom = (List.range' first count).flatMap (fun n => rom.filter (fun e => e.initStep == n)) := by
  induction count generalizing rom first with
  | zero =>
    cases rom with
    | nil => rfl
    | cons e l => have := hs e (by simp); omega
  | succ count ih =>
    have hsplit : ∀ l : List SeqEntry, l.Pairwise (fun e f => e.initStep ≤ f.initStep) → (∀ e ∈ l, first ≤ e.initStep) →
        l = l.filter (fun e => e.initStep == first) ++ l.filter (fun e => decide (first < e.initStep)) := by
      intro l
      induction l with
      | nil => intros; rfl
      | cons e l ihl =>
        intro hp hl
        rw [List.pairwise_cons] at hp
        have hrest := ihl hp.2 (fun f hf => hl f (by simp [hf]))
        by_cases he : e.initStep = first
        · simpa [he] using hrest
        · have hlt : first < e.initStep := by have := hl e (by simp); omega
          have hnone : l.filter (fun e => e.initStep == first) = [] := by
            rw [List.filter_eq_nil_iff]
            intro f hf
            have := hp.1 f hf
            simp; omega
          rw [hnone, List.nil_append] at hrest
          simp [he, hlt, hnone, ← hrest]
    have hrest := ih (rom := rom.filter (fun e => decide (first < e.initStep))) (first := first + 1)
      (ho.sublist List.filter_sublist) (fun e he => by
        simp only [List.mem_filter, decide_eq_true_eq] at he
        have := hs e he.1
        omega)
    rw [List.range'_succ, List.flatMap_cons]
    conv_lhs => rw [hsplit rom ho (fun e he => (hs e he).1), hrest]
    congr 1
    refine List.flatMap_congr fun n hn => ?_
    rw [List.filter_filter]
    refine List.filter_congr fun e he => ?_
    have : first < n := by have := (List.mem_range'_1.mp hn).1; omega
    simp only [Bool.and_eq_left_iff_imp, beq_iff_eq, decide_eq_true_eq]
    omega

/-- A table that keeps R184 is its steps 2 to 13, one after the other. -/
theorem KeepsR184.eq_steps {rom : List SeqEntry} (h : KeepsR184 rom) :
    rom = (List.range' 2 12).flatMap (fun n => rom.filter (fun e => e.initStep == n)) :=
  rom_eq_steps h.order fun e he => by
    have := h.steps e he
    omega

/-- A step with one name has one entry. -/
theorem stepNames_one {rom : List SeqEntry} {n : Nat} {p : Param} (h : stepNames rom n = [p]) :
    ∃ e, rom.filter (fun e => e.initStep == n) = [e] ∧ e.param = p := by
  obtain ⟨e, rest, he, hp, hrest⟩ := List.map_eq_cons_iff.mp h
  exact ⟨e, by rw [he, List.map_eq_nil_iff.mp hrest], hp⟩

/-- A step with two names has two entries. -/
theorem stepNames_two {rom : List SeqEntry} {n : Nat} {p q : Param} (h : stepNames rom n = [p, q]) :
    ∃ e f, rom.filter (fun e => e.initStep == n) = [e, f] ∧ e.param = p ∧ f.param = q := by
  obtain ⟨e, rest, he, hp, hrest⟩ := List.map_eq_cons_iff.mp h
  obtain ⟨f, last, rfl, hq, hlast⟩ := List.map_eq_cons_iff.mp hrest
  exact ⟨e, f, by rw [he, List.map_eq_nil_iff.mp hlast], hp, hq⟩

/-- An entry's name is among those of its step. -/
theorem mem_stepNames {rom : List SeqEntry} {e : SeqEntry} (he : e ∈ rom) : e.param ∈ stepNames rom e.initStep :=
  List.mem_map_of_mem (List.mem_filter.mpr ⟨he, by simp⟩)

end Sys2Proof.Machine
end

