-- ==== Sys2Proof/Laws/SharedLines.lean ====
section
/-! SUPPORT. The data and clock lines of an encoder alone on its link: the event of the position keeps them where the
    position says. -/

namespace Sys2Proof.Machine

/-- Loading the next entry: the position is one with both shared lines idle. -/
theorem Encoder.nextEntry_idleLines (e : Encoder) :
    e.nextEntry.phase.clockHigh = true ∧ e.nextEntry.dataLevel = false := by
  unfold Encoder.nextEntry
  split
  · rcases frameStartPhase_cases e.cfg with ⟨h1, h2⟩ | ⟨h1, h2⟩ <;> simp [h2, Phase.clockHigh, Encoder.dataLevel]
  · split <;> simp [Phase.clockHigh, Encoder.dataLevel]

/-- The end of a frame: the position is one with both shared lines idle. -/
theorem Encoder.frameDone_idleLines (e : Encoder) :
    e.frameDone.phase.clockHigh = true ∧ e.frameDone.dataLevel = false := by
  unfold Encoder.frameDone
  split
  case h_1 | h_2 => simp [Phase.clockHigh, Encoder.dataLevel]
  all_goals
    split
    · exact Encoder.nextEntry_idleLines _
    · simp [Phase.clockHigh, Encoder.dataLevel]

/-- The last slot of a frame is 0 (30_encoding.md R96). -/
theorem frameWord_last (dc b) : frameSlot (frameWord dc b) 23 = false := by revert dc b; decide

/-- The data line after an event. -/
def sdoAfter (v : Level) : Event → Level
  | .set .sdo w => some w
  | _ => v
/-- The clock line after an event. -/
def sclkAfter (v : Level) : Event → Level
  | .set .sclk w => some w
  | _ => v

/-- The data line after the event of the position. -/
theorem State.afterEvent_sdo (s : State) (ev) : (s.afterEvent ev).sdo = sdoAfter s.sdo ev := by
  cases ev with
  | set l v => cases l <;> simp [State.afterEvent, State.applyEvent, State.setLevel, sdoAfter]
  | dir l => simp [State.afterEvent, State.applyEvent, sdoAfter]
  | waitUs => simp [State.afterEvent, State.applyEvent, sdoAfter]
  | waitMs => simp [State.afterEvent, State.applyEvent, sdoAfter]
/-- The clock line after the event of the position. -/
theorem State.afterEvent_sclk (s : State) (ev) : (s.afterEvent ev).sclk = sclkAfter s.sclk ev := by
  cases ev with
  | set l v => cases l <;> simp [State.afterEvent, State.applyEvent, State.setLevel, sclkAfter]
  | dir l => simp [State.afterEvent, State.applyEvent, sclkAfter]
  | waitUs => simp [State.afterEvent, State.applyEvent, sclkAfter]
  | waitMs => simp [State.afterEvent, State.applyEvent, sclkAfter]

/-- Whether an event that sets a shared line agrees with the given levels. -/
def lineEffect (sdo sclk : Level) : Event → Bool
  | .set .sdo v => decide (sdo = some v)
  | .set .sclk v => decide (sclk = some v)
  | _ => true

/-- LINK_SETUP and PARK set the shared lines to their idle levels only. -/
theorem idleLevel_of_mem (c : Config) (ev) (h : ev ∈ linkSetupEvents c ∨ ev ∈ parkEvents c) :
    (∀ v, ev = .set .sdo v → v = false) ∧ (∀ v, ev = .set .sclk v → v = true) := by
  unfold linkSetupEvents parkEvents at h
  cases c.csPresent <;> cases c.resPresent <;> simp at h <;> (constructor <;> intro v hv <;> subst hv <;> simp_all)

/-- LINK_SETUP and PARK keep idle shared lines idle. -/
theorem idleLevels_kept (sdo sclk : Level) (c : Config) (ev) (h : ev ∈ linkSetupEvents c ∨ ev ∈ parkEvents c) :
   (sdo = some false → sdoAfter sdo ev = some false) ∧ (sclk = some true → sclkAfter sclk ev = some true) := by
  obtain ⟨h1, h2⟩ := idleLevel_of_mem c ev h
  cases ev with
  | set l v => cases l <;> simp_all [sdoAfter, sclkAfter]
  | _ => simp [sdoAfter, sclkAfter]

/-- The events of LINK_SETUP that have taken effect on the shared lines, one more. -/
theorem lineEffect_succ (sdo sclk : Level) (c : Config) (ev : Event) (n : Nat) (hget : (linkSetupEvents c)[n]? = some ev)
   (h : ((linkSetupEvents c).take n).all (lineEffect sdo sclk) = true) :
   ((linkSetupEvents c).take (n+1)).all (lineEffect (sdoAfter sdo ev) (sclkAfter sclk ev)) = true := by
  have h1 : (linkSetupEvents c).take (n+1) = (linkSetupEvents c).take n ++ [ev] := by
    rw [List.take_add_one, hget]; rfl
  rw [h1, List.all_append]
  have hev : ev ∈ linkSetupEvents c := List.mem_of_getElem? hget
  obtain ⟨k1, k2⟩ := idleLevels_kept sdo sclk c ev (.inl hev)
  simp only [List.all_cons, List.all_nil, Bool.and_true, Bool.and_eq_true]
  constructor
  · rw [List.all_eq_true] at *
    intro x hx
    have hxe := h x hx
    have hxl := idleLevel_of_mem c x (.inl (List.mem_of_mem_take hx))
    cases x with
    | set l v =>
      cases l with
      | sdo => have := hxl.1 v rfl; subst this; simp [lineEffect] at *; exact k1 hxe
      | sclk => have := hxl.2 v rfl; subst this; simp [lineEffect] at *; exact k2 hxe
      | _ => rfl
    | _ => rfl
  · cases ev with
    | set l v => cases l <;> simp [lineEffect, sdoAfter, sclkAfter]
    | _ => rfl

/-- `sharedLinesOk` of an encoder that has not faulted. -/
theorem State.sharedLinesOk_iff (s : State) (hf : s.enc.fault = false) : s.sharedLinesOk = true ↔
   (s.enc.phase.isSetup = true → ((linkSetupEvents s.enc.cfg).take s.enc.sub.toNat).all
       (lineEffect s.sdo s.sclk) = true) ∧
   (s.enc.configured = true → s.sclk = some s.enc.phase.clockHigh ∧ s.sdo = some s.enc.dataLevel) := by
  have : s.hasSharedEffect = lineEffect s.sdo s.sclk := by
    funext ev; cases ev with
    | set l v => cases l <;> rfl
    | _ => rfl
  unfold State.sharedLinesOk
  rw [this, hf]
  cases s.enc.phase.isSetup <;> cases s.enc.configured <;> simp

/-- An event keeps the shared lines where the position says, for an encoder alone on its link. -/
theorem State.sharedLinesOk_afterEvent (s : State) (ev) (hf : s.enc.flagsOk = true) (hp : s.enc.positionOk = true)
    (ho : s.enc.ownLinesOk = true) (hs : s.sharedLinesOk = true) (hn : s.enc.nextEvent = some ev) :
    (s.afterEvent ev).sharedLinesOk = true := by
  have hr := Encoder.running_of_flagsOk s.enc hf (Encoder.inProgress_of_nextEvent hn)
  have hin := Encoder.inProgress_of_nextEvent hn
  obtain ⟨-, q2, -⟩ := Encoder.ownLinesOk_elim hr.fault ho
  obtain ⟨s1, s2, s3, s4, s5, s6, s7, s8, s9, s10, s11, s12⟩ := Encoder.withEffect_same s.enc ev
  rw [State.sharedLinesOk_iff _ hr.fault] at hs
  obtain ⟨r1, r2⟩ := hs
  have hsame := ((s.enc.withEffect ev).record ev).advance_same
  have hconf := ((s.enc.withEffect ev).record ev).advance_configured
  rw [State.sharedLinesOk_iff _ (by rw [State.afterEvent_enc, hsame.fault]; simpa [s5] using hr.fault),
      State.afterEvent_enc, State.afterEvent_sdo, State.afterEvent_sclk, hsame.cfg]
  simp only [Encoder.record_configured, Encoder.record_phase, Encoder.record_cfg, Encoder.record_sub, s1, s2, s3,
      s4] at hconf
  simp only [Encoder.record_cfg, s2]
  by_cases hph : s.enc.phase = .setup
  · have hget := Encoder.nextEvent_of_setup hn hph
    have hall := lineEffect_succ _ _ _ _ _ hget (r1 (by simp [hph, Phase.isSetup]))
    have h8 := linkSetupEvents_length_le s.enc.cfg
    have hlt := (List.getElem?_eq_some_iff.1 hget).1
    have hid := idleLevels_kept s.sdo s.sclk s.enc.cfg ev (.inl (List.mem_of_getElem? hget))
    unfold Encoder.advance
    simp only [Encoder.record_phase, s1, hph, Encoder.record_sub, s3, Encoder.record_cfg, s2]
    split
    · have hsub : (s.enc.sub + 1#3).toNat = s.enc.sub.toNat + 1 := by rw [BitVec.toNat_add]; simp; omega
      refine ⟨fun _ => by simpa [s3, hsub] using hall, ?_⟩
      intro hc
      have hc : s.enc.configured = true := by simpa [s4] using hc
      obtain ⟨a1, a2⟩ := r2 hc
      simp only [hph, Phase.clockHigh, Encoder.dataLevel] at a1 a2
      simp [s1, hph, Phase.clockHigh, Encoder.dataLevel, hid.1 a2, hid.2 a1]
    · rw [List.take_of_length_le (by omega)] at hall
      rw [List.all_eq_true] at hall
      have e1 : sdoAfter s.sdo ev = some false :=
          by simpa [lineEffect] using hall (.set .sdo false) (by simp [linkSetupEvents])
      have e2 : sclkAfter s.sclk ev = some true :=
          by simpa [lineEffect] using hall (.set .sclk true) (by simp [linkSetupEvents])
      obtain ⟨b1, b2⟩ := Encoder.nextEntry_idleLines ((((s.enc.withEffect ev).record ev).setConfigured).setSeqPc 0)
      have b3 := (Encoder.nextEntry_outside ((((s.enc.withEffect ev).record ev).setConfigured).setSeqPc 0)).1
      refine ⟨fun h => (by rw [b3] at h; cases h), fun _ => by rw [b1, b2, e1, e2]; simp⟩
  · have hcfg : s.enc.configured = true := by
      rcases q2 hin with h | h
      · exfalso; revert h hph; cases s.enc.phase <;> simp [Phase.isSetup]
      · exact h
    obtain ⟨a1, a2⟩ := r2 hcfg
    have nl := Encoder.nextEntry_idleLines ((s.enc.withEffect ev).record ev)
    have np := (Encoder.nextEntry_outside ((s.enc.withEffect ev).record ev)).1
    have fl := Encoder.frameDone_idleLines ((s.enc.withEffect ev).record ev)
    have fp := (Encoder.frameDone_outside ((s.enc.withEffect ev).record ev)).1
    suffices h : ((s.enc.withEffect ev).record ev).advance.phase.isSetup = false ∧
        sclkAfter s.sclk ev = some ((s.enc.withEffect ev).record ev).advance.phase.clockHigh ∧
            sdoAfter s.sdo ev = some ((s.enc.withEffect ev).record ev).advance.dataLevel by
      refine ⟨fun h' => (by rw [h.1] at h'; cases h'), fun _ => h.2⟩
    clear hconf hsame
    have hn' := hn
    unfold Encoder.nextEvent at hn
    unfold Encoder.advance
    simp only [Encoder.record_phase, s1, Encoder.record_cfg, s2, Encoder.record_sub, s3, Encoder.record_slot, s7]
    split at hn <;> rename_i h <;> try (cases hn; done)
    case h_2 => exact absurd h hph
    case h_3 =>
      simp only [h, Phase.clockHigh, Encoder.dataLevel] at a1 a2
      refine ⟨np, ?_, ?_⟩
      · rw [nl.1]; cases hd : s.enc.dueAfter <;> simp [afterEvents, hd] at hn <;> subst hn <;> exact a1
      · rw [nl.2]; cases hd : s.enc.dueAfter <;> simp [afterEvents, hd] at hn <;> subst hn <;> exact a2
    case h_4 =>
      split at hn
      · cases hn
        simp only [h, Phase.clockHigh, Encoder.dataLevel] at a1 a2
        simp [Phase.isSetup, Phase.clockHigh, Encoder.dataLevel, sdoAfter, sclkAfter, a1, a2]
      · cases hn
    case h_5 =>
      split at hn
      · cases hn
        simp only [h, Phase.clockHigh] at a1
        simp [Phase.isSetup, Phase.clockHigh, Encoder.dataLevel, sdoAfter, sclkAfter, a1, Encoder.withEffect]
      · cases hn
    case h_9 =>
      cases hn
      simp only [h, Phase.clockHigh, Encoder.dataLevel] at a1 a2
      simp only [sdoAfter, sclkAfter]
      split
      · rename_i hlt
        have hsl : (s.enc.slot + 1#5).toNat = s.enc.slot.toNat + 1 := by rw [BitVec.toNat_add]; simp; omega
        refine ⟨by simp [Phase.isSetup], by simp [Phase.clockHigh, a1], ?_⟩
        simp [Encoder.dataLevel, Encoder.withEffect, hsl, a2]
      · have h23 : s.enc.slot.toNat = 23 := by have := hr.slot; omega
        have hok := Encoder.frameOk_of_positionOk hp (by simp [h, Phase.ofFrame])
        have hfr : frameSlot s.enc.frame 23 = false := by
          simp [Encoder.frameOk] at hok; rw [hok.1]; exact frameWord_last _ _
        rw [h23, hfr] at a2
        split
        · simp [Phase.isSetup, Phase.clockHigh, Encoder.dataLevel, a1, a2]
        · exact ⟨fp, by rw [fl.1]; exact a1, by rw [fl.2]; exact a2⟩
    case h_10 =>
      split at hn
      · cases hn
        simp only [h, Phase.clockHigh, Encoder.dataLevel] at a1 a2
        exact ⟨fp, by rw [fl.1]; exact a1, by rw [fl.2]; exact a2⟩
      · cases hn
    case h_11 =>
      have hid := idleLevels_kept s.sdo s.sclk s.enc.cfg ev (.inr (List.mem_of_getElem? hn))
      simp only [h, Phase.clockHigh, Encoder.dataLevel] at a1 a2
      split <;> simp [s1, h, Phase.isSetup, Phase.clockHigh, Encoder.dataLevel, hid.1 a2, hid.2 a1]
    all_goals
      cases hn
      simp only [h, Phase.clockHigh, Encoder.dataLevel] at a1 a2
      simp [Phase.isSetup, Phase.clockHigh, Encoder.dataLevel, sdoAfter, sclkAfter, a1, a2, Encoder.withEffect]

end Sys2Proof.Machine
end

