-- ==== Sys2Proof/Laws/Step.lean ====
section
/-! SUPPORT. Everything a step can do, said once. -/

namespace Sys2Proof.Machine

/-- A step of a machine whose configurations are well formed is its act. -/
theorem step_eq_act {s : State} (hc : s.configFlaw = none) (hs : s.sharingOk = true) : step s = s.act := by
  simp [step, State.stepOnce, hc, hs]

/-- Nothing outside is due if nothing is listed or the next act is `run`. -/
theorem State.undisturbed_iff (s : State) : s.Undisturbed ↔ s.outside.head? = none ∨ s.outside.head? = some .run := by
  cases h : s.outside <;> simp [State.Undisturbed, State.UndisturbedFor, h]

/-- What is due at the next steps is due, from the second on, at the steps after the first. -/
theorem State.UndisturbedFor.spendAct {s : State} {n : Nat} (h : s.UndisturbedFor (n + 1)) :
    s.Undisturbed ∧ s.spendAct.UndisturbedFor n := by
  cases ho : s.outside <;> simp [State.Undisturbed, State.UndisturbedFor, State.spendAct, ho] at h ⊢
  exact h

/-- A step with nothing outside due is the acting instance's, the act spent. -/
theorem step_undisturbed {s : State} (hc : s.ConfigWF) (hu : s.Undisturbed) : step s = s.spendAct.cycle := by
  rw [step_eq_act hc.1 hc.2, State.act]
  rcases s.undisturbed_iff.mp hu with h | h <;> rw [h]

/-- A step answers a next state only if every configuration is well formed. -/
theorem step_next {s t : State} (h : step s = .next t) :
    s.configFlaw = none ∧ s.sharingOk = true ∧ s.act = .next t := by
  unfold step State.stepOnce at h
  split at h
  · cases h
  · split at h
    · exact ⟨‹_›, ‹_›, h⟩
    · cases h

/-- What the acting instance's step can be: the host's turn or a stutter of an idle or faulted encoder, an accepted or
refused request, or an event. -/
theorem State.cycle_next {s t : State} (h : s.cycle = .next t) :
    (s.enc.fault = true ∧ t = s) ∨
    (s.enc.fault = false ∧ s.enc.busy = true ∧ s.enc.atFrameStart = false ∧ s.emitNext = .next t) ∨
    (s.enc.fault = false ∧ s.enc.busy = true ∧ s.enc.atFrameStart = true ∧
      ∃ i, decodeFrame s.enc.frame = .ok i ∧ exec i s = .next t) ∨
    (s.enc.fault = false ∧ s.enc.busy = false ∧ s.enc.reqValid = true ∧
      exec (decodeRequest s.enc.reqWord) s = .next t) ∨
    (s.enc.fault = false ∧ s.enc.busy = false ∧ s.enc.reqValid = false ∧ t = { s with enc := s.enc.hostTurn }) := by
  unfold State.cycle at h
  cases hf : s.enc.fault with
  | true => simp [State.fetch, State.proceed, hf] at h; left; exact ⟨rfl, h.symm⟩
  | false =>
    right
    cases hb : s.enc.busy with
    | true =>
      cases ha : s.enc.atFrameStart with
      | false => simp [State.fetch, State.proceed, hf, hb, ha] at h; left; exact ⟨rfl, rfl, rfl, h⟩
      | true =>
        right; left
        simp only [State.fetch, hf, hb, ha, if_true, if_false, Bool.false_eq_true] at h
        cases hd : decodeFrame s.enc.frame with
        | error e => simp [hd] at h
        | ok i => simp only [hd] at h; exact ⟨rfl, rfl, rfl, i, rfl, h⟩
    | false =>
      right; right
      cases hv : s.enc.reqValid with
      | true =>
        simp only [State.fetch, hf, hb, hv, if_true, if_false, Bool.false_eq_true] at h
        left; exact ⟨rfl, rfl, rfl, h⟩
      | false =>
        simp [State.fetch, State.proceed, hf, hb, hv] at h
        right; exact ⟨rfl, rfl, rfl, h.symm⟩

/-- What the outside and the acting instance can do in a step. -/
theorem State.act_next {s t : State} (h : s.act = .next t) :
    (s.Undisturbed ∧ s.spendAct.cycle = .next t) ∨
    (s.outside.head? = some .reset ∧ t = s.spendAct.hardwareReset) ∨
    (∃ k, s.outside.head? = some (.resetPeer k) ∧ s.spendAct.hardwareResetPeer k = .next t) ∨
    (∃ k, s.outside.head? = some (.grant k) ∧ s.spendAct.grant k = .next t) := by
  unfold State.act at h
  rw [State.undisturbed_iff]
  split at h
  · exact .inl ⟨.inl ‹_›, h⟩
  · exact .inl ⟨.inr ‹_›, h⟩
  · cases h; exact .inr (.inl ⟨‹_›, rfl⟩)
  · exact .inr (.inr (.inl ⟨_, ‹_›, h⟩))
  · exact .inr (.inr (.inr ⟨_, ‹_›, h⟩))

end Sys2Proof.Machine
end

