-- ==== Sys2Proof/Tests/Slice0.lean ====
section
/-! SUPPORT. The model's own tests: the configuration check, words written out from the spec's encodings, single steps, and for
each statement with hypotheses a state that meets them all. Expected values come from spec/95_test_vectors.md and the
rules cited, not from a run of the model. -/

namespace Sys2Proof.Machine.Test

/-! ### The states the tests start from -/

/-- Four rows, both optional lines (95_test_vectors.md program P3). -/
def fullConfig : Config :=
  { configDefault with rows := 4, columns := 20, csPresent := true, resPresent := true }

/-- Launched, no optional lines. -/
def ready : State := launch configDefault

/-- Launched, both optional lines. -/
def readyFull : State := launch fullConfig

/-- Launched, without an InitSequencer. -/
def readyNoSeq : State := launch { configDefault with hasInitSeq := false }

/-- Accepted SEND_COMMAND 0x2D, nothing sent yet, no chip-select. -/
def frameStart : State := ready.loadFrame 0xF8B040#24

/-- The same with chip-select. -/
def frameStartFull : State := readyFull.loadFrame 0xF8B040#24

/-- Inside the first pulse of that frame (no chip-select), in the given phase and with the given clock level. -/
def inPulse (p : Phase) (clock : Bool) : State :=
  { frameStart with enc := frameStart.enc.goto p, sdo := some true, sclk := some clock }

/-- The start of INIT from reset. -/
def setupStart : State := { State.reset with enc := State.reset.enc.setBusy.startInit }

/-- In INIT, the pause after the clear frame due (42_init_sequencer.md R183 entry 27). -/
def clearPause : State :=
  { ready with enc := { ready.enc with op := .init, phase := .seq, seqPc := 28, busy := true } }

/-- A faulted encoder. -/
def faulted : State := { ready with enc := ready.enc.raisePlatformIOFailure }

/-- Two instances on one link, neither inside a frame. -/
def shared : State := { readyFull with peers := [readyFull.enc] }

/-- Two instances on one link, the acting one inside a frame: chip-select low, the first slot due. -/
def sharedMidFrame : State :=
  { shared with enc := { frameStartFull.enc.firstSlot with csLevel := some false } }

/-- The outside acts next. -/
def State.withOutside (s : State) (acts : List EnvAct) : State := { s with outside := acts }

/-- Launched, its host pausing before a request. -/
def pausing : State := { ready with enc := ready.enc.withPort false 0#10 [.waitMs 2, .request 0x080#10] }

/-- The environment fails the next event. -/
def State.failing (s : State) : State := { s with answers := [false] }

/-- The next state, if there is one. -/
def nextOf : Host.Outcome State Fault Refusal → Option State
  | .next t => some t
  | .fault _ => none
  | .refused _ => none

/-- The refusal, if it is one. -/
def refusalOf : Host.Outcome State Fault Refusal → Option Refusal
  | .next _ => none
  | .fault _ => none
  | .refused r => some r

theorem next_of_nextOf {o : Host.Outcome State Fault Refusal} (h : (nextOf o).isSome = true) : ∃ t, o = .next t := by
  cases o with
  | next t => exact ⟨t, rfl⟩
  | fault _ => cases h
  | refused _ => cases h

/-! ### Well-formedness: an ill-formed configuration for each check (60_exceptions.md R231, 95_test_vectors.md section 3.8) -/

theorem test_wf_verdicts : configDefault.WellFormed ∧ fullConfig.WellFormed ∧
    ({ configDefault with rows := 1, columns := 8 } : Config).WellFormed ∧
    ({ configDefault with rows := 3, columns := 20 } : Config).WellFormed := by decide

theorem test_illformed_rows : ({ configDefault with rows := 0 } : Config).flaw = some .rows ∧
    ({ configDefault with rows := 5 } : Config).flaw = some .rows := by decide

theorem test_illformed_columns : ({ configDefault with columns := 0 } : Config).flaw = some .columns := by decide

theorem test_illformed_settle : ({ configDefault with tSettleUs := 1 } : Config).flaw = some .settleTime ∧
    ({ configDefault with tSettleUs := 2 } : Config).flaw = some .settleTime := by decide

theorem test_illformed_clear : ({ configDefault with tClearMs := 1 } : Config).flaw = some .clearTime := by decide

theorem test_illformed_stable : ({ configDefault with tStableMs := 249 } : Config).flaw = some .stableTime := by decide

/-- The table under test with one entry replaced. -/
def romWith (k : Nat) (e : SeqEntry) : Config := { configDefault with seqRom := configDefault.seqRom.set k e }

/-- R184 bounds no table's length: with forty more frames for one setting of step 10 it is well formed. -/
theorem test_wf_long_table : ({ configDefault with
    seqRom := seqRomDefault.take 23 ++ List.replicate 40 (cmdEntry 10 .valPhase 0xF1#8) ++ seqRomDefault.drop 23 } : Config).flaw
      = none := by decide

/-- The order of the steps and of the words inside a step (42_init_sequencer.md R184(a)): an entry of a later step or of no
step, contrast before its set command, home left out, and step 5 left out. -/
theorem test_illformed_rom_order : (romWith 0 (rowBitEntry 6 .cmdFuncsetExt 0x22#8)).flaw = some .romOrder ∧
    (romWith 4 (cmdEntry 1 .cmdDisplayOff 0x08#8)).flaw = some .romOrder ∧
    romFlaw ((seqRomDefault.set 19 (cmdEntry 10 .valContrast 0x7F#8)).set 20 (cmdEntry 10 .cmdSetContrast 0x81#8))
      = some (.romStep 10) ∧
    (romWith 28 (cmdEntry 13 .cmdDisplayOn 0x0C#8)).flaw = some (.romStep 13) ∧
    romFlaw (seqRomDefault.eraseIdx 4) = some (.romStep 5) := by decide

/-- The three bytes the document gives, and the two pauses, cannot be changed (42_init_sequencer.md R184(e), (f), (g), (i)). -/
theorem test_illformed_rom_bytes : (romWith 27 (cmdEntry 12 .cmdClear 0x01#8)).flaw = some (.romEntry .cmdClear) ∧
    (romWith 28 (cmdEntry 13 .cmdHome 0x81#8)).flaw = some (.romEntry .cmdHome) ∧
    (romWith 29 (cmdEntry 13 .cmdDisplayOn 0x0C#8)).flaw = some (.romEntry .cmdDisplayOn) ∧
    (romWith 20 (cmdEntry 10 .valContrast 0x7E#8)).flaw = some (.romEntry .valContrast) := by decide

/-- A byte 0x7F elsewhere in step 10 is no contrast (42_init_sequencer.md R184(g)). -/
theorem test_illformed_rom_contrast :
    romFlaw ((seqRomDefault.set 14 (cmdEntry 10 .cmdOledEnable 0x7F#8)).set 20 (cmdEntry 10 .valContrast 0x00#8))
      = some (.romEntry .valContrast) ∧
    romFlaw ((seqRomDefault.set 16 (cmdEntry 10 .valSegHw 0x7F#8)).set 20 (cmdEntry 10 .valContrast 0x00#8))
      = some (.romEntry .valContrast) := by decide

/-- Kinds and geometry (42_init_sequencer.md R184(b), (c), (d), R186). -/
theorem test_illformed_rom_kinds : (romWith 0 (cmdEntry 2 .cmdFuncsetExt 0x22#8)).flaw = some (.romEntry .cmdFuncsetExt) ∧
    (romWith 2 (cmdEntry 3 .datVreg 0x5C#8)).flaw = some (.romEntry .datVreg) ∧
    (romWith 5 (rowBitEntry 6 .cmdFuncsetExt 0x23#8)).flaw = some (.romCode .cmdFuncsetExt) ∧
    (romWith 10 (cmdEntry 7 .cmdExtFuncset 0x09#8)).flaw = some (.romEntry .cmdExtFuncset) ∧
    (romWith 13 (cmdEntry 9 .datRomCgram 0x0A#8)).flaw = some (.romEntry .datRomCgram) ∧
    (romWith 26 (rowBitEntry 11 .cmdFuncsetFund 0x21#8)).flaw = some (.romCode .cmdFuncsetFund) := by decide

/-- Every instruction is well formed: no word of it is refused (30_encoding.md R111, R112). -/
theorem test_instr_wellFormed : (Instr.sendCommand 0xFF#8).wellFormed = true ∧ (Instr.init 0xFF#8).wellFormed = true ∧
    (Instr.wireDataFrame 0xFF#8).wellFormed = true := by decide

/-! ### Decoding: words written out bit by bit (95_test_vectors.md sections 2.1 to 2.3) -/

theorem test_decode_sendCommand : decodeTableWord 16 0b0000000001 = some (.sendCommand 0x01#8) ∧
    decodeTableWord 16 0b0010000000 = some (.sendCommand 0x80#8) := by decide

theorem test_decode_sendData : decodeTableWord 16 0b0101011010 = some (.sendData 0x5A#8) ∧
    decodeTableWord 16 0b0101001000 = some (.sendData 0x48#8) := by decide

theorem test_decode_init : decodeTableWord 16 0b1000000000 = some (.init 0x00#8) ∧
    decodeTableWord 16 0b1011111111 = some (.init 0xFF#8) := by decide

theorem test_decode_shutdown : decodeTableWord 16 0b1100000000 = some (.shutdown 0x00#8) ∧
    decodeTableWord 16 0b1111111111 = some (.shutdown 0xFF#8) := by decide

theorem test_decode_wireCommandFrame :
    decodeTableWord 24 0b111110001000000000000000 = some (.wireCommandFrame 0x01#8) ∧
    decodeTableWord 24 0b111110001111000011100000 = some (.wireCommandFrame 0x7F#8) := by decide

theorem test_decode_wireDataFrame :
    decodeTableWord 24 0b111110100101000010100000 = some (.wireDataFrame 0x5A#8) ∧
    decodeTableWord 24 0b111110101000000000100000 = some (.wireDataFrame 0x41#8) := by decide

theorem test_decode_rejects_by_name : decodeFrame 0x780000#24 = .error .startPattern ∧
    decodeFrame 0xFC0000#24 = .error .readWrite ∧ decodeFrame 0xF90000#24 = .error .endSlot ∧
    decodeFrame 0xF80800#24 = .error .filler ∧ decodeFrame 0xF80001#24 = .error .filler := by decide

theorem test_decode_rejects_length : decodeBytes [0#8] = .error .length ∧
    decodeBytes [0#8, 0x04#8] = .error .requestTooWide := by decide

/-- The representative payloads of 95_test_vectors.md E1. -/
theorem test_encode_payloads : payloadField 0x00#8 = 0x0000#24 ∧ payloadField 0xFF#8 = 0xF0F0#24 ∧
    payloadField 0x5A#8 = 0x50A0#24 ∧ payloadField 0x01#8 = 0x8000#24 ∧ payloadField 0x80#8 = 0x0010#24 := by decide

/-! ### The sequence table (42_init_sequencer.md R183, 95_test_vectors.md section 4) -/

theorem test_rom_rows2 : configDefault.seqRom.map (entryByte configDefault) =
    [0x2A#8, 0x71#8, 0x5C#8, 0x28#8, 0x08#8, 0x2A#8, 0x79#8, 0xD5#8, 0x70#8, 0x78#8, 0x08#8, 0x06#8, 0x72#8, 0x0A#8, 0x79#8]
      ++ [0xDA#8, 0x10#8, 0xDC#8, 0x00#8, 0x81#8, 0x7F#8, 0xD9#8, 0xF1#8, 0xDB#8, 0x40#8, 0x78#8, 0x28#8, 0x01#8, 0x80#8, 0x0C#8] := by
  decide

/-! ### What the host owes (70_reset_and_hazards.md R272, 95_test_vectors.md program P2) -/

theorem test_clear_duty : clearDutyKept configDefault (clearSequence configDefault ++ homeSequence) = true ∧
    clearDutyKept configDefault [.request 0x001#10, .request 0x080#10] = false ∧
    clearDutyKept configDefault [.request 0x001#10, .waitMs 1, .request 0x080#10] = false ∧
    clearDutyKept configDefault [.request 0x001#10, .waitMs 1, .waitMs 1, .request 0x080#10] = true ∧
    clearDutyKept configDefault [.request 0x001#10, .waitMs 1] = true ∧
    clearDutyKept configDefault [.request 0x101#10, .request 0x080#10] = true := by decide

/-- An operation's register bits are its request word's (30_encoding.md R110). -/
theorem test_op_bits : reqWord Op.sendData.bits 0x5A#8 = 0x15A#10 ∧ reqWord Op.shutdown.bits 0x00#8 = 0x300#10 := by decide

/-- 95_test_vectors.md section 3.4: the waveform of PARK from idle lines is empty, that of one slot has its two edges. -/
theorem test_waveform : waveform ⟨some false, some true, none, none⟩ (parkEvents configDefault) = [] ∧
    waveform ⟨some false, some true, none, none⟩ (sendBitEvents configDefault false)
      = [.set .sclk false, .waitUs 3, .set .sclk true, .waitUs 3] := by decide

/-! ### Single steps -/

/-- 95_test_vectors.md F-5: after a completed bring-up SEND_COMMAND is accepted. -/
theorem test_sendCommand_accepted :
    (nextOf (exec (.sendCommand 0x01#8) ready)).map (fun t => (t.enc.busy, t.enc.frame, t.enc.phase, t.enc.trace))
      = some (true, 0xF88000#24, .fData, []) := by decide

/-- 95_test_vectors.md F-2: before any INIT it is refused. -/
theorem test_sendCommand_refused : refusalOf (exec (.sendCommand 0x01#8) State.reset) = some .notConfigured := by decide

theorem test_sendData_accepted :
    (nextOf (exec (.sendData 0x5A#8) readyFull)).map (fun t => (t.enc.busy, t.enc.frame, t.enc.phase))
      = some (true, 0xFA50A0#24, .fCsLow) := by decide

/-- 95_test_vectors.md F-2: INIT is accepted from reset; its first event makes a line an output. -/
theorem test_init_accepted :
    (nextOf (exec (.init 0#8) State.reset)).map (fun t => (t.enc.busy, t.enc.phase, t.enc.nextEvent))
      = some (true, .setup, some (.dir .sdo)) := by decide

/-- 95_test_vectors.md F-3. -/
theorem test_init_refused : refusalOf (exec (.init 0#8) readyNoSeq) = some .noInitSequencer := by decide

/-- 95_test_vectors.md section 3.6: the first frame of SHUTDOWN for two rows is F81040. -/
theorem test_shutdown_accepted :
    (nextOf (exec (.shutdown 0#8) ready)).map (fun t => (t.enc.frame, t.enc.seqPc)) = some (0xF81040#24, 3) := by decide

theorem test_wireCommandFrame_first_event :
    (nextOf (exec (.wireCommandFrame 0x2D#8) frameStart)).map (fun t => (t.enc.trace, t.sdo)) = some ([.set .sdo true], some true)
    := by decide

/-- 95_test_vectors.md section 3.4: event 0 is `Set(CS,0)`. -/
theorem test_wireDataFrame_first_event :
    (nextOf (exec (.wireDataFrame 0x01#8) frameStartFull)).map (fun t => (t.enc.trace, t.enc.csLevel, t.enc.frame))
      = some ([.set .cs false], some false, 0xFA8000#24) := by decide

/-- A word placed for the next step is fetched and run by it. -/
theorem test_fetch_placed : (nextOf (step (State.reset.withFetchWord 16 0x200))).map (fun t => t.enc.op) = some .init ∧
    (nextOf (step (State.reset.withFetchWord 24 0xFA50A0))).map (fun t => (t.enc.payload, t.enc.trace))
      = some (0x5A#8, [.set .sdo true]) := by decide

/-- 60_exceptions.md R230: the code of a failed event. -/
theorem test_failed_event :
    (nextOf (step (State.failing frameStart))).map (fun t => (t.enc.fault, t.enc.faultCode, t.enc.busy, t.enc.trace))
      = some (true, 2#2, false, []) := by decide

/-! ### Witnesses: for each statement with hypotheses, states and operands that meet all of them -/

theorem test_witness_DecodingInvertsEncoding : (Instr.shutdown 0xFF#8).wellFormed = true := by decide

/-- At the last index of each of the four ranges of slots. -/
theorem test_witness_PayloadFieldSlotBySlot : (packPayload 0x88#8)[3]? = some true ∧ (packPayload 0x88#8)[7]? = some false ∧
    (packPayload 0x88#8)[11]? = some true ∧ (packPayload 0xFF#8)[15]? = some false := by decide

theorem test_witness_FrameNumberIsFrameList : (frameLevels true 0x01#8)[23]? = some ((frameWord true 0x01#8).getLsbD 0) ∧
    (frameLevels true 0x01#8)[0]? = some ((frameWord true 0x01#8).getLsbD 23) := by decide

/-- The fewest and the most slots at 1. -/
theorem test_witness_FrameSlotCounts : (frameLevels false 0x00#8).count true = 5 ∧ (frameLevels true 0xFF#8).count true = 14 := by
  decide

theorem test_witness_FrameDecoderAcceptsExactlyTheFrames : decodeFrame 0xFAF0F0#24 = .ok (.wireDataFrame 0xFF#8) := by decide

theorem test_witness_SendOperations : ready.enc.reqReady = true ∧ ready.enc.configured = true ∧
    readyFull.enc.reqReady = true ∧ readyFull.enc.configured = true := by decide

theorem test_witness_InitStartsItsSequence : State.reset.enc.reqReady = true ∧ State.reset.enc.cfg.hasInitSeq = true := by decide

theorem test_witness_ShutdownStartsItsSequence : ready.enc.reqReady = true ∧ ready.enc.configured = true ∧
    ready.enc.cfg.hasInitSeq = true ∧ ready.enc.cfg.WellFormed := by decide

theorem test_witness_WireFramesEmitTheirFirstEvent :
    (frameStart.enc.atFrameStart = true ∧ frameStart.LinkExclusive ∧ frameStart.answer = true) ∧
    (frameStartFull.enc.atFrameStart = true ∧ frameStartFull.LinkExclusive ∧ frameStartFull.answer = true) := by decide

/-- Busy, and faulted. -/
theorem test_witness_UnreadyEncoderAcceptsNothing : frameStart.enc.busy = true ∧ faulted.enc.fault = true := by decide

theorem test_witness_UnconfiguredRequestsAreRefused : State.reset.enc.reqReady = true ∧ State.reset.enc.configured = false ∧
    State.reset.enc.cfg.hasInitSeq = true := by decide

theorem test_witness_SequencerlessRequestsAreRefused : readyNoSeq.enc.reqReady = true ∧ readyNoSeq.enc.cfg.hasInitSeq = false := by
  decide

/-- Idle, and inside a pulse. -/
theorem test_witness_WireFramesElsewhereAreRefused : ready.enc.atFrameStart = false ∧
    (inPulse .fClkHigh false).enc.atFrameStart = false := by decide

theorem test_witness_StepRunsTheFetchedInstruction :
    ((ready.offer 0x15A#10).ConfigWF ∧ (ready.offer 0x15A#10).Undisturbed ∧ (ready.offer 0x15A#10).enc.reqReady = true ∧
      (ready.offer 0x15A#10).enc.reqValid = true) ∧
    (frameStart.ConfigWF ∧ frameStart.Undisturbed ∧ frameStart.enc.fault = false ∧ frameStart.enc.atFrameStart = true ∧
      decodeFrame frameStart.enc.frame = .ok (.wireCommandFrame 0x2D#8)) := by decide

theorem test_witness_RequestBitEightIsTheDataControlSlot :
    (ready.offer 0x15A#10).ConfigWF ∧ (ready.offer 0x15A#10).Undisturbed ∧ (ready.offer 0x15A#10).enc.reqReady = true ∧
      (ready.offer 0x15A#10).enc.reqValid = true ∧ (ready.offer 0x15A#10).enc.configured = true ∧
      (ready.offer 0x15A#10).enc.reqWord.getLsbD 9 = false := by decide

/-- The premises of a step that emits. -/
abbrev EmitsNext (s : State) (ev : Event) : Prop :=
  s.ConfigWF ∧ s.Undisturbed ∧ s.InOrder ∧ s.LinkExclusive ∧ s.enc.busy = true ∧ s.enc.nextEvent = some ev ∧ s.answer = true

theorem test_witness_StepEmitsOneEvent_set : EmitsNext frameStart (.set .sdo true) := by decide

/-- A step before a later reset: the outside's next act is `run` (70_reset_and_hazards.md R260). -/
theorem test_witness_StepEmitsOneEvent_run : EmitsNext (State.withOutside frameStart [.run, .reset]) (.set .sdo true) := by decide

theorem test_witness_StepEmitsOneEvent_dir : EmitsNext setupStart (.dir .sdo) := by decide

theorem test_witness_StepEmitsOneEvent_waitUs : EmitsNext (inPulse .fWaitLow false) (.waitUs 3) := by decide

theorem test_witness_StepEmitsOneEvent_waitMs : EmitsNext clearPause (.waitMs 2) := by decide

/-- Nothing left for the host to do, with nothing listed outside; and a pause and a request, with a later reset. -/
theorem test_witness_IdleStepChangesOnlyThePort :
    (ready.ConfigWF ∧ ready.Undisturbed ∧ ready.enc.busy = false ∧ ready.enc.fault = false ∧ ready.enc.reqValid = false ∧
      ready.enc.script = []) ∧
    ((State.withOutside pausing [.run, .reset]).ConfigWF ∧ (State.withOutside pausing [.run, .reset]).Undisturbed ∧
      (State.withOutside pausing [.run, .reset]).enc.busy = false ∧
      (State.withOutside pausing [.run, .reset]).enc.fault = false ∧
      (State.withOutside pausing [.run, .reset]).enc.reqValid = false) := by decide

/-- The idle step of a pausing host offers its next request and emits nothing. -/
theorem test_idle_step : (nextOf (step (State.withOutside pausing [.run, .reset]))).map
    (fun t => (t.enc.reqValid, t.enc.reqWord, t.enc.trace, t.outside)) = some (true, 0x080#10, [], [.reset]) := by decide

theorem test_witness_FailureAbandonsTheOperation :
    ((State.failing frameStart).ConfigWF ∧ (State.failing frameStart).Undisturbed ∧ (State.failing frameStart).InOrder ∧
      (State.failing frameStart).LinkExclusive ∧ (State.failing frameStart).enc.busy = true ∧
      (State.failing frameStart).answer = false) ∧
    (launch { configDefault with ioFallible := false }).enc.cfg.ioFallible = false := by decide

theorem test_witness_FailedFirstEventFaultsWireFrames : (State.failing frameStart).enc.atFrameStart = true ∧
    (State.failing frameStart).LinkExclusive ∧ (State.failing frameStart).answer = false := by decide

theorem test_witness_FaultIsLeftOnlyByReset : faulted.ConfigWF ∧ faulted.enc.fault = true ∧ faulted.outside = [] ∧
    (State.withOutside faulted [.run]).outside = .run :: [] ∧ (State.withOutside faulted [.run]).enc.fault = true ∧
    (State.withOutside faulted [.reset]).ConfigWF ∧ (State.withOutside faulted [.reset]).outside = .reset :: [] := by decide

/-- Alone on the link, with another instance on it, and the other instance's own reset. -/
theorem test_witness_ResetLeavesTheStatedValues :
    ((State.withOutside frameStart [.reset]).ConfigWF ∧ (State.withOutside frameStart [.reset]).outside = .reset :: [] ∧
      (State.withOutside frameStart [.reset]).peers = []) ∧
    ((State.withOutside sharedMidFrame [.reset]).ConfigWF ∧
      (State.withOutside sharedMidFrame [.reset]).outside = .reset :: []) ∧
    ((State.withOutside sharedMidFrame [.resetPeer 0]).ConfigWF ∧
      (State.withOutside sharedMidFrame [.resetPeer 0]).outside = .resetPeer 0 :: [] ∧
      (State.withOutside sharedMidFrame [.resetPeer 0]).peers[0]? = some readyFull.enc) := by decide

theorem test_witness_IllFormedConfigurationYieldsNoEncoder :
    ({ configDefault with rows := 5 } : Config).flaw = some .rows ∧
    ({ State.reset with enc := Encoder.reset { configDefault with tStableMs := 249 } } : State).enc.cfg.flaw
      = some .stableTime := by decide

/-- Two instances on one link, neither with chip-select. -/
theorem test_witness_SharedLinkNeedsChipSelect : ({ ready with peers := [ready.enc] } : State).configFlaw = none ∧
    ({ ready with peers := [ready.enc] } : State).peers ≠ [] ∧
    ∃ e ∈ ({ ready with peers := [ready.enc] } : State).instances, e.cfg.csPresent = false :=
  ⟨by decide, by decide, ready.enc, by decide, by decide⟩

theorem test_witness_PortIsNotReadWhileBusy : frameStart.Undisturbed ∧ frameStart.enc.busy = true ∧
    ∃ t, step frameStart = .next t :=
  ⟨by decide, by decide, next_of_nextOf (by decide)⟩

/-- With a request offered, and with none. -/
theorem test_witness_IdleRegistersAreNotRead :
    ((ready.offer 0x300#10).Undisturbed ∧ (ready.offer 0x300#10).enc.reqReady = true ∧ ∃ t, step (ready.offer 0x300#10) = .next t) ∧
    (ready.Undisturbed ∧ ready.enc.reqReady = true ∧ ∃ t, step ready = .next t) :=
  ⟨⟨by decide, by decide, next_of_nextOf (by decide)⟩, ⟨by decide, by decide, next_of_nextOf (by decide)⟩⟩

theorem test_witness_FrameEventCounts : configDefault.csPresent = false ∧ fullConfig.csPresent = true ∧
    (Scan.start.after (.set .sclk true)).sclk = some true := by decide

/-- At both ends of each range of words. -/
theorem test_witness_SequenceOperationsIgnoreTheirPayload : (0x200#10 &&& 0x300#10 = 0x200#10) ∧
    (0x2FF#10 &&& 0x300#10 = 0x200#10) ∧ (0x300#10 &&& 0x300#10 = 0x300#10) ∧ (0x3FF#10 &&& 0x300#10 = 0x300#10) := by decide

theorem test_witness_WellFormedConfigurations : configDefault.WellFormed ∧ fullConfig.WellFormed := by decide

/-- A clear, two pauses and a request. -/
theorem test_witness_ClearDutyIsThePauseBeforeTheNextRequest : ∃ (before after : List HostAct) (pauses : List Nat) (w : ReqWord),
    [.request 0x001#10, .waitMs 1, .waitMs 1, .request 0x080#10]
      = before ++ HostAct.request 0x001#10 :: pauses.map .waitMs ++ .request w :: after :=
  ⟨[], [], [1, 1], 0x080#10, rfl⟩

/-- One entry that depends on `ROWS > 2`, at each of the four row counts. -/
theorem test_witness_RowTestsByRowCount :
    (configDefault.seqRom[10]?).map SeqEntry.code = some (.rowsAboveTwo 0x09#8 0x08#8) ∧
    ({ configDefault with rows := 1 } : Config).rows = 1 ∧ configDefault.rows = 2 ∧
    ({ configDefault with rows := 3 } : Config).rows = 3 ∧ fullConfig.rows = 4 := by decide

/-- With both optional lines, and with neither. -/
theorem test_witness_ParkKeepsIdleLines :
    (∃ v : Levels, v.sdo = some false ∧ v.sclk = some true ∧ (fullConfig.csPresent = true → v.cs = some true) ∧
      (fullConfig.resPresent = true → v.res = some true)) ∧
    (∃ v : Levels, v.sdo = some false ∧ v.sclk = some true ∧ (configDefault.csPresent = true → v.cs = some true) ∧
      (configDefault.resPresent = true → v.res = some true)) :=
  ⟨⟨⟨some false, some true, some true, some true⟩, by decide⟩, ⟨⟨some false, some true, none, none⟩, by decide⟩⟩

/-- With nothing listed outside, and with a `run` for every step and a reset after them. -/
theorem test_witness_OperationRunsToItsEnd :
    (frameStart.AloneInOrder ∧ frameStart.ConfigWF ∧ frameStart.NeverFails ∧ frameStart.enc.busy = true) ∧
    frameStart.UndisturbedFor frameStart.enc.pending.length ∧
    (State.withOutside frameStart (List.replicate frameStart.enc.pending.length .run ++ [.reset])).UndisturbedFor
      (State.withOutside frameStart (List.replicate frameStart.enc.pending.length .run ++ [.reset])).enc.pending.length := by
  refine ⟨by decide, ?_, ?_⟩
  · intro a ha
    rw [show frameStart.outside = [] from rfl, List.take_nil] at ha
    cases ha
  · intro a ha
    rw [show (State.withOutside frameStart (List.replicate frameStart.enc.pending.length .run ++ [.reset])).outside
        = List.replicate frameStart.enc.pending.length .run ++ [.reset] from rfl,
      List.take_append_of_le_length (by rw [List.length_replicate]; rfl)] at ha
    exact List.eq_of_mem_replicate (List.mem_of_mem_take ha)

theorem test_witness_EachRequestEmitsItsEventsAndEndsIdle : (readyFull.AloneInOrder ∧ readyFull.LaunchPremises ∧
      readyFull.NeverFails ∧ readyFull.enc.cfg.hasInitSeq = true) ∧
    ∀ i, readyFull.UndisturbedFor (events readyFull.enc.cfg i).length := by
  refine ⟨by decide, fun i a ha => ?_⟩
  rw [show readyFull.outside = [] from rfl, List.take_nil] at ha
  cases ha

theorem test_witness_InitFromResetEstablishesTheLaunchPremises : configDefault.WellFormed ∧ configDefault.hasInitSeq = true ∧
    ∃ s, construct configDefault = .next s :=
  ⟨by decide, by decide, next_of_nextOf (by decide)⟩

/-- A frame, INIT's setup, a pause and a failure. -/
theorem test_witness_StepKeepsOrder : (frameStart.InOrder ∧ ∃ t, step frameStart = .next t) ∧
    (setupStart.InOrder ∧ ∃ t, step setupStart = .next t) ∧ (clearPause.InOrder ∧ ∃ t, step clearPause = .next t) ∧
    ((State.failing frameStart).InOrder ∧ ∃ t, step (State.failing frameStart) = .next t) :=
  ⟨⟨by decide, next_of_nextOf (by decide)⟩, ⟨by decide, next_of_nextOf (by decide)⟩,
    ⟨by decide, next_of_nextOf (by decide)⟩, ⟨by decide, next_of_nextOf (by decide)⟩⟩

/-- In INIT, with the index in the table. -/
theorem test_witness_SixBitsHoldTheTableIndex : clearPause.InOrder ∧
    (∀ e ∈ clearPause.instances, e.cfg.seqRom.length ≤ 63 ∧ e.seqPc < 64) ∧ ∃ t, step clearPause = .next t :=
  ⟨by decide, by decide, next_of_nextOf (by decide)⟩

theorem test_witness_StepKeepsTheLinesInOrder : (inPulse .fWaitLow false).AloneInOrder ∧
    ∃ t, step (inPulse .fWaitLow false) = .next t :=
  ⟨by decide, next_of_nextOf (by decide)⟩

theorem test_witness_LinesAreIdleBetweenOperations : readyFull.AloneInOrder ∧ readyFull.enc.configured = true ∧
    readyFull.EndedWell ∧ readyFull.enc.busy = false ∧ readyFull.enc.fault = false := by decide

theorem test_witness_EveryPulseHasRealEdges :
    ((inPulse .fClkLow true).AloneInOrder ∧ (inPulse .fClkLow true).enc.nextEvent = some (.set .sclk false)) ∧
    ((inPulse .fClkHigh false).AloneInOrder ∧ (inPulse .fClkHigh false).enc.phase.ofFrame = true ∧
      (inPulse .fClkHigh false).enc.nextEvent = some (.set .sclk true)) := by decide

/-- With another instance on the link: an event inside a frame, and a hand-over inside one. -/
theorem test_witness_StepKeepsOneFrameAtATime :
    (sharedMidFrame.OneFrameAtATime ∧ ∃ t, step sharedMidFrame = .next t) ∧
    ((State.withOutside sharedMidFrame [.grant 0]).OneFrameAtATime ∧
      ∃ t, step (State.withOutside sharedMidFrame [.grant 0]) = .next t) :=
  ⟨⟨by decide, next_of_nextOf (by decide)⟩, ⟨by decide, next_of_nextOf (by decide)⟩⟩

/-- A hand-over inside a frame; an idle instance, and one at the start of a frame, while another is inside a
frame. -/
theorem test_witness_NoEventInsideAnothersFrame :
    ((State.withOutside sharedMidFrame [.grant 0]).ConfigWF ∧
      (State.withOutside sharedMidFrame [.grant 0]).outside = .grant 0 :: [] ∧
      (State.withOutside sharedMidFrame [.grant 0]).peers[0]? = some readyFull.enc) ∧
    ((∃ t, step { readyFull with peers := [sharedMidFrame.enc] } = .next t) ∧
      ({ readyFull with peers := [sharedMidFrame.enc] } : State).peers.any Encoder.midFrame = true ∧
      ({ readyFull with peers := [sharedMidFrame.enc] } : State).Undisturbed) ∧
    (({ frameStartFull with peers := [sharedMidFrame.enc] } : State).enc.atFrameStart = true ∧
      ({ frameStartFull with peers := [sharedMidFrame.enc] } : State).peers.any Encoder.midFrame = true) :=
  ⟨by decide, ⟨next_of_nextOf (by decide), by decide, by decide⟩, by decide⟩

theorem test_witness_StepNeverDrivesResetLow : frameStart.ResetLineNeverLow ∧ ∃ t, step frameStart = .next t :=
  ⟨by decide, next_of_nextOf (by decide)⟩

theorem test_witness_StepNeverNamesAnAbsentLine : State.reset.AbsentLinesUnnamed ∧
    Line.present .cs State.reset.enc.cfg = false ∧ ∃ t, step State.reset = .next t := by
  refine ⟨?_, by decide, next_of_nextOf (by decide)⟩
  intro e he l _ ev hev
  simp [State.instances, State.reset, Encoder.reset] at he
  subst he
  cases hev

/-- Busy, with nothing listed outside and before a later reset; and not busy. -/
theorem test_witness_StepChangesAtMostOneLine : (frameStart.Undisturbed ∧ ∃ t, step frameStart = .next t) ∧
    ((State.withOutside frameStart [.run, .reset]).Undisturbed ∧
      ∃ t, step (State.withOutside frameStart [.run, .reset]) = .next t) ∧
    (ready.Undisturbed ∧ ready.enc.busy = false ∧ ∃ t, step ready = .next t) :=
  ⟨⟨by decide, next_of_nextOf (by decide)⟩, ⟨by decide, next_of_nextOf (by decide)⟩,
    by decide, by decide, next_of_nextOf (by decide)⟩

/-- INIT with the last event of LINK_SETUP due. -/
def setupLast : State := { setupStart with enc := { setupStart.enc with sub := 3#3 } }

theorem test_witness_ConfiguredIsSetByLinkSetupAndKept :
    (setupLast.ConfigWF ∧ setupLast.Undisturbed ∧ setupLast.LinkExclusive ∧ setupLast.enc.busy = true ∧
      setupLast.enc.fault = false ∧ setupLast.enc.phase = .setup ∧
      setupLast.enc.sub.toNat + 1 = (linkSetupEvents setupLast.enc.cfg).length ∧ setupLast.answer = true) ∧
    (setupLast.enc.configured = false ∧ (nextOf (step setupLast)).map (fun t => t.enc.configured) = some true) ∧
    (ready.Undisturbed ∧ ready.enc.configured = true ∧ ∃ t, step ready = .next t) :=
  ⟨by decide, by decide, by decide, by decide, next_of_nextOf (by decide)⟩

/-- A step with nothing outside due, and a hand-over of the link. -/
theorem test_witness_ConfigurationNeverChanges :
    ((∀ k rest, shared.outside ≠ .grant k :: rest) ∧ ∃ t, step shared = .next t) ∧
    ((State.withOutside shared [.grant 0]).outside = .grant 0 :: [] ∧
      ∃ t, step (State.withOutside shared [.grant 0]) = .next t) :=
  ⟨⟨fun _ _ h => List.cons_ne_nil _ _ h.symm, next_of_nextOf (by decide)⟩, by decide, next_of_nextOf (by decide)⟩

end Sys2Proof.Machine.Test
end

section
/-! SUPPORT. What a step can do to one encoder on the link: nothing to its lines and its trace, the event of a position, or a
hardware reset. An invariant that speaks of each encoder's own lines and trace needs these three cases only. -/

namespace Sys2Proof.Machine

/-- The configuration, the directions, the encoder's own levels and the trace are unchanged; the position, the flags and
the port may differ. -/
structure Encoder.SameOnLines (a b : Encoder) : Prop where
  cfg : b.cfg = a.cfg
  dir (l : Line) : b.dir l = a.dir l
  csLevel : b.csLevel = a.csLevel
  resLevel : b.resLevel = a.resLevel
  history : b.history = a.history

theorem Encoder.SameOnLines.refl (e : Encoder) : e.SameOnLines e := ⟨rfl, fun _ => rfl, rfl, rfl, rfl⟩

theorem Encoder.SameOnLines.trans {a b c : Encoder} (h : a.SameOnLines b) (k : b.SameOnLines c) : a.SameOnLines c :=
  ⟨k.cfg.trans h.cfg, fun l => (k.dir l).trans (h.dir l), k.csLevel.trans h.csLevel, k.resLevel.trans h.resLevel,
    k.history.trans h.history⟩

theorem Encoder.SameButPosition.sameOnLines {a b : Encoder} (h : a.SameButPosition b) : a.SameOnLines b :=
  ⟨h.cfg, h.dir, h.csLevel, h.resLevel, h.history⟩

theorem Encoder.portNext_sameOnLines (e : Encoder) : e.SameOnLines e.portNext := by
  rw [e.portNext_eq]; exact ⟨rfl, fun _ => rfl, rfl, rfl, rfl⟩

theorem Encoder.hostTurn_sameOnLines (e : Encoder) : e.SameOnLines e.hostTurn := by
  rw [e.hostTurn_eq]; exact ⟨rfl, fun _ => rfl, rfl, rfl, rfl⟩

theorem Encoder.beginFrame_sameOnLines (e : Encoder) (dc : Bool) (b : Byte) : e.SameOnLines (e.beginFrame dc b) :=
  ⟨rfl, fun _ => rfl, rfl, rfl, rfl⟩

theorem Encoder.raisePlatformIOFailure_sameOnLines (e : Encoder) : e.SameOnLines e.raisePlatformIOFailure :=
  ⟨rfl, fun _ => rfl, rfl, rfl, rfl⟩

theorem Encoder.startFrameOp_sameOnLines (op : Op) (dc : Bool) (b : Byte) (e : Encoder) :
    e.SameOnLines (e.startFrameOp op dc b) :=
  ⟨rfl, fun _ => rfl, rfl, rfl, rfl⟩

theorem Encoder.startInit_sameOnLines (e : Encoder) : e.SameOnLines e.startInit :=
  ⟨rfl, fun _ => rfl, rfl, rfl, rfl⟩

theorem Encoder.startShutdown_sameOnLines (e : Encoder) : e.SameOnLines e.startShutdown :=
  Encoder.SameOnLines.trans (b := ({ e with op := .shutdown } : Encoder).setSeqPc shutdownFirst)
    ⟨rfl, fun _ => rfl, rfl, rfl, rfl⟩ (Encoder.nextEntry_same _).sameOnLines

/-- What a step can make of one encoder. An event is that of the encoder's position, after the frame register was loaded
where the step is a wire frame (41_frame_encoder.md R156). -/
inductive Encoder.StepsTo (a : Encoder) : Encoder → Prop where
  | same {b : Encoder} (h : a.SameOnLines b) : a.StepsTo b
  | event {e : Encoder} {ev : Event} (h : a.SameOnLines e) (hev : e.nextEvent = some ev) :
      a.StepsTo ((e.withEffect ev).record ev).advance
  | reset : a.StepsTo a.hardwareReset

/-- Every encoder comes from one that stood on the link before. -/
def State.InstancesStep (s t : State) : Prop := ∀ b ∈ t.instances, ∃ a ∈ s.instances, a.StepsTo b

/-- The acting encoder moves and the others stay. -/
theorem State.InstancesStep.of_enc {s t : State} (hp : t.peers = s.peers) (he : s.enc.StepsTo t.enc) :
    s.InstancesStep t := by
  intro b hb
  rcases List.mem_cons.mp hb with rfl | hb
  · exact ⟨s.enc, List.mem_cons_self, he⟩
  · exact ⟨b, List.mem_cons_of_mem _ (hp ▸ hb), .same (.refl b)⟩

/-- The acting encoder and the `k`-th other come from the link, the remaining others stay. -/
theorem State.InstancesStep.of_set {s t : State} {k : Nat} {p : Encoder} (hp : t.peers = s.peers.set k p)
    (he : ∃ a ∈ s.instances, a.StepsTo t.enc) (hk : ∃ a ∈ s.instances, a.StepsTo p) : s.InstancesStep t := by
  intro b hb
  rcases List.mem_cons.mp hb with rfl | hb
  · exact he
  · rcases List.mem_or_eq_of_mem_set (hp ▸ hb) with hb | rfl
    · exact ⟨b, List.mem_cons_of_mem _ hb, .same (.refl b)⟩
    · exact hk

theorem State.emitNext_instancesStep {s t : State} {e : Encoder} (he : s.enc.SameOnLines e)
    (h : ({ s with enc := e } : State).emitNext = .next t) : s.InstancesStep t := by
  obtain ⟨-, ev, hev, ⟨-, rfl⟩ | ⟨-, rfl⟩⟩ := State.emitNext_next h
  · refine .of_enc (by simp [State.afterEvent]) ?_
    rw [State.afterEvent_enc]
    exact .event he hev
  · exact .of_enc (by simp [State.afterFailure]) (.same (he.trans e.raisePlatformIOFailure_sameOnLines))

theorem State.sendFrame_instancesStep {s t : State} {dc : Bool} {b : Byte} (h : s.sendFrame dc b = .next t) :
    s.InstancesStep t :=
  State.emitNext_instancesStep (s.enc.beginFrame_sameOnLines dc b) (State.sendFrame_next h).2

theorem State.accept_instancesStep {s t : State} {needsSequencer needsConfigured : Bool} {start : Encoder → Encoder}
    (hstart : ∀ e : Encoder, e.SameOnLines (start e)) (h : s.accept needsSequencer needsConfigured start = .next t) :
    s.InstancesStep t := by
  obtain ⟨-, rfl⟩ | ⟨-, -, -, rfl⟩ := State.accept_next h
  · exact .of_enc rfl (.same (.refl _))
  · have hbusy : s.enc.SameOnLines s.enc.portNext.setBusy :=
      s.enc.portNext_sameOnLines.trans ⟨rfl, fun _ => rfl, rfl, rfl, rfl⟩
    exact .of_enc rfl (.same (hbusy.trans (hstart _)))

theorem exec_instancesStep {s t : State} {i : Instr} (h : exec i s = .next t) : s.InstancesStep t := by
  cases i with
  | sendCommand b | sendData b => exact State.accept_instancesStep (Encoder.startFrameOp_sameOnLines _ _ b) h
  | init b => exact State.accept_instancesStep Encoder.startInit_sameOnLines h
  | shutdown b => exact State.accept_instancesStep Encoder.startShutdown_sameOnLines h
  | wireCommandFrame b | wireDataFrame b => exact State.sendFrame_instancesStep h

theorem State.cycle_instancesStep {s t : State} (h : s.cycle = .next t) : s.InstancesStep t := by
  obtain ⟨-, rfl⟩ | ⟨-, -, -, hemit⟩ | ⟨-, -, -, i, -, hexec⟩ | ⟨-, -, -, hexec⟩ | ⟨-, -, -, rfl⟩ := State.cycle_next h
  · exact .of_enc rfl (.same (.refl _))
  · exact State.emitNext_instancesStep (.refl _) hemit
  · exact exec_instancesStep hexec
  · exact exec_instancesStep hexec
  · exact .of_enc rfl (.same s.enc.hostTurn_sameOnLines)

theorem State.hardwareResetPeer_instancesStep {s t : State} {k : Nat} (h : s.hardwareResetPeer k = .next t) :
    s.InstancesStep t := by
  obtain ⟨p, hp, henc, hpeers, -, -⟩ := State.hardwareResetPeer_next h
  refine .of_set hpeers ⟨s.enc, List.mem_cons_self, ?_⟩ ⟨p, List.mem_cons_of_mem _ (List.mem_of_getElem? hp), .reset⟩
  rw [henc]
  exact .same (.refl _)

theorem State.grant_instancesStep {s t : State} {k : Nat} (h : s.grant k = .next t) : s.InstancesStep t := by
  obtain ⟨p, hp, rfl⟩ := State.grant_next h
  exact .of_set rfl ⟨p, List.mem_cons_of_mem _ (List.mem_of_getElem? hp), .same (.refl p)⟩
    ⟨s.enc, List.mem_cons_self, .same (.refl _)⟩

/-- Every encoder after a step comes from one before it by one of the three cases. Spending the outside's act touches no
encoder, so each kind of step is used at `s.spendAct`. -/
theorem step_instancesStep {s t : State} (h : step s = .next t) : s.InstancesStep t := by
  obtain ⟨-, -, hact⟩ := step_next h
  obtain ⟨-, hc⟩ | ⟨-, rfl⟩ | ⟨k, -, hr⟩ | ⟨k, -, hg⟩ := State.act_next hact
  · exact State.cycle_instancesStep (s := s.spendAct) hc
  · exact .of_enc rfl .reset
  · exact State.hardwareResetPeer_instancesStep (s := s.spendAct) hr
  · exact State.grant_instancesStep (s := s.spendAct) hg

/-- An invariant of each encoder that survives the three cases holds of every encoder after the step. -/
theorem step_keeps_instances {P : Encoder → Prop} (hP : ∀ a b : Encoder, P a → a.StepsTo b → P b) {s t : State}
    (hs : ∀ e ∈ s.instances, P e) (h : step s = .next t) : ∀ e ∈ t.instances, P e := by
  intro b hb
  obtain ⟨a, ha, hab⟩ := step_instancesStep h b hb
  exact hP a b (hs a ha) hab

end Sys2Proof.Machine
end

section
/-! SUPPORT. The display's reset line (10_state.md R22). -/

namespace Sys2Proof.Machine

/-- The encoder's reset line is not low, and its trace never sets it low. -/
def Encoder.ResNeverLow (e : Encoder) : Prop := e.resLevel ≠ some false ∧ Event.set .res false ∉ e.history

theorem Encoder.ResNeverLow.of_sameOnLines {a b : Encoder} (h : a.ResNeverLow) (hab : a.SameOnLines b) :
    b.ResNeverLow := by
  unfold Encoder.ResNeverLow
  rw [hab.resLevel, hab.history]
  exact h

/-- Only `Set(RES, v)` writes the encoder's reset line. -/
theorem Encoder.withEffect_resLevel (e : Encoder) (ev : Event) :
    (e.withEffect ev).resLevel = e.resLevel ∨ ∃ v, ev = .set .res v ∧ (e.withEffect ev).resLevel = some v := by
  cases ev with
  | set l v =>
    cases l with
    | res => exact .inr ⟨v, rfl, rfl⟩
    | sdo | sclk | cs => exact .inl rfl
  | dir l => exact .inl (e.setOutput_resLevel l)
  | waitUs n | waitMs n => exact .inl rfl

/-- An event's effect leaves the trace to `record`. -/
@[simp] theorem Encoder.withEffect_history (e : Encoder) (ev : Event) : (e.withEffect ev).history = e.history := by
  cases ev with
  | set l v => cases l <;> rfl
  | dir l => exact e.setOutput_history l
  | waitUs n | waitMs n => rfl

theorem Encoder.ResNeverLow.record_withEffect {e : Encoder} {ev : Event} (h : e.ResNeverLow)
    (hev : ev ≠ .set .res false) : ((e.withEffect ev).record ev).ResNeverLow := by
  obtain ⟨hlevel, htrace⟩ := h
  refine ⟨?_, ?_⟩
  · obtain heq | ⟨v, rfl, heq⟩ := e.withEffect_resLevel ev
    · simpa [heq] using hlevel
    · simpa [heq] using hev
  · simpa [htrace] using hev.symm

theorem Encoder.ResNeverLow.step {a b : Encoder} (h : a.ResNeverLow) (hab : a.StepsTo b) : b.ResNeverLow := by
  cases hab with
  | same hsame => exact h.of_sameOnLines hsame
  | event hsame hev =>
    have hrecorded := (h.of_sameOnLines hsame).record_withEffect (Encoder.nextEvent_lines hev).1
    exact hrecorded.of_sameOnLines (Encoder.advance_same _).sameOnLines
  | reset => exact ⟨nofun, List.not_mem_nil⟩

/-- Settles O56: the invariant of each encoder survives every step, since no position's event is `Set(RES, 0)`. -/
theorem stepNeverDrivesResetLow : Obligations.StepNeverDrivesResetLow :=
  fun _ _ hs h => step_keeps_instances (fun _ _ => Encoder.ResNeverLow.step) hs h

end Sys2Proof.Machine
end

section
/-! SUPPORT. The request word's opcode bits (30_encoding.md R110, R111). -/

namespace Sys2Proof

/-- The request mask keeps bits 9 and 8. -/
theorem requestMask_getElem {i : Nat} (hi : i < 10) : (0x300#10)[i] = decide (i = 9 ∨ i = 8) := by
  revert i; decide

/-- A match under the mask is met exactly by the words with its two opcode bits. -/
theorem and_requestMask_eq_iff (w : ReqWord) {m : ReqWord} (hm : m &&& 0x300#10 = m) :
    w &&& 0x300#10 = m ↔ w.getLsbD 9 = m.getLsbD 9 ∧ w.getLsbD 8 = m.getLsbD 8 := by
  constructor
  · rintro rfl
    simp
  · rintro ⟨h9, h8⟩
    rw [← hm]
    ext i hi
    rw [BitVec.getElem_and, BitVec.getElem_and, requestMask_getElem]
    by_cases hop : i = 9 ∨ i = 8
    · obtain rfl | rfl := hop
      · simpa using h9
      · simpa using h8
    · simp [hop]

/-- Settles O2: a row's match holds exactly of its two opcode bits, and the opcode map reads those. -/
theorem requestWordSelectsExactlyOneRow : Obligations.RequestWordSelectsExactlyOneRow := by
  intro w b
  rw [and_requestMask_eq_iff w (m := 0x000#10) rfl, and_requestMask_eq_iff w (m := 0x100#10) rfl,
    and_requestMask_eq_iff w (m := 0x200#10) rfl, and_requestMask_eq_iff w (m := 0x300#10) rfl, eq_comm (a := b)]
  unfold decodeRequest
  match w.getLsbD 9, w.getLsbD 8 with
  | false, false => simp [reqPayload]
  | false, true => simp [reqPayload]
  | true, false => simp [reqPayload]
  | true, true => simp [reqPayload]

end Sys2Proof
end

section
/-! SUPPORT. The wire frame as a list and as a number (30_encoding.md R93, R95, R96). -/

namespace Sys2Proof

/-- The payload field by nybbles, each least significant bit first and followed by four filler slots
(30_encoding.md R92). -/
theorem packPayload_eq_nybbles (b : Byte) :
    packPayload b = (List.range 4).map b.getLsbD ++ List.replicate 4 false ++
      ((List.range 4).map (fun k => b.getLsbD (4 + k)) ++ List.replicate 4 false) := rfl

@[simp] theorem packPayload_length (b : Byte) : (packPayload b).length = 16 := rfl

@[simp] theorem frameLevels_length (dc : Bool) (b : Byte) : (frameLevels dc b).length = 24 := rfl

/-- Settles O4: slot by slot over the four groups of the payload field. -/
theorem payloadFieldSlotBySlot : Obligations.PayloadFieldSlotBySlot := by
  refine fun b => ⟨packPayload_length b, fun k hk => ?_⟩
  have hgroup : k ≤ 3 ∨ 4 ≤ k ∧ k ≤ 7 ∨ 8 ≤ k ∧ k ≤ 11 ∨ 12 ≤ k ∧ k ≤ 15 := by omega
  obtain hlow | ⟨hfrom, hto⟩ | ⟨hfrom, hto⟩ | ⟨hfrom, hto⟩ := hgroup
  · interval_cases k <;> simp [packPayload]
  · interval_cases k <;> rfl
  · interval_cases k <;> simp [packPayload]
  · interval_cases k <;> rfl

theorem frameLevels_getElem? (dc : Bool) (b : Byte) {s : Nat} (hs : s < 24) :
    (frameLevels dc b)[s]? = some ((frameWord dc b).getLsbD (23 - s)) := by
  rw [← Machine.frameWord_slots]
  simp [hs, frameSlot]

theorem frameBit_toNat (v : Bool) {k : Nat} (hk : k < 24) : (frameBit v k).toNat = v.toNat <<< k := by
  cases v with
  | false => simp [frameBit]
  | true =>
    have hfits : 1 <<< k < 2 ^ 24 := by
      rw [Nat.one_shiftLeft]
      exact Nat.pow_lt_pow_right (by decide) hk
    simpa [frameBit] using hfits

theorem payloadField_toNat (b : Byte) :
    (payloadField b).toNat = (b.getLsbD 0).toNat <<< 15 ||| (b.getLsbD 1).toNat <<< 14 ||| (b.getLsbD 2).toNat <<< 13 |||
      (b.getLsbD 3).toNat <<< 12 ||| (b.getLsbD 4).toNat <<< 7 ||| (b.getLsbD 5).toNat <<< 6 |||
      (b.getLsbD 6).toNat <<< 5 ||| (b.getLsbD 7).toNat <<< 4 := by
  simp only [payloadField, BitVec.toNat_or, frameBit_toNat, Nat.reduceLT]

theorem frameWord_toNat (dc : Bool) (b : Byte) :
    (frameWord dc b).toNat = 0xF80000 ||| dc.toNat <<< 17 ||| (payloadField b).toNat := by
  simp only [frameWord, BitVec.toNat_or, BitVec.reduceToNat, frameBit_toNat, Nat.reduceLT]

/-- Settles O5: the list and the number have the same slots, and `|`, `<<` on 24 bits lose nothing. -/
theorem frameNumberIsFrameList : Obligations.FrameNumberIsFrameList :=
  ⟨fun dc b => ⟨rfl, frameLevels_length dc b, fun _ hs => frameLevels_getElem? dc b hs, payloadField_toNat b,
    frameWord_toNat dc b⟩, by decide, by decide, by decide, by decide⟩

theorem framePrefix_count_true (dc : Bool) : (framePrefix dc).count true = 5 + dc.toNat := by
  cases dc <;> rfl

/-- The payload field's slots at 1 are the bits of the byte at 1: the nybbles are its eight bits and the filler adds
none. -/
theorem packPayload_count_true (b : Byte) :
    (packPayload b).count true = (List.range 8).countP (fun k => b.getLsbD k) := by
  have hbits : List.range 8 = List.range 4 ++ (List.range 4).map (4 + ·) := rfl
  rw [packPayload_eq_nybbles, hbits]
  simp [List.count, List.countP_append, List.countP_map, Function.comp_def]

theorem frameLevels_count_true (dc : Bool) (b : Byte) :
    (frameLevels dc b).count true = 5 + dc.toNat + (List.range 8).countP (fun k => b.getLsbD k) := by
  rw [frameLevels, List.count_append, framePrefix_count_true, packPayload_count_true]

/-- Settles O6: the fixed slots are read off the list; the count is the prefix's plus the byte's, at most eight. -/
theorem frameSlotCounts : Obligations.FrameSlotCounts := by
  intro dc b
  have hcount := frameLevels_count_true dc b
  have hdc : dc.toNat ≤ 1 := dc.toNat_le
  have hbits : (List.range 8).countP (fun k => b.getLsbD k) ≤ 8 := List.countP_le_length
  refine ⟨frameLevels_length dc b, fun s hs => ?_, fun s hs => ?_, hcount, by omega, by omega, rfl⟩
  · interval_cases s <;> rfl
  · obtain rfl | rfl | ⟨hfrom, hto⟩ | ⟨hfrom, hto⟩ := hs
    · rfl
    · rfl
    · interval_cases s <;> rfl
    · interval_cases s <;> rfl

end Sys2Proof
end

section
/-! SUPPORT. The event list of a run of SEND_BITs: its counts, its lines, and what a scan reads off it (40_bitclock.md
R131 to R133, 30_encoding.md R98). -/

namespace Sys2Proof.Machine

theorem sendBitsEvents_cons (c : Config) (v : Bool) (levels : List Bool) :
    sendBitsEvents c (v :: levels) = sendBitEvents c v ++ sendBitsEvents c levels := rfl

@[simp] theorem sendBitsEvents_length (c : Config) (levels : List Bool) :
    (sendBitsEvents c levels).length = 5 * levels.length := by
  induction levels with
  | nil => rfl
  | cons v rest ih =>
    rw [sendBitsEvents_cons, List.length_append, ih, List.length_cons, Nat.mul_succ, Nat.add_comm]
    rfl

/-- Events that every SEND_BIT holds equally often are counted by the slots. -/
theorem sendBitsEvents_countP {c : Config} {p : Event → Bool} {n : Nat} (h : ∀ v, (sendBitEvents c v).countP p = n)
    (levels : List Bool) : (sendBitsEvents c levels).countP p = n * levels.length := by
  induction levels with
  | nil => rfl
  | cons v rest ih =>
    rw [sendBitsEvents_cons, List.countP_append, h v, ih, List.length_cons, Nat.mul_succ, Nat.add_comm]

@[simp] theorem sendBitsEvents_count_sclk (c : Config) (v : Bool) (levels : List Bool) :
    (sendBitsEvents c levels).count (.set .sclk v) = levels.length := by
  rw [List.count, sendBitsEvents_countP (n := 1) (fun w => by cases v <;> cases w <;> rfl), Nat.one_mul]

/-- SEND_BIT drives the data and clock lines only. -/
theorem sendBitsEvents_names_eq_false {c : Config} {levels : List Bool} {ev : Event} {l : Line}
    (hev : ev ∈ sendBitsEvents c levels) (hsdo : l ≠ .sdo) (hsclk : l ≠ .sclk) : ev.names l = false := by
  obtain ⟨v, -, hbit⟩ := List.mem_flatMap.mp hev
  simp only [sendBitEvents, pulseEvents, List.mem_cons, List.not_mem_nil, or_false] at hbit
  obtain rfl | rfl | rfl | rfl | rfl := hbit
  · exact decide_eq_false hsdo.symm
  · exact decide_eq_false hsclk.symm
  · rfl
  · exact decide_eq_false hsclk.symm
  · rfl

/-- Scanning one list after another starts the second from where the first left the lines. -/
theorem slotsFrom_append (scan : Scan) (first second : List Event) :
    slotsFrom scan (first ++ second) = slotsFrom scan first ++ slotsFrom (first.foldl Scan.after scan) second := by
  induction first generalizing scan with
  | nil => rfl
  | cons ev rest ih =>
    simp only [List.cons_append, slotsFrom, List.foldl_cons, ih]
    split <;> rfl

theorem fallingFrom_append (scan : Scan) (first second : List Event) :
    fallingFrom scan (first ++ second) = fallingFrom scan first + fallingFrom (first.foldl Scan.after scan) second := by
  induction first generalizing scan with
  | nil => exact (Nat.zero_add _).symm
  | cons ev rest ih => simp only [List.cons_append, fallingFrom, List.foldl_cons, ih, Nat.add_assoc]

/-- SEND_BIT makes its own falling edge, so whatever the lines were its rising edge samples its level. -/
theorem slotsFrom_sendBitEvents (scan : Scan) (c : Config) (v : Bool) :
    slotsFrom scan (sendBitEvents c v) = [some v] := rfl

theorem slotsFrom_sendBitsEvents (scan : Scan) (c : Config) (levels : List Bool) :
    slotsFrom scan (sendBitsEvents c levels) = levels.map some := by
  induction levels generalizing scan with
  | nil => rfl
  | cons v rest ih => rw [sendBitsEvents_cons, slotsFrom_append, slotsFrom_sendBitEvents, ih]; rfl

/-- SEND_BIT leaves its level on the data line and the clock high. -/
theorem foldl_after_sendBitEvents (scan : Scan) (c : Config) (v : Bool) :
    (sendBitEvents c v).foldl Scan.after scan = { sdo := some v, sclk := some true } := rfl

theorem fallingFrom_sendBitEvents {scan : Scan} (h : scan.sclk = some true) (c : Config) (v : Bool) :
    fallingFrom scan (sendBitEvents c v) = 1 := by
  obtain ⟨sdo, sclk⟩ := scan
  subst h
  rfl

theorem fallingFrom_sendBitsEvents {scan : Scan} (h : scan.sclk = some true) (c : Config) (levels : List Bool) :
    fallingFrom scan (sendBitsEvents c levels) = levels.length := by
  induction levels generalizing scan with
  | nil => rfl
  | cons v rest ih =>
    rw [sendBitsEvents_cons, fallingFrom_append, fallingFrom_sendBitEvents h, foldl_after_sendBitEvents, ih rfl,
      List.length_cons, Nat.add_comm]

/-- Settles O32: TRANSMIT_BYTE is one SEND_BIT for each of the payload field's sixteen slots. -/
theorem transmitByteClocksThePayloadField : Obligations.TransmitByteClocksThePayloadField :=
  fun c b scan => ⟨sendBitsEvents_length c (packPayload b), sendBitsEvents_count_sclk c true (packPayload b),
    sendBitsEvents_count_sclk c false (packPayload b), slotsFrom_sendBitsEvents scan c (packPayload b)⟩

end Sys2Proof.Machine
end

section
/-! SUPPORT. A frame's event list: the 24 SEND_BITs of its levels between the two chip-select events, present or not
(41_frame_encoder.md R154 to R156). -/

namespace Sys2Proof.Machine

theorem frameEvents_eq (c : Config) (dc : Bool) (b : Byte) :
    frameEvents c dc b = csAssertEvents c ++ sendBitsEvents c (frameLevels dc b) ++ csDeassertEvents c := by
  simp [frameEvents, sendPrefixEvents, transmitByteEvents, sendBitsEvents, frameLevels]

theorem frameEvents_of_cs_absent {c : Config} (hcs : c.csPresent = false) (dc : Bool) (b : Byte) :
    frameEvents c dc b = sendBitsEvents c (frameLevels dc b) := by
  simp [frameEvents_eq, csAssertEvents, csDeassertEvents, hcs]

theorem frameEvents_of_cs_present {c : Config} (hcs : c.csPresent = true) (dc : Bool) (b : Byte) :
    frameEvents c dc b = .set .cs false :: sendBitsEvents c (frameLevels dc b) ++ [.set .cs true] := by
  simp [frameEvents_eq, csAssertEvents, csDeassertEvents, hcs]

theorem frameEvents_length (c : Config) (dc : Bool) (b : Byte) :
    (frameEvents c dc b).length = 120 + 2 * c.csPresent.toNat := by
  cases hcs : c.csPresent with
  | false => simp [frameEvents_of_cs_absent hcs]
  | true => simp [frameEvents_of_cs_present hcs]

/-- What a frame holds of any kind of events: `n` of each SEND_BIT, and the chip-select events that are of the kind. -/
theorem frameEvents_countP {c : Config} {p : Event → Bool} {n : Nat} (h : ∀ v, (sendBitEvents c v).countP p = n)
    (dc : Bool) (b : Byte) :
    (frameEvents c dc b).countP p =
      n * 24 + c.csPresent.toNat * ((if p (.set .cs false) then 1 else 0) + if p (.set .cs true) then 1 else 0) := by
  have hbits : (sendBitsEvents c (frameLevels dc b)).countP p = n * 24 := sendBitsEvents_countP h (frameLevels dc b)
  cases hcs : c.csPresent with
  | false => simp [frameEvents_of_cs_absent hcs, hbits]
  | true =>
    simp only [frameEvents_of_cs_present hcs, List.countP_append, List.countP_cons, List.countP_nil, hbits,
      Bool.toNat_true]
    omega

theorem mem_frameEvents {c : Config} {dc : Bool} {b : Byte} {ev : Event} (hev : ev ∈ frameEvents c dc b) :
    (c.csPresent = true ∧ ∃ v, ev = .set .cs v) ∨ ev ∈ sendBitsEvents c (frameLevels dc b) := by
  cases hcs : c.csPresent with
  | false => exact .inr (frameEvents_of_cs_absent hcs dc b ▸ hev)
  | true =>
    rw [frameEvents_of_cs_present hcs, List.mem_append, List.mem_cons, List.mem_singleton] at hev
    obtain (hassert | hbits) | hdeassert := hev
    · exact .inl ⟨rfl, false, hassert⟩
    · exact .inr hbits
    · exact .inl ⟨rfl, true, hdeassert⟩

/-- A frame never names the reset line. -/
theorem frameEvents_names_res {c : Config} {dc : Bool} {b : Byte} {ev : Event} (hev : ev ∈ frameEvents c dc b) :
    ev.names .res = false := by
  obtain ⟨-, v, rfl⟩ | hbits := mem_frameEvents hev
  · rfl
  · exact sendBitsEvents_names_eq_false hbits nofun nofun

/-- A frame never names an absent chip-select. -/
theorem frameEvents_names_cs {c : Config} {dc : Bool} {b : Byte} {ev : Event} (hcs : c.csPresent = false)
    (hev : ev ∈ frameEvents c dc b) : ev.names .cs = false := by
  obtain ⟨hpresent, -⟩ | hbits := mem_frameEvents hev
  · exact absurd (hcs.symm.trans hpresent) nofun
  · exact sendBitsEvents_names_eq_false hbits nofun nofun

/-- Chip-select does not move the scan, so a frame's slots are those of its SEND_BITs. -/
theorem slotsFrom_frameEvents (scan : Scan) (c : Config) (dc : Bool) (b : Byte) :
    slotsFrom scan (frameEvents c dc b) = (frameLevels dc b).map some := by
  cases hcs : c.csPresent with
  | false => rw [frameEvents_of_cs_absent hcs, slotsFrom_sendBitsEvents]
  | true =>
    calc slotsFrom scan (frameEvents c dc b)
        = slotsFrom scan (sendBitsEvents c (frameLevels dc b) ++ [.set .cs true]) := by
          rw [frameEvents_of_cs_present hcs]; rfl
      _ = (frameLevels dc b).map some ++ [] := by rw [slotsFrom_append, slotsFrom_sendBitsEvents]; rfl
      _ = (frameLevels dc b).map some := List.append_nil _

theorem fallingFrom_frameEvents {scan : Scan} (h : scan.sclk = some true) (c : Config) (dc : Bool) (b : Byte) :
    fallingFrom scan (frameEvents c dc b) = 24 := by
  cases hcs : c.csPresent with
  | false => rw [frameEvents_of_cs_absent hcs, fallingFrom_sendBitsEvents h, frameLevels_length]
  | true =>
    calc fallingFrom scan (frameEvents c dc b)
        = 0 + fallingFrom scan (sendBitsEvents c (frameLevels dc b) ++ [.set .cs true]) := by
          rw [frameEvents_of_cs_present hcs]; rfl
      _ = 0 + (24 + 0) := by
          rw [fallingFrom_append, fallingFrom_sendBitsEvents h, frameLevels_length]; rfl

/-- Settles O31: each count is that of one SEND_BIT, 24 times, and of the chip-select events. -/
theorem frameEventCounts : Obligations.FrameEventCounts := by
  intro c dc b
  have hsettle : ∀ v, (sendBitEvents c v).countP (· == .waitUs c.tSettleUs) = 2 := fun v => by
    simp [sendBitEvents, pulseEvents]
  refine ⟨?_, ?_, ?_, ?_, ?_, ?_, frameEvents_length c dc b, fun _ => frameEvents_names_res,
    fun hcs _ => frameEvents_names_cs hcs, fun scan h => ⟨fallingFrom_frameEvents h c dc b, ?_⟩⟩
  · exact frameEvents_countP (n := 1) (fun v => by cases v <;> rfl) dc b
  · exact frameEvents_countP (n := 1) (fun v => rfl) dc b
  · exact frameEvents_countP (n := 1) (fun v => rfl) dc b
  · exact frameEvents_countP hsettle dc b
  · exact (frameEvents_countP (n := 0) (fun v => rfl) dc b).trans (by simp)
  · exact (frameEvents_countP (n := 0) (fun v => rfl) dc b).trans (by simp)
  · rw [slotsFrom_frameEvents, List.length_map, frameLevels_length]

/-- Settles O40: what stands between the two chip-select events is the 24 SEND_BITs, which name data and clock only. -/
theorem chipSelectBracketsEachFrame : Obligations.ChipSelectBracketsEachFrame := by
  intro c dc b hcs
  exact ⟨sendBitsEvents c (frameLevels dc b), frameEvents_of_cs_present hcs dc b,
    fun ev hev => sendBitsEvents_names_eq_false hev nofun nofun,
    sendBitsEvents_count_sclk c false (frameLevels dc b), sendBitsEvents_count_sclk c true (frameLevels dc b)⟩

end Sys2Proof.Machine
end

section
/-! SUPPORT. The bytes that depend on the geometry: `Row_bit` with its mask, and the table entry that tests `ROWS > 2`
(42_init_sequencer.md R186, R187). -/

namespace Sys2Proof

theorem Config.rowBit_eq_true_iff {c : Config} : c.rowBit = true ↔ c.rows = 2 ∨ c.rows = 4 := by
  simp [Config.rowBit]

theorem Config.rowBit_eq_false_iff {c : Config} : c.rowBit = false ↔ c.rows ≠ 2 ∧ c.rows ≠ 4 := by
  simp [Config.rowBit]

namespace Machine

theorem withRowBit_of_set {c : Config} (h : c.rowBit = true) (b : Byte) : withRowBit c b = b ||| c.rowBitMask :=
  if_pos h

theorem withRowBit_of_clear {c : Config} (h : c.rowBit = false) (b : Byte) : withRowBit c b = b := by
  simp [withRowBit, h]

theorem entryByte_of_rowsAboveTwo {e : SeqEntry} {above upTo : Byte} (he : e.code = .rowsAboveTwo above upTo)
    (c : Config) : entryByte c e = if 2 < c.rows then above else upTo := by
  simp [entryByte, he]

/-- Settles O39: `Row_bit` is set at the even row counts, the entry's test only splits the counts at two. -/
theorem rowTestsByRowCount : Obligations.RowTestsByRowCount := by
  intro c a b f e he
  have hset (h : c.rows = 2 ∨ c.rows = 4) : c.rowBit = true ∧ withRowBit c f = f ||| c.rowBitMask :=
    have hbit := Config.rowBit_eq_true_iff.mpr h
    ⟨hbit, withRowBit_of_set hbit f⟩
  have hclear (h : c.rows ≠ 2 ∧ c.rows ≠ 4) : c.rowBit = false ∧ withRowBit c f = f :=
    have hbit := Config.rowBit_eq_false_iff.mpr h
    ⟨hbit, withRowBit_of_clear hbit f⟩
  have habove (h : 2 < c.rows) : entryByte c e = a := (entryByte_of_rowsAboveTwo he c).trans (if_pos h)
  have hupTo (h : ¬ 2 < c.rows) : entryByte c e = b := (entryByte_of_rowsAboveTwo he c).trans (if_neg h)
  exact ⟨fun h => and_assoc.mp ⟨hclear (by omega), hupTo (by omega)⟩,
    fun h => and_assoc.mp ⟨hset (by omega), hupTo (by omega)⟩,
    fun h => and_assoc.mp ⟨hclear (by omega), habove (by omega)⟩,
    fun h => and_assoc.mp ⟨hset (by omega), habove (by omega)⟩⟩

end Machine
end Sys2Proof
end

section
/-! SUPPORT. A busy encoder in order (10_state.md R25, R26): its position has an event, and its step, fetched from the frame
register or not, is the emission of that event. -/

namespace Sys2Proof.Machine

/-- The frame decoder gives back level and byte of every frame (30_encoding.md R97). -/
theorem decodeFrame_frameWord (dc : Bool) (b : Byte) :
    decodeFrame (frameWord dc b) = .ok (if dc then .wireDataFrame b else .wireCommandFrame b) := by
  revert dc b; decide

theorem exec_wireFrame (dc : Bool) (b : Byte) (s : State) :
    exec (if dc then .wireDataFrame b else .wireCommandFrame b) s = s.sendFrame dc b := by
  cases dc <;> rfl

theorem Encoder.inOrder_iff (e : Encoder) :
    e.inOrder = true ↔ e.flagsOk = true ∧ e.positionOk = true ∧ e.ownLinesOk = true := by
  simp [Encoder.inOrder, and_assoc]

theorem Encoder.atFrameStart_iff (e : Encoder) : e.atFrameStart = true ↔
    e.busy = true ∧ e.phase = frameStartPhase e.cfg ∧ (e.cfg.csPresent = true ∨ e.slot = 0#5) := by
  simp [Encoder.atFrameStart, and_assoc]

theorem Encoder.frameOk_iff (e : Encoder) :
    e.frameOk = true ↔ e.frame = frameWord (frameSlot e.frame 6) e.payload ∧ e.frameOfOp = true := by
  simp [Encoder.frameOk]

theorem frameStartPhase_ofFrame (c : Config) : (frameStartPhase c).ofFrame = true := by
  obtain ⟨-, h⟩ | ⟨-, h⟩ := frameStartPhase_cases c
  · rw [h]; rfl
  · rw [h]; rfl

/-- Where the flags agree with the phase and the position is one of the operation's, a busy encoder has an event to emit. -/
theorem Encoder.exists_nextEvent {e : Encoder} (hflags : e.flagsOk = true) (hpos : e.positionOk = true)
    (hbusy : e.busy = true) : ∃ ev, e.nextEvent = some ev := by
  obtain ⟨hphase, -, -, hslot⟩ := e.flagsOk_iff.mp hflags
  rw [hbusy] at hphase
  unfold Encoder.nextEvent
  unfold Encoder.positionOk at hpos
  cases hp : e.phase with
  | idle | fault => simp [hp, Phase.inProgress] at hphase
  | setup | park =>
    simp only [hp, Bool.and_eq_true, decide_eq_true_eq] at hpos
    exact ⟨_, List.getElem?_eq_getElem hpos.2⟩
  | seq =>
    simp only [hp, Bool.and_eq_true, decide_eq_true_eq] at hpos
    obtain ⟨-, hdue⟩ := hpos
    cases hd : e.dueAfter with
    | nothing => exact absurd hd hdue
    | clear | stable => exact ⟨_, rfl⟩
  | fCsLow | fCsHigh =>
    simp only [hp, Bool.and_eq_true] at hpos
    exact ⟨_, if_pos hpos.1⟩
  | fData => exact ⟨_, if_pos hslot⟩
  | fClkLow | fWaitLow | fClkHigh | fWaitHigh => exact ⟨_, rfl⟩

/-- Loading the frame that the register already holds only sets the slot. -/
theorem Encoder.beginFrame_of_loaded {e : Encoder} (hframe : e.frame = frameWord (frameSlot e.frame 6) e.payload)
    (hphase : e.phase = frameStartPhase e.cfg) :
    e.beginFrame (frameSlot e.frame 6) e.payload = { e with slot := 0#5 } := by
  unfold Encoder.beginFrame
  rw [← hframe, ← hphase]

/-- Away from the start of a frame a busy encoder's step fetches nothing and emits (10_state.md R25). -/
theorem State.cycle_of_not_atFrameStart {s : State} (hfault : s.enc.fault = false) (hbusy : s.enc.busy = true)
    (hstart : s.enc.atFrameStart = false) : s.cycle = s.emitNext := by
  simp [State.cycle, State.fetch, State.proceed, hfault, hbusy, hstart]

/-- At the start of a frame the step runs the wire frame in the register. -/
theorem State.cycle_of_atFrameStart {s : State} {i : Instr} (hfault : s.enc.fault = false)
    (hstart : s.enc.atFrameStart = true) (hdecode : decodeFrame s.enc.frame = .ok i) : s.cycle = exec i s := by
  have hbusy := (s.enc.atFrameStart_iff.mp hstart).1
  simp [State.cycle, State.fetch, hfault, hbusy, hstart, hdecode]

/-- At the start of the frame that the register holds, the step is its emission from slot 0. -/
theorem State.cycle_of_loaded {s : State} (hfault : s.enc.fault = false) (hstart : s.enc.atFrameStart = true)
    (hframe : s.enc.frame = frameWord (frameSlot s.enc.frame 6) s.enc.payload) :
    s.cycle = ({ s with enc := { s.enc with slot := 0#5 } } : State).emitNext := by
  obtain ⟨-, hphase, -⟩ := s.enc.atFrameStart_iff.mp hstart
  calc s.cycle = s.sendFrame (frameSlot s.enc.frame 6) s.enc.payload := by
        rw [State.cycle_of_atFrameStart hfault hstart (hframe ▸ decodeFrame_frameWord _ _), exec_wireFrame]
    _ = ({ s with enc := s.enc.beginFrame (frameSlot s.enc.frame 6) s.enc.payload } : State).emitNext :=
        State.sendFrame_at_start hstart
    _ = _ := by rw [Encoder.beginFrame_of_loaded hframe hphase]

/-- A busy encoder in order does nothing in a step but emit, possibly from another value of `slot`: at the start of a
frame `slot` is set to 0, else it stays. -/
theorem State.cycle_of_busy {s : State} (hflags : s.enc.flagsOk = true) (hpos : s.enc.positionOk = true)
    (hbusy : s.enc.busy = true) : ∃ (k : BitVec 5) (ev : Event),
      s.cycle = ({ s with enc := { s.enc with slot := k } } : State).emitNext ∧
      ({ s.enc with slot := k } : Encoder).nextEvent = some ev := by
  obtain ⟨hphase, hfaultPhase, hcode, -⟩ := s.enc.flagsOk_iff.mp hflags
  have hfault := (Encoder.running_of_flagsOk _ hflags (hphase ▸ hbusy)).fault
  cases hstart : s.enc.atFrameStart with
  | false =>
    obtain ⟨ev, hev⟩ := Encoder.exists_nextEvent hflags hpos hbusy
    exact ⟨s.enc.slot, ev, State.cycle_of_not_atFrameStart hfault hbusy hstart, hev⟩
  | true =>
    obtain ⟨-, hbegin, -⟩ := s.enc.atFrameStart_iff.mp hstart
    have hframeOk := Encoder.frameOk_of_positionOk hpos (hbegin ▸ frameStartPhase_ofFrame _)
    have hflags' : ({ s.enc with slot := 0#5 } : Encoder).flagsOk = true :=
      (Encoder.flagsOk_iff _).mpr ⟨hphase, hfaultPhase, hcode, by simp⟩
    obtain ⟨ev, hev⟩ := Encoder.exists_nextEvent hflags' hpos hbusy
    exact ⟨0#5, ev, State.cycle_of_loaded hfault hstart ((Encoder.frameOk_iff _).mp hframeOk).1, hev⟩

end Sys2Proof.Machine
end

section
/-! SUPPORT. The two ways an operation or a request ends badly: an event of the operation fails (60_exceptions.md R232), or
the request needs `configured` and the encoder has it not (R237). -/

namespace Sys2Proof.Machine

@[simp] theorem State.afterFailure_enc (s : State) : s.afterFailure.enc = s.enc.raisePlatformIOFailure := rfl

@[simp] theorem State.afterFailure_peers (s : State) : s.afterFailure.peers = s.peers := s.spendAnswer_peers

/-- A failed event touches no line's level. -/
@[simp] theorem State.afterFailure_level (s : State) (l : Line) : s.afterFailure.level l = s.level l := by
  cases l with
  | sdo => exact s.spendAnswer_sdo
  | sclk => exact s.spendAnswer_sclk
  | cs | res => rfl

/-- A platform that cannot fail answers success (20_memory.md R64). -/
theorem State.answer_of_infallible {s : State} (h : s.enc.cfg.ioFallible = false) : s.answer = true := by
  simp [State.answer, h]

/-- Settles O23: the step is the emission of the position's event, whose failure changes flags and phase only. -/
theorem failureAbandonsTheOperation : Obligations.FailureAbandonsTheOperation := by
  refine ⟨fun s hc hu ho hlink hbusy hfail => ?_, fun s => State.answer_of_infallible⟩
  obtain ⟨hflags, hpos, -⟩ := s.enc.inOrder_iff.mp (List.all_eq_true.mp ho s.enc List.mem_cons_self)
  obtain ⟨k, ev, hcycle, hev⟩ := State.cycle_of_busy (s := s.spendAct) hflags hpos hbusy
  have hstep := (step_undisturbed hc hu).trans (hcycle.trans (State.emitNext_failure hlink hev hfail))
  exact ⟨_, hstep, rfl, rfl, rfl, rfl, rfl, rfl, rfl, State.afterFailure_level _, fun _ => rfl,
    State.afterFailure_peers _, rfl⟩

/-- A request that needs `configured` is refused without it, where its other check passes (60_exceptions.md R240). -/
theorem State.accept_unconfigured {s : State} {needsSequencer : Bool} {start : Encoder → Encoder}
    (hready : s.enc.reqReady = true) (hseq : needsSequencer = true → s.enc.cfg.hasInitSeq = true)
    (hconf : s.enc.configured = false) : s.accept needsSequencer true start = .refused .notConfigured := by
  cases needsSequencer with
  | false => simp [State.accept, hready, hconf]
  | true => simp [State.accept, hready, hconf, hseq rfl]

/-- Settles O16: the three requests need `configured`, and SHUTDOWN an InitSequencer, which R240 checks first. -/
theorem unconfiguredRequestsAreRefused : Obligations.UnconfiguredRequestsAreRefused :=
  fun _ _ hready hconf => ⟨State.accept_unconfigured hready nofun hconf, State.accept_unconfigured hready nofun hconf,
    fun hseq => State.accept_unconfigured hready (fun _ => hseq) hconf⟩

end Sys2Proof.Machine
end

section
/-! SUPPORT. Words and bytes: what decoding makes of an instruction's own word (30_encoding.md R97, R110, R111), the frame
decoder's inverse, and the layout of log entry 12. -/

namespace Sys2Proof

/-! ### The request word -/

/-- Bits 7:0 of a request word are its operand, bits 9:8 its opcode (30_encoding.md R110). -/
theorem reqWord_getLsbD (op : BitVec 2) (b : Byte) (i : Nat) :
    (reqWord op b).getLsbD i = if i < 8 then b.getLsbD i else op.getLsbD (i - 8) := BitVec.getLsbD_append

theorem reqPayload_reqWord (op : BitVec 2) (b : Byte) : reqPayload (reqWord op b) = b := by
  ext i hi
  simp [reqPayload, reqWord_getLsbD, hi]

/-- A request word is put together from its opcode and its operand. -/
theorem reqWord_of_parts (w : ReqWord) : reqWord (w.extractLsb' 8 2) (reqPayload w) = w := by
  refine BitVec.eq_of_getLsbD_eq fun i hi => ?_
  rw [reqWord_getLsbD, reqPayload]
  by_cases hlow : i < 8
  · simp [hlow]
  · simp [hlow, show i - 8 < 2 by omega, show 8 + (i - 8) = i by omega]

/-- The opcode map on a word put together from opcode and operand (30_encoding.md R111). -/
theorem decodeRequest_reqWord (op : BitVec 2) (b : Byte) : decodeRequest (reqWord op b) =
    match op.getLsbD 1, op.getLsbD 0 with
    | false, false => .sendCommand b
    | false, true => .sendData b
    | true, false => .init b
    | true, true => .shutdown b := by
  simp only [decodeRequest, reqWord_getLsbD, reqPayload_reqWord]
  rfl

/-- A request word in two bytes, the opcode in the upper one. -/
theorem decodeBytes_request (op : BitVec 2) (b : Byte) :
    decodeBytes [b, op.setWidth 8] = .ok (decodeRequest (reqWord op b)) := by
  have hfits : op.setWidth 8 &&& 0xFC#8 = 0#8 := by revert op; decide
  have hjoin : (op.setWidth 8 ++ b : BitVec 16).extractLsb' 0 10 = reqWord op b := by
    refine BitVec.eq_of_getLsbD_eq fun i hi => ?_
    have hbit : (op.setWidth 8 ++ b : BitVec 16).getLsbD i = _ := BitVec.getLsbD_append
    simp only [BitVec.getLsbD_extractLsb', Nat.zero_add, hbit, reqWord_getLsbD, BitVec.getLsbD_setWidth]
    by_cases hlow : i < 8
    · simp [hi, hlow]
    · simp [hi, hlow, show i - 8 < 8 by omega]
  simp [decodeBytes, hfits, hjoin]

/-- A request word as the number of its row. -/
theorem decodeTableWord_request (w : ReqWord) : decodeTableWord 16 w.toNat = some (decodeRequest w) := by
  have hlt : w.toNat < 2 ^ 10 := w.isLt
  have hhi : BitVec.ofNat 8 (w.toNat / 256) = (w.extractLsb' 8 2).setWidth 8 := by
    apply BitVec.eq_of_toNat_eq
    simp [BitVec.toNat_setWidth, BitVec.extractLsb'_toNat, Nat.shiftRight_eq_div_pow]
    omega
  have hlo : BitVec.ofNat 8 w.toNat = w.extractLsb' 0 8 := by
    apply BitVec.eq_of_toNat_eq
    simp
  have hword := reqWord_of_parts w
  rw [reqPayload] at hword
  simp only [decodeTableWord, Nat.reduceLeDiff, if_true, hhi, hlo, decodeBytes_request, hword]
  simp [Except.toOption]
  omega

/-! ### The wire frame -/

/-- Eight bits put together are read back one by one. -/
theorem byteBits_getLsbD (b : Byte) : byteBit (b.getLsbD 0) 0 ||| byteBit (b.getLsbD 1) 1 ||| byteBit (b.getLsbD 2) 2 |||
    byteBit (b.getLsbD 3) 3 ||| byteBit (b.getLsbD 4) 4 ||| byteBit (b.getLsbD 5) 5 ||| byteBit (b.getLsbD 6) 6 |||
    byteBit (b.getLsbD 7) 7 = b := by
  revert b; decide

/-- A frame in three bytes. -/
theorem decodeBytes_frame (f : FrameWord) : decodeBytes (encode.frameBytes f) = decodeFrame f := by
  have hjoin : (f.extractLsb' 16 8 ++ f.extractLsb' 8 8 ++ f.extractLsb' 0 8 : FrameWord) = f := by
    refine BitVec.eq_of_getLsbD_eq fun i hi => ?_
    have hlow : (f.extractLsb' 16 8 ++ f.extractLsb' 8 8 ++ f.extractLsb' 0 8 : FrameWord).getLsbD i = _ :=
      BitVec.getLsbD_append
    have hmid : (f.extractLsb' 16 8 ++ f.extractLsb' 8 8 : BitVec 16).getLsbD (i - 8) = _ := BitVec.getLsbD_append
    rw [hlow, hmid]
    simp only [BitVec.getLsbD_extractLsb']
    obtain h | h | h : i < 8 ∨ (8 ≤ i ∧ i < 16) ∨ 16 ≤ i := by omega
    · simp [h]
    · simp [show ¬ i < 8 by omega, show i - 8 < 8 by omega, show 8 + (i - 8) = i by omega]
    · simp [show ¬ i < 8 by omega, show ¬ i - 8 < 8 by omega, show i - 8 - 8 < 8 by omega,
        show 16 + (i - 8 - 8) = i by omega]
  simp only [encode.frameBytes, decodeBytes, hjoin]

/-- A frame as the number of its row. -/
theorem decodeTableWord_frame (f : FrameWord) : decodeTableWord 24 f.toNat = (decodeFrame f).toOption := by
  have hlt : f.toNat < 2 ^ 24 := f.isLt
  have hbyte (k : Nat) : BitVec.ofNat 8 (f.toNat / 2 ^ k) = f.extractLsb' k 8 := by
    apply BitVec.eq_of_toNat_eq
    simp [Nat.shiftRight_eq_div_pow]
  have hbytes : [BitVec.ofNat 8 f.toNat, BitVec.ofNat 8 (f.toNat / 256), BitVec.ofNat 8 (f.toNat / 65536)]
      = encode.frameBytes f := by
    rw [encode.frameBytes, ← hbyte 0, ← hbyte 8, ← hbyte 16, pow_zero, Nat.div_one]
    rfl
  have hrow : decodeTableWord 24 f.toNat = if f.toNat < 2 ^ 24 ∧ 24 ≤ 24 then (decodeBytes [BitVec.ofNat 8 f.toNat,
      BitVec.ofNat 8 (f.toNat / 256), BitVec.ofNat 8 (f.toNat / 65536)]).toOption else none := rfl
  rw [hrow, if_pos ⟨hlt, Nat.le_refl 24⟩, hbytes, decodeBytes_frame]

/-- Settles O1: a request is decoded from its opcode and operand, a frame by the frame decoder. -/
theorem decodingInvertsEncoding : Obligations.DecodingInvertsEncoding := by
  have hrequest (op : BitVec 2) (b : Byte) (i : Instr) (hi : decodeRequest (reqWord op b) = i) :
      decodeBytes [b, op.setWidth 8] = .ok i ∧ decodeTableWord 16 (reqWord op b).toNat = some i := by
    rw [decodeBytes_request, decodeTableWord_request, hi]
    exact ⟨rfl, rfl⟩
  have hframe (dc : Bool) (b : Byte) (i : Instr) (hi : decodeFrame (frameWord dc b) = .ok i) :
      decodeBytes (encode.frameBytes (frameWord dc b)) = .ok i ∧
        decodeTableWord 24 (frameWord dc b).toNat = some i := by
    rw [decodeBytes_frame, decodeTableWord_frame, hi]
    exact ⟨rfl, rfl⟩
  intro i _
  cases i with
  | sendCommand b => exact hrequest 0#2 b _ (decodeRequest_reqWord 0#2 b)
  | sendData b => exact hrequest 1#2 b _ (decodeRequest_reqWord 1#2 b)
  | init b => exact hrequest 2#2 b _ (decodeRequest_reqWord 2#2 b)
  | shutdown b => exact hrequest 3#2 b _ (decodeRequest_reqWord 3#2 b)
  | wireCommandFrame b => exact hframe false b _ (Machine.decodeFrame_frameWord false b)
  | wireDataFrame b => exact hframe true b _ (Machine.decodeFrame_frameWord true b)

end Sys2Proof
end

section
/-! SUPPORT. The frame decoder from both sides (30_encoding.md R97, R100), and what hangs on the encodings alone. -/

namespace Sys2Proof

/-- The bits of a frame's payload byte are its slots 8 to 11 and 16 to 19 (30_encoding.md R97). -/
theorem packPayload_framePayload (f : FrameWord) : packPayload (framePayload f) =
    [frameSlot f 8, frameSlot f 9, frameSlot f 10, frameSlot f 11, false, false, false, false,
     frameSlot f 16, frameSlot f 17, frameSlot f 18, frameSlot f 19, false, false, false, false] := by
  unfold framePayload
  generalize frameSlot f 8 = b0, frameSlot f 9 = b1, frameSlot f 10 = b2, frameSlot f 11 = b3,
    frameSlot f 16 = b4, frameSlot f 17 = b5, frameSlot f 18 = b6, frameSlot f 19 = b7
  revert b0 b1 b2 b3 b4 b5 b6 b7
  decide

/-- A frame is known from its 24 slots. -/
theorem frameWord_ext {f g : FrameWord} (h : (List.range 24).map (frameSlot f) = (List.range 24).map (frameSlot g)) :
    f = g := by
  refine BitVec.eq_of_getLsbD_eq fun i hi => ?_
  have hslot := List.map_inj_left.mp h (23 - i) (List.mem_range.mpr (by omega))
  simpa [frameSlot, show 23 - (23 - i) = i by omega] using hslot

/-- A slot that a mask selects has the level the mask's match gives it. -/
theorem frameSlot_of_mask {f mask value : FrameWord} (h : f &&& mask = value) {s : Nat} (hs : frameSlot mask s = true) :
    frameSlot f s = frameSlot value s := by
  rw [← h]
  simp only [frameSlot] at hs ⊢
  rw [BitVec.getLsbD_and, hs, Bool.and_true]

/-- The frame decoder accepts a frame's fixed slots only: what it accepts is the frame of the level and the byte it
reads (30_encoding.md R97, R100). -/
theorem eq_of_decodeFrame {f : FrameWord} {i : Instr} (h : decodeFrame f = .ok i) :
    f = frameWord (frameSlot f 6) (framePayload f) ∧
      i = if frameSlot f 6 then .wireDataFrame (framePayload f) else .wireCommandFrame (framePayload f) := by
  unfold decodeFrame at h
  split at h
  · cases h
  next hstart =>
  split at h
  · cases h
  next hrw =>
  split at h
  · cases h
  next hend =>
  split at h
  · cases h
  next hfiller =>
  rw [not_not] at hstart hfiller
  have hone (s : Nat) (hs : frameSlot 0xF80000#24 s = true) : frameSlot f s = true :=
    (frameSlot_of_mask hstart hs).trans hs
  have hzero (s : Nat) (hs : frameSlot 0x000F0F#24 s = true) : frameSlot f s = false :=
    (frameSlot_of_mask hfiller hs).trans (by simp [frameSlot])
  have hframe : f = frameWord (frameSlot f 6) (framePayload f) := by
    apply frameWord_ext
    rw [Machine.frameWord_slots, frameLevels, framePrefix, packPayload_framePayload]
    simp [List.range, List.range.loop, hone 0 rfl, hone 1 rfl, hone 2 rfl, hone 3 rfl, hone 4 rfl,
      hzero 12 rfl, hzero 13 rfl, hzero 14 rfl, hzero 15 rfl, hzero 20 rfl, hzero 21 rfl, hzero 22 rfl, hzero 23 rfl, hrw, hend]
  split at h
  next hdc => cases h; exact ⟨hframe, by rw [if_pos hdc]⟩
  next hdc => cases h; exact ⟨hframe, by rw [if_neg hdc]⟩

theorem decodeLevels_frameLevels (dc : Bool) (b : Byte) : decodeLevels (frameLevels dc b) = some (dc, b) :=
  congrArg (fun byte => some (dc, byte)) (byteBits_getLsbD b)

/-- Settles O7: the decoder's slots are the frame's, and the slots it fixes are those every frame has. -/
theorem frameDecoderAcceptsExactlyTheFrames : Obligations.FrameDecoderAcceptsExactlyTheFrames :=
  ⟨fun dc b => ⟨Machine.decodeFrame_frameWord dc b, decodeLevels_frameLevels dc b⟩,
    fun _ _ h => ⟨_, _, (eq_of_decodeFrame h).1⟩⟩

/-- Settles O3: the opcode map reads the opcode's two bits, and the encoder writes them back. -/
theorem encodingInvertsRequestDecoding : Obligations.EncodingInvertsRequestDecoding := by
  intro w
  rw [← reqWord_of_parts w, decodeRequest_reqWord]
  generalize w.extractLsb' 8 2 = op, reqPayload w = b
  obtain rfl | rfl | rfl | rfl : op = 0#2 ∨ op = 1#2 ∨ op = 2#2 ∨ op = 3#2 := by revert op; decide
  · rfl
  · rfl
  · rfl
  · rfl

/-- Settles O8: each word is evaluated. -/
theorem writtenOutWordsDecode : Obligations.WrittenOutWordsDecode := by
  unfold Obligations.WrittenOutWordsDecode
  decide

/-- Settles O14: the masked word selects the row, whose meaning does not read the operand. -/
theorem sequenceOperationsIgnoreTheirPayload : Obligations.SequenceOperationsIgnoreTheirPayload := by
  intro s w
  obtain ⟨-, -, hinit, hshutdown⟩ := requestWordSelectsExactlyOneRow w (w.extractLsb' 0 8)
  refine ⟨fun h => ?_, fun h => ?_⟩
  · rw [hinit.mpr ⟨h, rfl⟩]; rfl
  · rw [hshutdown.mpr ⟨h, rfl⟩]; rfl

end Sys2Proof
end

section
/-! SUPPORT. When a configuration is well formed (60_exceptions.md R231, 42_init_sequencer.md R184), and what every step
refuses before it acts (60_exceptions.md R231, 20_memory.md R77). -/

namespace Sys2Proof.Machine

/-- A table passes the check exactly if it keeps R184. -/
theorem romFlaw_eq_none_iff_keepsR184 (rom : List SeqEntry) : romFlaw rom = none ↔ KeepsR184 rom := by
  rw [romFlaw_eq_none, stepsInOrder_iff, sameCode_iff, sameCode_iff]
  constructor
  · rintro ⟨horder, hsteps, hword, hentry, hext, hfund⟩
    simp only [entryOk_iff, imp_and, forall_and] at hentry
    obtain ⟨hdata, ⟨hrowBit, habove, hclear, hhome, hcontrast⟩, hclearPause, hstablePause⟩ := hentry
    exact {
      order := horder
      steps := fun e he => by
        have := hsteps e he
        simp only [romStepNumbers, List.mem_cons, List.not_mem_nil, or_false] at this
        omega
      step2 := of_decide_eq_true (hword 2 (by decide))
      step3 := of_decide_eq_true (hword 3 (by decide))
      step4 := of_decide_eq_true (hword 4 (by decide))
      step5 := of_decide_eq_true (hword 5 (by decide))
      step6 := (wordsOk_six _).mp (hword 6 (by decide))
      step7 := of_decide_eq_true (hword 7 (by decide))
      step8 := of_decide_eq_true (hword 8 (by decide))
      step9 := of_decide_eq_true (hword 9 (by decide))
      step10 := (wordsOk_ten _).mp (hword 10 (by decide))
      step11 := of_decide_eq_true (hword 11 (by decide))
      step12 := of_decide_eq_true (hword 12 (by decide))
      step13 := of_decide_eq_true (hword 13 (by decide))
      data := hdata
      rowBit := hrowBit
      oneCode := fun e he f hf hparam hp => by
        obtain hp | hp := hp
        · exact hext e he f hf hp (hparam ▸ hp)
        · exact hfund e he f hf hp (hparam ▸ hp)
      rowsAboveTwo := habove
      clear := hclear
      home := hhome
      contrast := hcontrast
      pauses := fun e he => ⟨hclearPause e he, hstablePause e he⟩ }
  · intro h
    refine ⟨h.order, fun e he => ?_, fun n hn => ?_, fun e he => (entryOk_iff e).mpr ⟨h.data e he, ⟨h.rowBit e he,
      h.rowsAboveTwo e he, h.clear e he, h.home e he, h.contrast e he⟩, h.pauses e he⟩, ?_, ?_⟩
    · have := h.steps e he
      simp only [romStepNumbers, List.mem_cons, List.not_mem_nil, or_false]
      omega
    · simp only [romStepNumbers, List.mem_cons, List.not_mem_nil, or_false] at hn
      obtain rfl | rfl | rfl | rfl | rfl | rfl | rfl | rfl | rfl | rfl | rfl | rfl := hn
      · exact decide_eq_true h.step2
      · exact decide_eq_true h.step3
      · exact decide_eq_true h.step4
      · exact decide_eq_true h.step5
      · exact (wordsOk_six _).mpr h.step6
      · exact decide_eq_true h.step7
      · exact decide_eq_true h.step8
      · exact decide_eq_true h.step9
      · exact (wordsOk_ten _).mpr h.step10
      · exact decide_eq_true h.step11
      · exact decide_eq_true h.step12
      · exact decide_eq_true h.step13
    · exact fun e he f hf hep hfp => h.oneCode e he f hf (hep.trans hfp.symm) (.inl hep)
    · exact fun e he f hf hep hfp => h.oneCode e he f hf (hep.trans hfp.symm) (.inr hep)

/-- R231, conjunct by conjunct. -/
theorem wellFormed_iff (c : Config) : c.WellFormed ↔
    (1 ≤ c.rows ∧ c.rows ≤ 4) ∧ 1 ≤ c.columns ∧ 3 ≤ c.tSettleUs ∧ 2 ≤ c.tClearMs ∧ 250 ≤ c.tStableMs ∧
      KeepsR184 c.seqRom := by
  rw [← romFlaw_eq_none_iff_keepsR184]
  unfold Config.WellFormed Config.flaw
  split_ifs with hrows hcolumns hsettle hclear hstable
  · simp; omega
  · simp; omega
  · simp; omega
  · simp; omega
  · simp; omega
  · have hgeometry : (1 ≤ c.rows ∧ c.rows ≤ 4) ∧ 1 ≤ c.columns ∧ 3 ≤ c.tSettleUs ∧ 2 ≤ c.tClearMs ∧
        250 ≤ c.tStableMs := by omega
    obtain ⟨h1, h2, h3, h4, h5⟩ := hgeometry
    exact ⟨fun h => ⟨h1, h2, h3, h4, h5, h⟩, fun ⟨_, _, _, _, _, h⟩ => h⟩

theorem KeepsR184.of_wellFormed {c : Config} (h : c.WellFormed) : KeepsR184 c.seqRom :=
  (romFlaw_eq_none_iff_keepsR184 _).mp (romFlaw_of_wellFormed h)

theorem construct_of_flaw {c : Config} {flaw : ConfigFlaw} (h : c.flaw = some flaw) :
    construct c = .refused (.configError flaw) := by
  simp [construct, h]

/-- The acting encoder's flaw is the first that is looked at. -/
theorem State.configFlaw_of_enc {s : State} {flaw : ConfigFlaw} (h : s.enc.cfg.flaw = some flaw) :
    s.configFlaw = some flaw := by
  simp [State.configFlaw, h]

theorem step_of_configFlaw {s : State} {flaw : ConfigFlaw} (h : s.configFlaw = some flaw) :
    step s = .refused (.configError flaw) := by
  simp [step, State.stepOnce, h]

/-- Settles O27: the check of R231 conjunct by conjunct, and what construction and every step make of a flaw. -/
theorem illFormedConfigurationYieldsNoEncoder : Obligations.IllFormedConfigurationYieldsNoEncoder :=
  ⟨wellFormed_iff, fun _ _ => construct_of_flaw, fun _ _ h => step_of_configFlaw (State.configFlaw_of_enc h)⟩

/-- A link is shared badly by other instances and one without chip-select (20_memory.md R77). -/
theorem State.sharingOk_eq_false_iff (s : State) :
    s.sharingOk = false ↔ s.peers ≠ [] ∧ ∃ e ∈ s.instances, e.cfg.csPresent = false := by
  rw [State.sharingOk, Bool.or_eq_false_iff, List.isEmpty_eq_false_iff, List.all_eq_false]
  simp [State.instances]

/-- The event of a position is refused by no name. -/
theorem State.emitNext_ne_refused (s : State) (r : Refusal) : s.emitNext ≠ .refused r := by
  unfold State.emitNext
  split
  · nofun
  · split
    · nofun
    · dsimp only
      split <;> nofun

/-- A request is refused by two names only (60_exceptions.md R237, R238). -/
theorem State.accept_refused {s : State} {needsSequencer needsConfigured : Bool} {start : Encoder → Encoder}
    {r : Refusal} (h : s.accept needsSequencer needsConfigured start = .refused r) :
    r = .noInitSequencer ∨ r = .notConfigured := by
  unfold State.accept at h
  split at h
  · cases h
  · split at h
    · cases h; exact .inl rfl
    · split at h
      · cases h; exact .inr rfl
      · cases h

/-- The names under which an instruction is refused. -/
theorem exec_refused {i : Instr} {s : State} {r : Refusal} (h : exec i s = .refused r) :
    r = .noInitSequencer ∨ r = .notConfigured ∨ r = .notAtFrameStart := by
  have hframe (dc : Bool) (b : Byte) (h : s.sendFrame dc b = .refused r) : r = .notAtFrameStart := by
    unfold State.sendFrame at h
    split at h
    · exact absurd h (State.emitNext_ne_refused _ _)
    · cases h; rfl
  cases i with
  | sendCommand b | sendData b | init b | shutdown b =>
    obtain h | h := State.accept_refused h
    · exact .inl h
    · exact .inr (.inl h)
  | wireCommandFrame b => exact .inr (.inr (hframe _ _ h))
  | wireDataFrame b => exact .inr (.inr (hframe _ _ h))

/-- The names under which the acting encoder's step is refused. -/
theorem State.cycle_refused {s : State} {r : Refusal} (h : s.cycle = .refused r) :
    r = .notAFrame ∨ r = .noInitSequencer ∨ r = .notConfigured ∨ r = .notAtFrameStart := by
  unfold State.cycle at h
  split at h
  · exact .inr (exec_refused h)
  · cases h; exact .inl rfl
  · unfold State.proceed at h
    split at h
    · cases h
    · split at h
      · exact absurd h (State.emitNext_ne_refused _ _)
      · cases h

/-- What the outside does is refused by no name, so an act is refused only as the acting encoder's step. -/
theorem State.act_refused {s : State} {r : Refusal} (h : s.act = .refused r) : s.spendAct.cycle = .refused r := by
  unfold State.act at h
  split at h
  · exact h
  · exact h
  · cases h
  · unfold State.hardwareResetPeer at h; split at h <;> cases h
  · unfold State.grant at h; split at h <;> cases h

/-- Settles O28: the link is looked at after the configurations, and no other part of a step refuses under that name. -/
theorem sharedLinkNeedsChipSelect : Obligations.SharedLinkNeedsChipSelect := by
  intro s
  rw [← State.sharingOk_eq_false_iff]
  constructor
  · intro h
    cases hflaw : s.configFlaw with
    | some flaw => rw [step_of_configFlaw hflaw] at h; cases h
    | none =>
      refine ⟨rfl, Bool.eq_false_iff.mpr fun hshare => ?_⟩
      rw [step_eq_act hflaw hshare] at h
      have := State.cycle_refused (State.act_refused h)
      simp at this
  · rintro ⟨hflaw, hshare⟩
    simp [step, State.stepOnce, hflaw, hshare]

end Sys2Proof.Machine
end

section
/-! SUPPORT. The entries of a table that keeps R184 (42_init_sequencer.md R184, R186, R190, R200). -/

namespace Sys2Proof.Machine

/-! ### What one entry sends -/

/-- An entry with one of the two data names sends a data frame, any other a command frame (R184(b)). -/
theorem KeepsR184.entryDc_eq_false {rom : List SeqEntry} (h : KeepsR184 rom) {e : SeqEntry} (he : e ∈ rom)
    (hparam : ¬ (e.param = .datVreg ∨ e.param = .datRomCgram)) : entryDc e = false := by
  have hkind : e.kind ≠ .data := fun hk => hparam ((h.data e he).mp hk)
  unfold entryDc
  cases hk : e.kind with
  | command => rfl
  | data => exact absurd hk hkind

/-- An entry of any name but clear and display-on has no pause (R184(e), (i)). -/
theorem KeepsR184.after_eq_nothing {rom : List SeqEntry} (h : KeepsR184 rom) {e : SeqEntry} (he : e ∈ rom)
    (hclear : e.param ≠ .cmdClear) (hon : e.param ≠ .cmdDisplayOn) : e.after = .nothing := by
  obtain ⟨hc, hs⟩ := h.pauses e he
  cases ha : e.after with
  | nothing => rfl
  | clear => exact absurd (hc.mp ha) hclear
  | stable => exact absurd (hs.mp ha) hon

/-- A command entry with a fixed byte sends its command frame. -/
theorem entryEvents_of_fixed {e : SeqEntry} (c : Config) {b : Byte} (hdc : entryDc e = false)
    (hcode : e.code = .fixed b) : entryEvents c e = frameEvents c false b := by
  simp [entryEvents, hdc, entryByte, hcode]

/-! ### The first five entries -/

/-- Steps 2 to 5 are the first five entries of the table, step 5 the fifth (R184(a)). -/
theorem KeepsR184.first_five {rom : List SeqEntry} (h : KeepsR184 rom) : ∃ ext select vreg fund off rest,
    rom = ext :: select :: vreg :: fund :: off :: rest ∧ fund.param = .cmdFuncsetFund ∧ off.param = .cmdDisplayOff ∧
      rom.filter (fun e => e.initStep == 5) = [off] := by
  obtain ⟨ext, h2, -⟩ := stepNames_one h.step2
  obtain ⟨select, vreg, h3, -, -⟩ := stepNames_two h.step3
  obtain ⟨fund, h4, hfund⟩ := stepNames_one h.step4
  obtain ⟨off, h5, hoff⟩ := stepNames_one h.step5
  have hsteps := h.eq_steps
  rw [show List.range' 2 12 = 2 :: 3 :: 4 :: 5 :: List.range' 6 8 from rfl] at hsteps
  simp only [List.flatMap_cons, h2, h3, h4, h5, List.cons_append, List.nil_append] at hsteps
  exact ⟨ext, select, vreg, fund, off, _, hsteps, hfund, hoff, h5⟩

/-- Display-off is a name of step 5 only. -/
theorem KeepsR184.initStep_of_displayOff {rom : List SeqEntry} (h : KeepsR184 rom) {e : SeqEntry} (he : e ∈ rom)
    (hparam : e.param = .cmdDisplayOff) : e.initStep = 5 := by
  have hname := mem_stepNames he
  obtain ⟨hlow, hhigh⟩ := h.steps e he
  obtain ⟨i, j, k, l, h6⟩ := h.step6
  obtain ⟨i', j', k', l', m, n, o, p, q, r, s, t, h10⟩ := h.step10
  by_contra hne
  generalize e.initStep = step at *
  rw [hparam] at hname
  interval_cases step
  · simp [h.step2] at hname
  · simp [h.step3] at hname
  · simp [h.step4] at hname
  · exact hne rfl
  · simp [h6, nameRuns] at hname
  · simp [h.step7] at hname
  · simp [h.step8] at hname
  · simp [h.step9] at hname
  · simp [h10, nameRuns] at hname
  · simp [h.step11] at hname
  · simp [h.step12] at hname
  · simp [h.step13] at hname

/-- The entries of the display-off command are one entry, with a fixed byte. -/
theorem KeepsR184.displayOff_code {rom : List SeqEntry} (h : KeepsR184 rom) {off : SeqEntry} (hoff : off ∈ rom)
    (hparam : off.param = .cmdDisplayOff) : ∃ b, off.code = .fixed b := by
  cases hcode : off.code with
  | fixed b => exact ⟨b, rfl⟩
  | rowBit b => have := (h.rowBit off hoff).mp ⟨b, hcode⟩; simp [hparam] at this
  | rowsAboveTwo a b => have := (h.rowsAboveTwo off hoff).mp ⟨a, b, hcode⟩; simp [hparam] at this

/-- SHUTDOWN sends entries 3 and 4 of a table that has them (R200). -/
theorem shutdownEvents_of_first_five {c : Config} {a b d fund off : SeqEntry} {rest : List SeqEntry}
    (h : c.seqRom = a :: b :: d :: fund :: off :: rest) :
    shutdownEvents c = entryEvents c fund ++ entryEvents c off ++ parkEvents c := by
  simp [shutdownEvents, h, shutdownEnd, shutdownFirst, shutdownFrames]

/-- Settles O36: entries 3 and 4 are those of steps 4 and 5, and all entries of their names have their codes. -/
theorem shutdownSendsFundamentalDisplayOffAndParks : Obligations.ShutdownSendsFundamentalDisplayOffAndParks := by
  intro c hc
  have h := KeepsR184.of_wellFormed hc
  obtain ⟨ext, select, vreg, fund, off, rest, hrom, hfund, hoff, hstep5⟩ := h.first_five
  have hfundMem : fund ∈ c.seqRom := by simp [hrom]
  have hoffMem : off ∈ c.seqRom := by simp [hrom]
  obtain ⟨fundByte, hfundCode⟩ := (h.rowBit fund hfundMem).mpr (.inr hfund)
  obtain ⟨offByte, hoffCode⟩ := h.displayOff_code hoffMem hoff
  have hfundDc := h.entryDc_eq_false hfundMem (by simp [hfund])
  have hoffDc := h.entryDc_eq_false hoffMem (by simp [hoff])
  refine ⟨fundByte, offByte, ⟨fund, hfundMem, hfund⟩, fun e he hp => ?_, ⟨off, hoffMem, hoff⟩, fun e he hp => ?_, ?_⟩
  · rw [← hfundCode]
    exact h.oneCode e he fund hfundMem (hp.trans hfund.symm) (.inr hp)
  · have hmem : e ∈ c.seqRom.filter (fun e => e.initStep == 5) := by
      simp [he, h.initStep_of_displayOff he hp]
    rw [hstep5, List.mem_singleton] at hmem
    rw [hmem, hoffCode]
  · have hfundEvents : entryEvents c fund =
        frameEvents c false (if c.rows = 2 ∨ c.rows = 4 then fundByte ||| c.rowBitMask else fundByte) := by
      simp [entryEvents, hfundDc, entryByte, hfundCode, withRowBit, Config.rowBit_eq_true_iff]
    rw [shutdownEvents_of_first_five hrom, hfundEvents, entryEvents_of_fixed c hoffDc hoffCode]
    simp [parkEvents]

/-! ### The last three entries -/

/-- Steps 12 and 13 are the last three entries of the table, and an entry that sets the contrast stands before them
(R184(a)). -/
theorem KeepsR184.last_three {rom : List SeqEntry} (h : KeepsR184 rom) : ∃ front clear home on,
    rom = front ++ [clear, home, on] ∧ clear.param = .cmdClear ∧ home.param = .cmdHome ∧ on.param = .cmdDisplayOn ∧
      ∃ contrast ∈ front, contrast.param = .valContrast := by
  obtain ⟨clear, h12, hclear⟩ := stepNames_one h.step12
  obtain ⟨home, on, h13, hhome, hon⟩ := stepNames_two h.step13
  obtain ⟨i, j, k, l, m, n, o, p, q, r, s, t, h10⟩ := h.step10
  have hsteps := h.eq_steps
  rw [show List.range' 2 12 = List.range' 2 10 ++ [12, 13] from rfl] at hsteps
  simp only [List.flatMap_append, List.flatMap_cons, List.flatMap_nil, h12, h13, List.append_nil] at hsteps
  have hcontrast : Param.valContrast ∈ stepNames rom 10 := by simp [h10, nameRuns]
  obtain ⟨contrast, hmem, hparam⟩ := List.mem_map.mp hcontrast
  exact ⟨_, clear, home, on, hsteps, hclear, hhome, hon, contrast,
    List.mem_flatMap.mpr ⟨10, by decide, hmem⟩, hparam⟩

theorem romEvents_append (c : Config) (front rear : List SeqEntry) :
    romEvents c (front ++ rear) = romEvents c front ++ romEvents c rear := by
  simp [romEvents]

theorem romEvents_nil (c : Config) : romEvents c [] = [] := rfl

theorem romEvents_cons (c : Config) (e : SeqEntry) (rest : List SeqEntry) :
    romEvents c (e :: rest) = entryEvents c e ++ afterEvents c e.after ++ romEvents c rest := rfl

/-- Settles O37: the last three entries are clear, home and display-on, with the pauses of R184(e), (i). -/
theorem initPausesAfterClearAndAtTheEnd : Obligations.InitPausesAfterClearAndAtTheEnd := by
  intro c hc
  obtain ⟨-, -, -, hclearMs, hstableMs, h⟩ := (wellFormed_iff c).mp hc
  obtain ⟨front, clear, home, on, hrom, hclear, hhome, hon, contrast, hcontrastMem, hcontrast⟩ := h.last_three
  have hmem (e : SeqEntry) (he : e = clear ∨ e = home ∨ e = on ∨ e ∈ front) : e ∈ c.seqRom := by
    rw [hrom]; simp; tauto
  have hevents (e : SeqEntry) (he : e = clear ∨ e = home ∨ e = on ∨ e ∈ front) {b : Byte}
      (hp : ¬ (e.param = .datVreg ∨ e.param = .datRomCgram)) (hcode : e.code = .fixed b) :
      entryEvents c e = frameEvents c false b := entryEvents_of_fixed c (h.entryDc_eq_false (hmem e he) hp) hcode
  have hclearEvents := hevents clear (by simp) (by simp [hclear]) (h.clear clear (hmem _ (by simp)) hclear)
  have hhomeEvents := hevents home (by simp) (by simp [hhome]) (h.home home (hmem _ (by simp)) hhome)
  have hcontrastEvents := hevents contrast (by simp [hcontrastMem]) (by simp [hcontrast])
    (h.contrast contrast (hmem _ (by simp [hcontrastMem])) hcontrast)
  have hclearAfter : clear.after = .clear := (h.pauses clear (hmem _ (by simp))).1.mpr hclear
  have hhomeAfter := h.after_eq_nothing (hmem home (by simp)) (by simp [hhome]) (by simp [hhome])
  have honAfter : on.after = .stable := (h.pauses on (hmem _ (by simp))).2.mpr hon
  have hinit : initEvents c = (linkSetupEvents c ++ romEvents c front) ++ frameEvents c false 0x01#8 ++
      [.waitMs c.tClearMs] ++ frameEvents c false 0x80#8 ++ (entryEvents c on ++ [.waitMs c.tStableMs]) := by
    simp [initEvents, hrom, romEvents_append, romEvents_cons, hclearEvents, hhomeEvents, hclearAfter, hhomeAfter,
      honAfter, afterEvents, romEvents_nil]
  obtain ⟨u, v, hfront⟩ := List.append_of_mem hcontrastMem
  refine ⟨hstableMs, by rw [hinit, ← List.append_assoc, List.getLast?_concat], hclearMs, _, _, hinit,
    linkSetupEvents c ++ romEvents c u, afterEvents c contrast.after ++ romEvents c v, ?_⟩
  rw [hfront, romEvents_append, romEvents_cons, hcontrastEvents]
  simp

/-! ### Counts -/

/-- The names of a table are those of its steps, step after step. -/
theorem KeepsR184.names_eq {rom : List SeqEntry} (h : KeepsR184 rom) :
    rom.map SeqEntry.param = (List.range' 2 12).flatMap (stepNames rom) := by
  conv_lhs => rw [h.eq_steps]
  rw [List.map_flatMap]
  rfl

/-- Two entries of a table have a pause (R184(e), (i)). -/
theorem KeepsR184.countP_pause {rom : List SeqEntry} (h : KeepsR184 rom) :
    rom.countP (fun e => decide (e.after ≠ .nothing)) = 2 := by
  have hparam : ∀ e ∈ rom, decide (e.after ≠ .nothing) = true ↔
      decide (e.param = .cmdClear ∨ e.param = .cmdDisplayOn) = true := fun e he => by
    obtain ⟨hc, hs⟩ := h.pauses e he
    rw [decide_eq_true_iff, decide_eq_true_iff, ← hc, ← hs]
    cases e.after <;> simp
  obtain ⟨i, j, k, l, h6⟩ := h.step6
  obtain ⟨i', j', k', l', m, n, o, p, q, r, s, t, h10⟩ := h.step10
  calc rom.countP (fun e => decide (e.after ≠ .nothing))
      = (rom.map SeqEntry.param).countP (fun p => decide (p = .cmdClear ∨ p = .cmdDisplayOn)) := by
        rw [List.countP_map]; exact List.countP_congr hparam
    _ = 2 := by
        rw [h.names_eq, show List.range' 2 12 = [2, 3, 4, 5, 6, 7, 8, 9, 10, 11, 12, 13] from rfl]
        simp [h.step2, h.step3, h.step4, h.step5, h6, h.step7, h.step8, h.step9, h10, h.step11, h.step12, h.step13,
          nameRuns, List.countP_append, List.countP_replicate]

theorem romEvents_length (c : Config) (entries : List SeqEntry) : (romEvents c entries).length =
    entries.length * (120 + 2 * c.csPresent.toNat) + entries.countP (fun e => decide (e.after ≠ .nothing)) := by
  induction entries with
  | nil => simp [romEvents_nil]
  | cons e rest ih =>
    have hafter : (afterEvents c e.after).length = if e.after ≠ .nothing then 1 else 0 := by
      cases e.after <;> rfl
    rw [romEvents_cons, List.length_append, List.length_append, ih, entryEvents, frameEvents_length, hafter,
      List.countP_cons, List.length_cons]
    simp only [decide_eq_true_eq]
    ring

theorem linkSetupEvents_length (c : Config) :
    (linkSetupEvents c).length = 4 + 2 * c.resPresent.toNat + 2 * c.csPresent.toNat := by
  unfold linkSetupEvents
  cases c.resPresent <;> cases c.csPresent <;> rfl

theorem parkEvents_length (c : Config) : (parkEvents c).length = 2 + c.csPresent.toNat + c.resPresent.toNat := by
  unfold parkEvents
  cases c.resPresent <;> cases c.csPresent <;> rfl

/-- Settles O35: a frame for each entry and the two pauses; two frames and PARK. -/
theorem sequenceEventCounts : Obligations.SequenceEventCounts := by
  intro c hc
  have h := KeepsR184.of_wellFormed hc
  obtain ⟨ext, select, vreg, fund, off, rest, hrom, -⟩ := h.first_five
  refine ⟨?_, ?_⟩
  · rw [initEvents, List.length_append, linkSetupEvents_length, romEvents_length, h.countP_pause]
    omega
  · rw [shutdownEvents_of_first_five hrom, List.length_append, List.length_append, parkEvents_length, entryEvents,
      entryEvents, frameEvents_length, frameEvents_length]
    omega

end Sys2Proof.Machine
end

section
/-! SUPPORT. What event lists carry and how they are shaped (30_encoding.md R97, R98; 10_state.md R27; 42_init_sequencer.md R190,
R199). -/

namespace Sys2Proof.Machine

/-- Settles O33: the 24 SEND_BITs of a frame carry its levels, and chip-select carries none. -/
theorem frameEventsCarryTheFrame : Obligations.FrameEventsCarryTheFrame :=
  fun c dc b scan => slotsFrom_frameEvents scan c dc b

/-- A pause carries no slot. -/
theorem slotsFrom_afterEvents (scan : Scan) (c : Config) (a : After) : slotsFrom scan (afterEvents c a) = [] := by
  cases a <;> rfl

/-- A run of table entries carries their frames, whatever was on the lines before. -/
theorem slotsFrom_romEvents (scan : Scan) (c : Config) (entries : List SeqEntry) : slotsFrom scan (romEvents c entries) =
    (entries.flatMap (fun e => frameLevels (entryDc e) (entryByte c e))).map some := by
  induction entries generalizing scan with
  | nil => rfl
  | cons e rest ih =>
    rw [romEvents_cons, slotsFrom_append, slotsFrom_append, entryEvents, slotsFrom_frameEvents, slotsFrom_afterEvents,
      ih, List.flatMap_cons, List.map_append, List.append_nil]

/-- LINK_SETUP raises the clock without having lowered it: it carries no slot. -/
theorem slotsFrom_linkSetupEvents (c : Config) : slotsFrom Scan.start (linkSetupEvents c) = [] := by
  unfold linkSetupEvents
  cases c.resPresent <;> cases c.csPresent <;> rfl

theorem splitExactly_append {α : Type} (piece rest : List α) :
    splitExactly piece.length (piece ++ rest) = some (piece, rest) := by
  induction piece with
  | nil => rfl
  | cons x xs ih => simp [splitExactly, ih]

/-- Frame after frame is cut off and decoded, with fuel for as many frames. -/
theorem decodeStreamFuel_frames (frames : List (Bool × Byte)) {fuel : Nat} (hfuel : frames.length ≤ fuel) :
    decodeStreamFuel fuel (frames.flatMap (fun f => frameLevels f.1 f.2)) = some frames := by
  induction frames generalizing fuel with
  | nil => cases fuel <;> rfl
  | cons f rest ih =>
    obtain ⟨fuel, rfl⟩ : ∃ k, fuel = k + 1 := ⟨fuel - 1, by rw [List.length_cons] at hfuel; omega⟩
    have hsplit : splitExactly 24 (frameLevels f.1 f.2 ++ rest.flatMap (fun f => frameLevels f.1 f.2)) =
        some (frameLevels f.1 f.2, rest.flatMap (fun f => frameLevels f.1 f.2)) :=
      splitExactly_append (frameLevels f.1 f.2) _
    have hcons : ∃ v vs, frameLevels f.1 f.2 ++ rest.flatMap (fun f => frameLevels f.1 f.2) = v :: vs := ⟨_, _, rfl⟩
    obtain ⟨v, vs, hv⟩ := hcons
    rw [List.flatMap_cons, hv]
    simp only [decodeStreamFuel]
    rw [← hv, hsplit]
    simp [decodeLevels_frameLevels, ih (Nat.le_of_succ_le_succ hfuel)]

theorem decodeStream_frames (frames : List (Bool × Byte)) :
    decodeStream (frames.flatMap (fun f => frameLevels f.1 f.2)) = some frames :=
  decodeStreamFuel_frames frames (by
    simp [List.length_flatMap, frameLevels_length, List.map_const', List.sum_replicate]
    omega)

/-- Settles O34: LINK_SETUP and the pauses carry nothing, and each entry carries its frame. -/
theorem initCarriesTheTablesFrames : Obligations.InitCarriesTheTablesFrames := by
  intro c
  refine ⟨?_, ?_⟩
  · rw [slots, initEvents, slotsFrom_append, slotsFrom_linkSetupEvents, slotsFrom_romEvents, List.nil_append]
  · simpa [List.flatMap_map] using decodeStream_frames (c.seqRom.map (fun e => (entryDc e, entryByte c e)))

/-- The shape of a run of SEND_BITs is that of as many zeros. -/
theorem sendBitsEvents_map_shape (c : Config) (levels : List Bool) : (sendBitsEvents c levels).map Event.shape =
    sendBitsEvents c (List.replicate levels.length false) := by
  induction levels with
  | nil => rfl
  | cons v rest ih =>
    rw [sendBitsEvents_cons, List.map_append, ih, List.length_cons, List.replicate_succ, sendBitsEvents_cons]
    rfl

/-- Settles O41: a frame's shape is that of 24 zeros; the two kinds of frame differ in slot 6, after six pulses. -/
theorem eventsDoNotDependOnThePayload : Obligations.EventsDoNotDependOnThePayload := by
  refine ⟨fun c dc dc' b b' => ?_, fun c b => ?_⟩
  · simp only [frameEvents_eq, List.map_append, sendBitsEvents_map_shape, frameLevels_length]
  · have hslot6 (dc : Bool) : frameEvents c dc b =
        (csAssertEvents c ++ sendBitsEvents c [true, true, true, true, true, false]) ++ [.set .sdo dc] ++
          (pulseEvents c ++ sendBitsEvents c (false :: packPayload b) ++ csDeassertEvents c) := by
      simp [frameEvents_eq, frameLevels, framePrefix, sendBitsEvents, sendBitEvents]
    refine ⟨_, _, hslot6 false, hslot6 true, ?_⟩
    have hassert : (csAssertEvents c).count (.set .sclk true) = 0 := by
      unfold csAssertEvents
      cases c.csPresent <;> rfl
    rw [List.count_append, hassert, sendBitsEvents_count_sclk]
    rfl

/-- Writing the levels that the lines already have shows nothing on the wire (41_frame_encoder.md R157). -/
theorem waveform_eq_nil {v : Levels} {evs : List Event}
    (h : ∀ ev ∈ evs, ∃ l b, ev = .set l b ∧ v.get l = some b) : waveform v evs = [] := by
  induction evs with
  | nil => rfl
  | cons ev rest ih =>
    obtain ⟨l, b, rfl, hlevel⟩ := h ev List.mem_cons_self
    rw [waveform, if_pos hlevel]
    exact ih fun ev hev => h ev (List.mem_cons_of_mem _ hev)

/-- PARK writes the idle levels of the present lines (42_init_sequencer.md R199). -/
theorem mem_parkEvents {c : Config} {ev : Event} (h : ev ∈ parkEvents c) :
    ∃ l : Line, l.present c = true ∧ ev = .set l l.idleLevel := by
  simp only [parkEvents, List.mem_append, List.mem_cons, List.not_mem_nil, or_false] at h
  obtain ((rfl | rfl) | hcs) | hres := h
  · exact ⟨.sdo, rfl, rfl⟩
  · exact ⟨.sclk, rfl, rfl⟩
  · split at hcs
    next hc => exact ⟨.cs, hc, List.mem_singleton.mp hcs⟩
    · cases hcs
  · split at hres
    next hr => exact ⟨.res, hr, List.mem_singleton.mp hres⟩
    · cases hres

/-- Settles O42: each event of PARK writes the level its line already has. -/
theorem parkKeepsIdleLines : Obligations.ParkKeepsIdleLines := by
  intro c v hsdo hsclk hcs hres
  refine waveform_eq_nil fun ev hev => ?_
  obtain ⟨l, hpresent, rfl⟩ := mem_parkEvents hev
  refine ⟨l, l.idleLevel, rfl, ?_⟩
  cases l with
  | sdo => exact hsdo
  | sclk => exact hsclk
  | cs => exact hcs hpresent
  | res => exact hres hpresent

end Sys2Proof.Machine
end

section
/-! SUPPORT. The host's duty after a clear (70_reset_and_hazards.md R272): the check walks the script with what is still owed. -/

namespace Sys2Proof.Machine

/-- The host's pauses before its next request add up to what it owes. -/
def PausesBeforeRequest (owed : Nat) (script : List HostAct) : Prop :=
  ∀ (pauses : List Nat) (w : ReqWord) (after : List HostAct),
    script = pauses.map .waitMs ++ .request w :: after → owed ≤ pauses.sum

/-- The host pauses long enough after every clear of its own. -/
def PausesAfterClears (c : Config) (script : List HostAct) : Prop :=
  ∀ (before after : List HostAct) (pauses : List Nat) (w : ReqWord),
    script = before ++ .request 0x001#10 :: pauses.map .waitMs ++ .request w :: after → c.tClearMs ≤ pauses.sum

theorem pausesBeforeRequest_request {owed : Nat} {w : ReqWord} {rest : List HostAct} :
    PausesBeforeRequest owed (.request w :: rest) ↔ owed = 0 := by
  constructor
  · intro h
    simpa using h [] w rest rfl
  · rintro rfl pauses w after _
    exact Nat.zero_le _

theorem pausesBeforeRequest_wait {owed n : Nat} {rest : List HostAct} :
    PausesBeforeRequest owed (.waitMs n :: rest) ↔ PausesBeforeRequest (owed - n) rest := by
  constructor
  · rintro h pauses w after rfl
    have := h (n :: pauses) w after rfl
    rw [List.sum_cons] at this
    omega
  · intro h pauses w after heq
    cases pauses with
    | nil => cases heq
    | cons m pauses =>
      obtain ⟨hm, hrest⟩ := List.cons.inj heq
      cases hm
      have := h pauses w after hrest
      rw [List.sum_cons]
      omega

theorem pausesAfterClears_wait {c : Config} {n : Nat} {rest : List HostAct} :
    PausesAfterClears c (.waitMs n :: rest) ↔ PausesAfterClears c rest := by
  constructor
  · rintro h before after pauses w rfl
    exact h (.waitMs n :: before) after pauses w rfl
  · intro h before after pauses w heq
    cases before with
    | nil => cases heq
    | cons a before => exact h before after pauses w (List.cons.inj heq).2

theorem pausesAfterClears_request {c : Config} {w : ReqWord} {rest : List HostAct} :
    PausesAfterClears c (.request w :: rest) ↔
      (w = 0x001#10 → PausesBeforeRequest c.tClearMs rest) ∧ PausesAfterClears c rest := by
  constructor
  · refine fun h => ⟨?_, ?_⟩
    · rintro rfl pauses v after rfl
      exact h [] after pauses v rfl
    · rintro before after pauses v rfl
      exact h (.request w :: before) after pauses v rfl
  · rintro ⟨hnext, hrest⟩ before after pauses v heq
    cases before with
    | nil =>
      obtain ⟨hw, htail⟩ := List.cons.inj heq
      cases hw
      exact hnext rfl pauses v after htail
    | cons a before => exact hrest before after pauses v (List.cons.inj heq).2

/-- Only the word `0x001` is the clear command: encoding it gives the word back. -/
theorem decodeRequest_eq_clear_iff (w : ReqWord) : decodeRequest w = .sendCommand 0x01#8 ↔ w = 0x001#10 := by
  constructor
  · intro h
    have hword := encodingInvertsRequestDecoding w
    rw [h] at hword
    exact BitVec.eq_of_toNat_eq hword.symm
  · rintro rfl
    decide

/-- The check passes exactly if what is owed is paused before the next request and each later clear is followed by its
pause. -/
theorem dutyKeptFrom_iff (c : Config) (owed : Nat) (script : List HostAct) :
    dutyKeptFrom c owed script = true ↔ PausesBeforeRequest owed script ∧ PausesAfterClears c script := by
  induction script generalizing owed with
  | nil => simp [dutyKeptFrom, PausesBeforeRequest, PausesAfterClears]
  | cons a rest ih =>
    cases a with
    | waitMs n => rw [dutyKeptFrom, ih, pausesBeforeRequest_wait, pausesAfterClears_wait]
    | request w =>
      have howed : PausesBeforeRequest (pauseOwed c w) rest ↔ (w = 0x001#10 → PausesBeforeRequest c.tClearMs rest) := by
        rw [pauseOwed]
        simp only [decodeRequest_eq_clear_iff]
        split
        next hw => exact ⟨fun h _ => h, fun h => h hw⟩
        next hw => exact ⟨fun _ h => absurd h hw, fun _ _ _ _ _ => Nat.zero_le _⟩
      rw [dutyKeptFrom, Bool.and_eq_true, decide_eq_true_iff, ih, pausesBeforeRequest_request,
        pausesAfterClears_request, howed]

/-- Settles O38: the host owes nothing at the start. -/
theorem clearDutyIsThePauseBeforeTheNextRequest : Obligations.ClearDutyIsThePauseBeforeTheNextRequest := by
  intro c script
  rw [clearDutyKept, dutyKeptFrom_iff]
  exact and_iff_right fun _ _ _ _ => Nat.zero_le _

end Sys2Proof.Machine
end

section
/-! SUPPORT. A request at the port and a wire frame: accepted, not accepted, or without meaning (60_exceptions.md R237 to R240,
41_frame_encoder.md R156, R160, R161, 42_init_sequencer.md R190, R200). -/

namespace Sys2Proof.Machine

/-! ### What an accepted request leaves pending -/

/-- A frame operation ends with its frame. -/
theorem Encoder.startFrameOp_pending {op : Op} (hop : op = .sendCommand ∨ op = .sendData) (dc : Bool) (b : Byte)
    (e : Encoder) : (e.startFrameOp op dc b).pending = frameEvents e.cfg dc b := by
  have hafter : ({ e with op := op } : Encoder).eventsAfterFrame = [] := by
    obtain rfl | rfl := hop
    · rfl
    · rfl
  rw [Encoder.startFrameOp, Encoder.beginFrame_pending, hafter, List.append_nil]

theorem Encoder.startInit_pending (e : Encoder) : e.startInit.pending = initEvents e.cfg := rfl

/-- SHUTDOWN's walk begins at entry 3, so what is left of the table is all that it sends (log entry 4). -/
theorem Encoder.startShutdown_pending (e : Encoder) : e.startShutdown.pending = shutdownEvents e.cfg :=
  Encoder.nextEntry_pending _ (.inr rfl)

/-! ### Requests of a ready encoder -/

theorem exec_sendCommand_ready {s : State} (b : Byte) (hready : s.enc.reqReady = true)
    (hconf : s.enc.configured = true) : exec (.sendCommand b) s =
      .next { s with enc := s.enc.portNext.setBusy.startFrameOp .sendCommand false b } :=
  State.accept_ready hready nofun fun _ => hconf

theorem exec_sendData_ready {s : State} (b : Byte) (hready : s.enc.reqReady = true)
    (hconf : s.enc.configured = true) : exec (.sendData b) s =
      .next { s with enc := s.enc.portNext.setBusy.startFrameOp .sendData true b } :=
  State.accept_ready hready nofun fun _ => hconf

theorem exec_init_ready {s : State} (ignored : Byte) (hready : s.enc.reqReady = true)
    (hseq : s.enc.cfg.hasInitSeq = true) : exec (.init ignored) s =
      .next { s with enc := s.enc.portNext.setBusy.startInit } :=
  State.accept_ready hready (fun _ => hseq) nofun

theorem exec_shutdown_ready {s : State} (ignored : Byte) (hready : s.enc.reqReady = true)
    (hconf : s.enc.configured = true) (hseq : s.enc.cfg.hasInitSeq = true) : exec (.shutdown ignored) s =
      .next { s with enc := s.enc.portNext.setBusy.startShutdown } :=
  State.accept_ready hready (fun _ => hseq) fun _ => hconf

/-- Settles O9: acceptance loads `op` and begins the command frame. -/
theorem sendCommandStartsItsFrame : Obligations.SendCommandStartsItsFrame := by
  intro s b hready hconf
  refine ⟨_, exec_sendCommand_ready b hready hconf, ?_, ?_⟩
  · simp [Encoder.startFrameOp, Encoder.beginFrame, frameStartPhase, Encoder.setBusy]
  · simp [Encoder.startFrameOp_pending (.inl rfl)]

/-- Settles O10: acceptance loads `op` and begins the data frame. -/
theorem sendDataStartsItsFrame : Obligations.SendDataStartsItsFrame := by
  intro s b hready hconf
  refine ⟨_, exec_sendData_ready b hready hconf, ?_, ?_⟩
  · simp [Encoder.startFrameOp, Encoder.beginFrame, frameStartPhase, Encoder.setBusy]
  · simp [Encoder.startFrameOp_pending (.inr rfl)]

/-- Settles O11: acceptance loads `op` and stands at the first event of LINK_SETUP. -/
theorem initStartsItsSequence : Obligations.InitStartsItsSequence :=
  fun s ignored hready hseq => ⟨_, exec_init_ready ignored hready hseq, rfl,
    (Encoder.startInit_pending _).trans (by simp)⟩

/-- Settles O12: entry 3 of a well-formed table is a command entry, and acceptance begins its frame. -/
theorem shutdownStartsItsSequence : Obligations.ShutdownStartsItsSequence := by
  intro s ignored hready hconf hseq hwf
  have h := KeepsR184.of_wellFormed hwf
  obtain ⟨ext, select, vreg, fund, off, rest, hrom, hfund, -⟩ := h.first_five
  have hget : s.enc.cfg.seqRom[3]? = some fund := by simp [hrom]
  have hdc := h.entryDc_eq_false (List.mem_of_getElem? hget) (by simp [hfund])
  refine ⟨_, fund, exec_shutdown_ready ignored hready hconf hseq, hget, ?_, ?_⟩
  · simp [Encoder.startShutdown, Encoder.nextEntry, entryAt, shutdownFirst, shutdownEnd, hget, hdc, Encoder.beginFrame,
      Encoder.setSeqPc, frameStartPhase, Encoder.setBusy]
  · rw [Encoder.startShutdown_pending]
    simp

/-! ### Requests and wire frames without effect -/

theorem State.accept_unready {s : State} (h : s.enc.reqReady = false) (needsSequencer needsConfigured : Bool)
    (start : Encoder → Encoder) : s.accept needsSequencer needsConfigured start = .next s := by
  simp [State.accept, h]

theorem State.accept_sequencerless {s : State} (hready : s.enc.reqReady = true) (hseq : s.enc.cfg.hasInitSeq = false)
    (needsConfigured : Bool) (start : Encoder → Encoder) :
    s.accept true needsConfigured start = .refused .noInitSequencer := by
  simp [State.accept, hready, hseq]

theorem State.sendFrame_elsewhere {s : State} (h : s.enc.atFrameStart = false) (dc : Bool) (b : Byte) :
    s.sendFrame dc b = .refused .notAtFrameStart := by
  simp [State.sendFrame, h]

theorem Encoder.reqReady_iff (e : Encoder) : e.reqReady = true ↔ e.busy = false ∧ e.fault = false := by
  simp [Encoder.reqReady]

/-- Settles O15: readiness is the first check of acceptance (60_exceptions.md R240). -/
theorem unreadyEncoderAcceptsNothing : Obligations.UnreadyEncoderAcceptsNothing := by
  intro s b h
  have hready : s.enc.reqReady = false := by
    obtain h | h := h
    · simp [Encoder.reqReady, h]
    · simp [Encoder.reqReady, h]
  exact ⟨hready, State.accept_unready hready _ _ _, State.accept_unready hready _ _ _,
    State.accept_unready hready _ _ _, State.accept_unready hready _ _ _⟩

/-- Settles O17: the InitSequencer is looked for before `configured` (60_exceptions.md R240). -/
theorem sequencerlessRequestsAreRefused : Obligations.SequencerlessRequestsAreRefused :=
  fun _ _ hready hseq => ⟨State.accept_sequencerless hready hseq _ _, State.accept_sequencerless hready hseq _ _⟩

/-- Settles O18: both wire frames look at the position first. -/
theorem wireFramesElsewhereAreRefused : Obligations.WireFramesElsewhereAreRefused :=
  fun _ _ h => ⟨State.sendFrame_elsewhere h _ _, State.sendFrame_elsewhere h _ _⟩

/-! ### Wire frames at the start of a frame -/

/-- The first event of a frame: the assertion of chip-select, or the 1 of slot 0 (41_frame_encoder.md R156). -/
theorem Encoder.beginFrame_nextEvent (e : Encoder) (dc : Bool) (b : Byte) : (e.beginFrame dc b).nextEvent =
    some (if e.cfg.csPresent then .set .cs false else .set .sdo true) := by
  have hslot0 : frameSlot (frameWord dc b) 0 = true := by revert dc b; decide
  obtain ⟨hcs, hphase⟩ | ⟨hcs, hphase⟩ := frameStartPhase_cases e.cfg
  · simp [Encoder.nextEvent, hphase, hcs]
  · simp [Encoder.nextEvent, hphase, hcs, hslot0]

/-- Spending the environment's answer touches nothing else. -/
theorem State.spendAnswer_eq (s : State) :
    s.spendAnswer = { s with answers := if s.enc.cfg.ioFallible then s.answers.tail else s.answers } := by
  unfold State.spendAnswer
  split <;> rfl

/-- The emission of a frame's first event leaves the state that `afterFirstEvent` writes out. -/
theorem State.afterEvent_beginFrame (s : State) (dc : Bool) (b : Byte) :
    ({ s with enc := s.enc.beginFrame dc b } : State).afterEvent
      (if s.enc.cfg.csPresent then .set .cs false else .set .sdo true) = s.afterFirstEvent dc b := by
  rw [State.afterEvent, State.spendAnswer_eq, State.afterFirstEvent]
  cases hcs : s.enc.cfg.csPresent with
  | true =>
    simp [Encoder.beginFrame, frameStartPhase, hcs, State.applyEvent, State.setLevel, Encoder.record, Encoder.advance,
      Encoder.firstSlot]
  | false =>
    simp [Encoder.beginFrame, frameStartPhase, hcs, State.applyEvent, State.setLevel, Encoder.record, Encoder.advance,
      Encoder.goto]

theorem State.sendFrame_success {s : State} (hstart : s.enc.atFrameStart = true) (hlink : s.LinkExclusive)
    (hanswer : s.answer = true) (dc : Bool) (b : Byte) : s.sendFrame dc b = .next (s.afterFirstEvent dc b) := by
  rw [State.sendFrame_at_start hstart, ← State.afterEvent_beginFrame]
  exact State.emitNext_success hlink (Encoder.beginFrame_nextEvent _ dc b) hanswer

/-- After a frame's first event the rest of the frame and what follows it are pending. -/
theorem State.afterFirstEvent_pending (s : State) (dc : Bool) (b : Byte) : (s.afterFirstEvent dc b).enc.pending =
    (frameEvents s.enc.cfg dc b).tail ++ s.enc.eventsAfterFrame := by
  have hbits := Encoder.slotEventsFrom_zero (s.afterFirstEvent dc b).enc dc b rfl
  have hslot0 := (s.afterFirstEvent dc b).enc.slotEventsFrom_lt 0 (by decide)
  have hafter : (s.afterFirstEvent dc b).enc.eventsAfterFrame = s.enc.eventsAfterFrame := rfl
  have hcfg : (s.afterFirstEvent dc b).enc.cfg = s.enc.cfg := rfl
  rw [hcfg] at hbits hslot0
  cases hcs : s.enc.cfg.csPresent with
  | true =>
    have hphase : (s.afterFirstEvent dc b).enc.phase = .fData := if_pos hcs
    have hslot : (s.afterFirstEvent dc b).enc.slot = 0#5 := rfl
    rw [← hbits]
    simp [Encoder.pending, hphase, hslot, Encoder.eventsFromSlot, hafter, hcfg, csAssertEvents, hcs]
  | false =>
    have hphase : (s.afterFirstEvent dc b).enc.phase = .fClkLow := by simp [State.afterFirstEvent, hcs]
    have hslot : (s.afterFirstEvent dc b).enc.slot = 0#5 := rfl
    rw [← hbits, hslot0]
    simp [Encoder.pending, hphase, hslot, Encoder.eventsFromSlot, hafter, hcfg, csAssertEvents, hcs, sendBitEvents]

/-- Settles O13: the step is the emission of the first event of the frame just loaded. -/
theorem wireFramesEmitTheirFirstEvent : Obligations.WireFramesEmitTheirFirstEvent :=
  fun s b hstart hlink hanswer =>
    ⟨⟨State.sendFrame_success hstart hlink hanswer false b, s.afterFirstEvent_pending false b⟩,
      ⟨State.sendFrame_success hstart hlink hanswer true b, s.afterFirstEvent_pending true b⟩⟩

theorem State.sendFrame_failure {s : State} (hstart : s.enc.atFrameStart = true) (hlink : s.LinkExclusive)
    (hanswer : s.answer = false) (dc : Bool) (b : Byte) :
    s.sendFrame dc b = .next ({ s with enc := s.enc.beginFrame dc b } : State).afterFailure := by
  rw [State.sendFrame_at_start hstart]
  exact State.emitNext_failure hlink (Encoder.beginFrame_nextEvent _ dc b) hanswer

/-- Loading a frame touches no line's level. -/
theorem State.beginFrame_level (s : State) (dc : Bool) (b : Byte) (l : Line) :
    ({ s with enc := s.enc.beginFrame dc b } : State).level l = s.level l := by
  cases l <;> rfl

/-- Settles O24: the failed first event changes flags and phase, the load before it the frame registers. -/
theorem failedFirstEventFaultsWireFrames : Obligations.FailedFirstEventFaultsWireFrames := by
  intro s b hstart hlink hanswer
  have hlevel (dc : Bool) (l : Line) :
      ({ s with enc := s.enc.beginFrame dc b } : State).afterFailure.level l = s.level l :=
    (State.afterFailure_level _ l).trans (s.beginFrame_level dc b l)
  exact ⟨_, _, State.sendFrame_failure hstart hlink hanswer false b, State.sendFrame_failure hstart hlink hanswer true b,
    rfl, rfl, rfl, rfl, rfl, hlevel false, fun _ => rfl, rfl, rfl, rfl, rfl, rfl, hlevel true, fun _ => rfl⟩

end Sys2Proof.Machine
end

section
/-! SUPPORT. What the acting encoder's step can do, case by case, from every state (10_state.md R25, R26, R30; 60_exceptions.md
R232, R239, R240), and what each case leaves unchanged. -/

namespace Sys2Proof.Machine

/-- The encoder from which a step emits: as it stands, or at the start of a frame with the register's frame loaded
(41_frame_encoder.md R156). -/
inductive Encoder.Loads (a : Encoder) : Encoder → Prop where
  | stands : a.Loads a
  | frame {dc : Bool} {b : Byte} (hstart : a.atFrameStart = true) (hframe : a.frame = frameWord dc b) :
      a.Loads (a.beginFrame dc b)

/-- The encoder once one of the four requests is accepted (41_frame_encoder.md R160, R161, 42_init_sequencer.md R190, R200). -/
inductive Encoder.Accepts (a : Encoder) : Encoder → Prop where
  | sendCommand (b : Byte) (hconf : a.configured = true) :
      a.Accepts (a.portNext.setBusy.startFrameOp .sendCommand false b)
  | sendData (b : Byte) (hconf : a.configured = true) :
      a.Accepts (a.portNext.setBusy.startFrameOp .sendData true b)
  | init : a.Accepts a.portNext.setBusy.startInit
  | shutdown (hconf : a.configured = true) : a.Accepts a.portNext.setBusy.startShutdown

/-- The next states of the acting encoder's step. -/
inductive State.CycleTo (s : State) : State → Prop where
  | faulted (hfault : s.enc.fault = true) : s.CycleTo s
  | host (hready : s.enc.reqReady = true) (hvalid : s.enc.reqValid = false) :
      s.CycleTo { s with enc := s.enc.hostTurn }
  | accept {e : Encoder} (hready : s.enc.reqReady = true) (haccept : s.enc.Accepts e) : s.CycleTo { s with enc := e }
  | event {e : Encoder} {ev : Event} (hbusy : s.enc.busy = true) (hlink : s.LinkExclusive) (hload : s.enc.Loads e)
      (hev : e.nextEvent = some ev) : s.CycleTo (({ s with enc := e } : State).afterEvent ev)
  | failure {e : Encoder} (hbusy : s.enc.busy = true) (hlink : s.LinkExclusive) (hload : s.enc.Loads e) :
      s.CycleTo ({ s with enc := e } : State).afterFailure

/-- A request at the port of a ready encoder is one of the four, and if it answers a next state it is accepted. -/
theorem exec_decodeRequest_next {s t : State} {w : ReqWord} (hready : s.enc.reqReady = true)
    (h : exec (decodeRequest w) s = .next t) : ∃ e, s.enc.Accepts e ∧ t = { s with enc := e } := by
  have haccept {needsSequencer needsConfigured : Bool} {start : Encoder → Encoder}
      (h : s.accept needsSequencer needsConfigured start = .next t) :
      (needsConfigured = true → s.enc.configured = true) ∧ t = { s with enc := start s.enc.portNext.setBusy } := by
    obtain ⟨hunready, -⟩ | ⟨-, -, hconf, ht⟩ := State.accept_next h
    · simp [hready] at hunready
    · exact ⟨hconf, ht⟩
  unfold decodeRequest at h
  split at h
  · obtain ⟨hconf, ht⟩ := haccept h; exact ⟨_, .sendCommand _ (hconf rfl), ht⟩
  · obtain ⟨hconf, ht⟩ := haccept h; exact ⟨_, .sendData _ (hconf rfl), ht⟩
  · obtain ⟨-, ht⟩ := haccept h; exact ⟨_, .init, ht⟩
  · obtain ⟨hconf, ht⟩ := haccept h; exact ⟨_, .shutdown (hconf rfl), ht⟩

/-- What the frame register fetches at the start of a frame is the wire frame it holds. -/
theorem exec_decodeFrame {s : State} {i : Instr} (h : decodeFrame s.enc.frame = .ok i) :
    ∃ dc b, s.enc.frame = frameWord dc b ∧ exec i s = s.sendFrame dc b := by
  obtain ⟨hframe, rfl⟩ := eq_of_decodeFrame h
  exact ⟨_, _, hframe, exec_wireFrame _ _ s⟩

theorem State.CycleTo.of_emitNext {s t : State} {e : Encoder} (hbusy : s.enc.busy = true) (hload : s.enc.Loads e)
    (h : ({ s with enc := e } : State).emitNext = .next t) : s.CycleTo t := by
  obtain ⟨hlink, ev, hev, ⟨-, rfl⟩ | ⟨-, rfl⟩⟩ := State.emitNext_next h
  · exact .event hbusy hlink hload hev
  · exact .failure hbusy hlink hload

theorem State.CycleTo.of_cycle {s t : State} (h : s.cycle = .next t) : s.CycleTo t := by
  obtain ⟨hfault, rfl⟩ | ⟨-, hbusy, -, h⟩ | ⟨-, hbusy, hstart, i, hdecode, h⟩ | ⟨hfault, hbusy, -, h⟩ |
    ⟨hfault, hbusy, hvalid, rfl⟩ := State.cycle_next h
  · exact .faulted hfault
  · exact .of_emitNext hbusy .stands h
  · obtain ⟨dc, b, hframe, hexec⟩ := exec_decodeFrame hdecode
    exact .of_emitNext hbusy (.frame hstart hframe) (State.sendFrame_next (hexec ▸ h)).2
  · have hready := s.enc.reqReady_iff.mpr ⟨hbusy, hfault⟩
    obtain ⟨e, haccept, rfl⟩ := exec_decodeRequest_next hready h
    exact .accept hready haccept
  · exact .host (s.enc.reqReady_iff.mpr ⟨hbusy, hfault⟩) hvalid

/-- A step with nothing outside due is the acting encoder's. -/
theorem cycleTo_of_step {s t : State} (hu : s.Undisturbed) (h : step s = .next t) : s.spendAct.CycleTo t := by
  obtain ⟨-, -, hact⟩ := step_next h
  rw [State.act] at hact
  obtain hhead | hhead := s.undisturbed_iff.mp hu
  · rw [hhead] at hact; exact .of_cycle hact
  · rw [hhead] at hact; exact .of_cycle hact

/-- Every step: the acting encoder's, or a reset or a hand-over by the outside. -/
theorem step_cases {s t : State} (h : step s = .next t) :
    s.spendAct.CycleTo t ∨ t = s.spendAct.hardwareReset ∨ (∃ k, s.spendAct.hardwareResetPeer k = .next t) ∨
      ∃ k, s.outside.head? = some (.grant k) ∧ s.spendAct.grant k = .next t := by
  obtain ⟨-, -, hact⟩ := step_next h
  obtain ⟨-, hcycle⟩ | ⟨-, rfl⟩ | ⟨k, -, hreset⟩ | ⟨k, hhead, hgrant⟩ := State.act_next hact
  · exact .inl (.of_cycle hcycle)
  · exact .inr (.inl rfl)
  · exact .inr (.inr (.inl ⟨k, hreset⟩))
  · exact .inr (.inr (.inr ⟨k, hhead, hgrant⟩))

/-! ### What a load, an acceptance and an event leave unchanged -/

/-- Loading the register's frame writes `payload` and `slot` only. -/
theorem Encoder.Loads.exists_eq {a e : Encoder} (h : a.Loads e) : ∃ p k, e = { a with payload := p, slot := k } := by
  cases h with
  | stands => exact ⟨_, _, rfl⟩
  | @frame dc b hstart hframe =>
    obtain ⟨-, hphase, -⟩ := a.atFrameStart_iff.mp hstart
    refine ⟨b, 0#5, ?_⟩
    rw [Encoder.beginFrame, ← hframe, ← hphase]

theorem Encoder.Loads.sameOnLines {a e : Encoder} (h : a.Loads e) : a.SameOnLines e := by
  obtain ⟨p, k, rfl⟩ := h.exists_eq
  exact ⟨rfl, fun _ => rfl, rfl, rfl, rfl⟩

/-- What an accepted request leaves at its start: the lines and the flags but `busy`, and a position outside the frame with
both shared lines idle, in LINK_SETUP at its first event. -/
structure Encoder.StartsFrom (b a : Encoder) : Prop where
  same : ∃ op, ({ a.portNext.setBusy with op := op } : Encoder).SameButPosition b
  busy : b.busy = true
  configured : b.configured = a.configured
  setup : b.phase.isSetup = true ∧ b.sub = 0#3 ∨ b.phase.isSetup = false ∧ a.configured = true
  outside : a.cfg.csPresent = true → b.phase.insideFrame = false
  clock : b.phase.clockHigh = true
  data : b.dataLevel = false

theorem Encoder.startsFrom_beginFrame {a : Encoder} (hconf : a.configured = true) (op : Op) (dc : Bool) (b : Byte) :
    (a.portNext.setBusy.startFrameOp op dc b).StartsFrom a := by
  have hphase : (a.portNext.setBusy.startFrameOp op dc b).phase = frameStartPhase a.cfg := by
    simp [Encoder.startFrameOp]
  have hslot : (a.portNext.setBusy.startFrameOp op dc b).slot = 0#5 := rfl
  refine ⟨⟨op, by constructor <;> rfl⟩, rfl, by simp [Encoder.startFrameOp], ?_, ?_, ?_, ?_⟩
  all_goals
    obtain ⟨hcs, hstart⟩ | ⟨hcs, hstart⟩ := frameStartPhase_cases a.cfg
    · simp [hphase, hstart, Phase.isSetup, Phase.insideFrame, Phase.clockHigh, Encoder.dataLevel, hconf]
    · simp [hphase, hstart, Phase.isSetup, Phase.insideFrame, Phase.clockHigh, Encoder.dataLevel, hconf, hcs, hslot]

/-- An entry that a SHUTDOWN begins or the PARK it goes to: `busy` stays. -/
theorem Encoder.nextEntry_busy_of_shutdown {e : Encoder} (hop : e.op = .shutdown) : e.nextEntry.busy = e.busy := by
  unfold Encoder.nextEntry
  split
  · rfl
  · rw [if_pos hop]; rfl

/-- The next entry is outside a frame sent with chip-select. -/
theorem Encoder.nextEntry_insideFrame {e : Encoder} (hcs : e.cfg.csPresent = true) :
    e.nextEntry.phase.insideFrame = false := by
  have hinside := e.nextEntry_outside.2
  rwa [hcs, Bool.not_true, Bool.and_false] at hinside

theorem Encoder.SameButPosition.trans {a b d : Encoder} (h : a.SameButPosition b) (k : b.SameButPosition d) :
    a.SameButPosition d where
  cfg := k.cfg.trans h.cfg
  op := k.op.trans h.op
  evIdx := k.evIdx.trans h.evIdx
  fault := k.fault.trans h.fault
  faultCode := k.faultCode.trans h.faultCode
  sdoDir := k.sdoDir.trans h.sdoDir
  sclkDir := k.sclkDir.trans h.sclkDir
  csDir := k.csDir.trans h.csDir
  resDir := k.resDir.trans h.resDir
  csLevel := k.csLevel.trans h.csLevel
  resLevel := k.resLevel.trans h.resLevel
  reqValid := k.reqValid.trans h.reqValid
  reqWord := k.reqWord.trans h.reqWord
  script := k.script.trans h.script
  history := k.history.trans h.history

theorem Encoder.setSeqPc_same (e : Encoder) (k : Nat) : e.SameButPosition (e.setSeqPc k) := by
  constructor <;> rfl

theorem Encoder.startsFrom_shutdown {a : Encoder} (hconf : a.configured = true) :
    a.portNext.setBusy.startShutdown.StartsFrom a := by
  obtain ⟨hsetup, -⟩ := Encoder.nextEntry_outside
    (({ a.portNext.setBusy with op := .shutdown } : Encoder).setSeqPc shutdownFirst)
  obtain ⟨hclock, hdata⟩ := Encoder.nextEntry_idleLines
    (({ a.portNext.setBusy with op := .shutdown } : Encoder).setSeqPc shutdownFirst)
  exact ⟨⟨.shutdown, (Encoder.setSeqPc_same _ _).trans (Encoder.nextEntry_same _)⟩,
    Encoder.nextEntry_busy_of_shutdown rfl, (Encoder.nextEntry_configured _).trans a.portNext_configured,
    .inr ⟨hsetup, hconf⟩, fun hcs => Encoder.nextEntry_insideFrame (a.portNext_cfg ▸ hcs), hclock, hdata⟩

theorem Encoder.Accepts.startsFrom {a b : Encoder} (h : a.Accepts b) : b.StartsFrom a := by
  cases h with
  | sendCommand b hconf => exact Encoder.startsFrom_beginFrame hconf _ _ b
  | sendData b hconf => exact Encoder.startsFrom_beginFrame hconf _ _ b
  | init => exact ⟨⟨.init, by constructor <;> rfl⟩, rfl, a.portNext_configured, .inl ⟨rfl, rfl⟩, fun _ => rfl, rfl, rfl⟩
  | shutdown hconf => exact Encoder.startsFrom_shutdown hconf

theorem Encoder.Accepts.sameOnLines {a b : Encoder} (h : a.Accepts b) : a.SameOnLines b := by
  obtain ⟨op, hsame⟩ := h.startsFrom.same
  have hport : a.portNext.SameOnLines { a.portNext.setBusy with op := op } := ⟨rfl, fun _ => rfl, rfl, rfl, rfl⟩
  exact a.portNext_sameOnLines.trans (hport.trans hsame.sameOnLines)

/-- The levels that are not touched: those of the encoder's own lines stay with its lines. -/
theorem State.level_of_sameOnLines (s : State) {e : Encoder} (h : s.enc.SameOnLines e) (l : Line) :
    ({ s with enc := e } : State).level l = s.level l := by
  cases l with
  | sdo | sclk => rfl
  | cs => exact h.csLevel
  | res => exact h.resLevel

theorem State.afterEvent_peers (s : State) (ev : Event) : (s.afterEvent ev).peers = s.peers := by
  simp [State.afterEvent]

theorem State.afterEvent_outside (s : State) (ev : Event) : (s.afterEvent ev).outside = s.outside := by
  simp [State.afterEvent]

theorem State.afterEvent_cfg (s : State) (ev : Event) : (s.afterEvent ev).enc.cfg = s.enc.cfg := by
  rw [State.afterEvent, (Encoder.advance_same _).cfg]
  simp

theorem State.afterEvent_trace (s : State) (ev : Event) : (s.afterEvent ev).enc.trace = s.enc.trace ++ [ev] := by
  rw [State.afterEvent, (Encoder.advance_same _).trace]
  simp [Encoder.trace]

/-- The levels after the event of the position are those after its effect. -/
theorem State.afterEvent_level (s : State) (ev : Event) (l : Line) :
    (s.afterEvent ev).level l = (s.applyEvent ev).level l := by
  have hspent : (s.spendAnswer.applyEvent ev).level l = (s.applyEvent ev).level l := by
    rw [State.applyEvent_level, State.applyEvent_level, State.spendAnswer_eq]
    cases l <;> rfl
  rw [← hspent]
  cases l with
  | sdo | sclk => rfl
  | cs => exact (Encoder.advance_same _).csLevel
  | res => exact (Encoder.advance_same _).resLevel

/-- The directions after the event of the position are those after its effect. -/
theorem State.afterEvent_dir (s : State) (ev : Event) (l : Line) :
    (s.afterEvent ev).enc.dir l = (s.applyEvent ev).enc.dir l := by
  have hspent : (s.spendAnswer.applyEvent ev).enc = (s.applyEvent ev).enc := by
    rw [State.applyEvent_enc, State.applyEvent_enc, State.spendAnswer_enc]
  rw [State.afterEvent, (Encoder.advance_same _).dir l, hspent]
  cases l <;> rfl

theorem State.afterFailure_outside (s : State) : s.afterFailure.outside = s.outside := s.spendAnswer_outside

/-- The step of the acting encoder leaves the others, the outside and its own configuration. -/
theorem State.CycleTo.frame {s t : State} (h : s.CycleTo t) :
    t.peers = s.peers ∧ t.outside = s.outside ∧ t.enc.cfg = s.enc.cfg := by
  cases h with
  | faulted _ => exact ⟨rfl, rfl, rfl⟩
  | host _ _ => exact ⟨rfl, rfl, s.enc.hostTurn_sameOnLines.cfg⟩
  | accept _ haccept => exact ⟨rfl, rfl, haccept.sameOnLines.cfg⟩
  | event _ _ hload _ =>
    exact ⟨State.afterEvent_peers _ _, State.afterEvent_outside _ _, (State.afterEvent_cfg _ _).trans hload.sameOnLines.cfg⟩
  | failure _ _ hload => exact ⟨State.afterFailure_peers _, State.afterFailure_outside _, hload.sameOnLines.cfg⟩

/-- What holds of every encoder holds of every encoder after a step, if the acting encoder's step keeps it for its own
and hardware reset establishes it. -/
theorem step_keeps_each {P : Encoder → Prop} {s t : State} (h : step s = .next t) (hs : ∀ e ∈ s.instances, P e)
    (hcycle : s.spendAct.CycleTo t → P t.enc) (hreset : ∀ e : Encoder, P e.hardwareReset) : ∀ e ∈ t.instances, P e := by
  obtain ⟨henc, hpeers⟩ := List.forall_mem_cons.mp hs
  have hset {k : Nat} {q : Encoder} (hq : P q) : ∀ p ∈ s.peers.set k q, P p := by
    intro p hp
    obtain hp | rfl := List.mem_or_eq_of_mem_set hp
    · exact hpeers p hp
    · exact hq
  refine List.forall_mem_cons.mpr ?_
  obtain hact | rfl | ⟨k, hk⟩ | ⟨k, -, hgrant⟩ := step_cases h
  · exact ⟨hcycle hact, hact.frame.1 ▸ hpeers⟩
  · exact ⟨hreset _, hpeers⟩
  · obtain ⟨p, -, henc', hpeers', -⟩ := State.hardwareResetPeer_next hk
    exact ⟨henc' ▸ henc, hpeers' ▸ hset (hreset p)⟩
  · obtain ⟨p, hp, rfl⟩ := State.grant_next hgrant
    exact ⟨hpeers p (List.mem_of_getElem? hp), hset henc⟩

end Sys2Proof.Machine
end

section
/-! SUPPORT. The acting encoder's step from every state, forward: what is fetched is run, and an idle or faulted encoder does
nothing of its own (10_state.md R24 to R30, 60_exceptions.md R244, 20_memory.md R75). -/

namespace Sys2Proof.Machine

theorem State.cycle_of_faulted {s : State} (hfault : s.enc.fault = true) : s.cycle = .next s := by
  simp [State.cycle, State.fetch, State.proceed, hfault]

/-- A ready encoder runs the request at its port. -/
theorem State.cycle_of_request {s : State} (hready : s.enc.reqReady = true) (hvalid : s.enc.reqValid = true) :
    s.cycle = exec (decodeRequest s.enc.reqWord) s := by
  obtain ⟨hbusy, hfault⟩ := s.enc.reqReady_iff.mp hready
  simp [State.cycle, State.fetch, hfault, hbusy, hvalid]

/-- Without a request it is the host's turn. -/
theorem State.cycle_of_no_request {s : State} (hready : s.enc.reqReady = true) (hvalid : s.enc.reqValid = false) :
    s.cycle = .next { s with enc := s.enc.hostTurn } := by
  obtain ⟨hbusy, hfault⟩ := s.enc.reqReady_iff.mp hready
  simp [State.cycle, State.fetch, State.proceed, hfault, hbusy, hvalid]

/-- Settles O19: what a step fetches is what it runs, on the state whose act is spent. -/
theorem stepRunsTheFetchedInstruction : Obligations.StepRunsTheFetchedInstruction :=
  ⟨fun s hc hu hready hvalid => (step_undisturbed hc hu).trans (State.cycle_of_request (s := s.spendAct) hready hvalid),
    fun s _ hc hu hfault hstart hdecode =>
      (step_undisturbed hc hu).trans (State.cycle_of_atFrameStart (s := s.spendAct) hfault hstart hdecode)⟩

/-- Settles O20: a word with bit 9 clear is SEND_COMMAND or SEND_DATA by bit 8, and its frame's slot 6 is that bit. -/
theorem requestBitEightIsTheDataControlSlot : Obligations.RequestBitEightIsTheDataControlSlot := by
  intro s hc hu hready hvalid hconf hbit
  have hstep := stepRunsTheFetchedInstruction.1 s hc hu hready hvalid
  cases h8 : s.enc.reqWord.getLsbD 8 with
  | false =>
    have hdecode : decodeRequest s.enc.reqWord = .sendCommand (s.enc.reqWord.extractLsb' 0 8) := by
      simp only [decodeRequest, hbit, h8, reqPayload]
    rw [hdecode] at hstep
    exact ⟨_, hstep.trans (exec_sendCommand_ready (s := s.spendAct) _ hready hconf), rfl, rfl, frameWord_dc false _⟩
  | true =>
    have hdecode : decodeRequest s.enc.reqWord = .sendData (s.enc.reqWord.extractLsb' 0 8) := by
      simp only [decodeRequest, hbit, h8, reqPayload]
    rw [hdecode] at hstep
    exact ⟨_, hstep.trans (exec_sendData_ready (s := s.spendAct) _ hready hconf), rfl, rfl, frameWord_dc true _⟩

/-- A host that goes on to do nothing leaves a free port free. -/
theorem Encoder.hostTurn_of_silent {e : Encoder} (hscript : e.script = []) (hvalid : e.reqValid = false) :
    e.hostTurn = e := by
  have hfree : e.hostTurn = { e with reqValid := false } := by simp [Encoder.hostTurn, Encoder.portNext, hscript]
  rw [hfree, ← hvalid]

/-- Settles O22: the step is the host's turn, which is at the port alone. -/
theorem idleStepChangesOnlyThePort : Obligations.IdleStepChangesOnlyThePort := by
  intro s hc hu hbusy hfault hvalid
  have hstep := (step_undisturbed hc hu).trans
    (State.cycle_of_no_request (s := s.spendAct) (s.enc.reqReady_iff.mpr ⟨hbusy, hfault⟩) hvalid)
  refine ⟨⟨s.enc.hostTurn.reqValid, s.enc.hostTurn.reqWord, s.enc.hostTurn.script, ?_⟩, fun hscript => ?_⟩
  · rw [hstep, Encoder.withPort, ← s.enc.hostTurn_eq]
    rfl
  · rw [hstep, Encoder.hostTurn_of_silent (e := s.spendAct.enc) hscript hvalid]

/-- Settles O25: a faulted encoder's step is no step, and reset puts the fault and the phase back. -/
theorem faultIsLeftOnlyByReset : Obligations.FaultIsLeftOnlyByReset := by
  have hstep (s : State) (hc : s.ConfigWF) (hu : s.Undisturbed) (hfault : s.enc.fault = true) :
      step s = .next s.spendAct := (step_undisturbed hc hu).trans (State.cycle_of_faulted (s := s.spendAct) hfault)
  refine ⟨fun s hc hfault => ⟨fun ho => ?_, fun rest ho => ?_⟩, fun s rest hc ho => ?_⟩
  · rw [hstep s hc (s.undisturbed_iff.mpr (by simp [ho])) hfault, State.spendAct, ho, List.tail_nil, ← ho]
  · rw [hstep s hc (s.undisturbed_iff.mpr (by simp [ho])) hfault, State.spendAct, ho, List.tail_cons]
  · rw [step_eq_act hc.1 hc.2, State.act, ho]
    exact ⟨_, rfl, rfl, rfl⟩

theorem Encoder.hardwareReset_resetFrom (e : Encoder) : e.hardwareReset.ResetFrom e :=
  ⟨rfl, rfl, rfl, rfl, rfl, fun l => by cases l <;> rfl, rfl, rfl, rfl, rfl, rfl, rfl, rfl⟩

/-- Settles O26: the reset encoder is built again, the shared levels are kept only by another that drives them. -/
theorem resetLeavesTheStatedValues : Obligations.ResetLeavesTheStatedValues := by
  refine ⟨fun s rest hc ho => ?_, fun s k p rest hc ho hk => ?_⟩
  · rw [step_eq_act hc.1 hc.2, State.act, ho]
    refine ⟨_, rfl, s.enc.hardwareReset_resetFrom, rfl, rfl, by rw [← List.tail_cons (as := rest), ← ho]; rfl,
      fun halone l => ?_⟩
    cases l with
    | sdo | sclk => simp [State.level, State.hardwareReset, State.spendAct, halone, sharedLevel]
    | cs | res => rfl
  · have hk' : s.spendAct.peers[k]? = some p := hk
    rw [step_eq_act hc.1 hc.2, State.act, ho]
    simp only [List.head?_cons, State.hardwareResetPeer, hk']
    exact ⟨_, _, rfl, p.hardwareReset_resetFrom, rfl, rfl, rfl, by rw [State.spendAct, ho]; rfl⟩

end Sys2Proof.Machine
end

section
/-! SUPPORT. What any step leaves as it was: configurations, the traces of other instances, absent lines, and all lines but one
(10_state.md R20, R28, R31, 20_memory.md R70, R72, R76). -/

namespace Sys2Proof.Machine

/-! ### Configurations -/

/-- Resetting or replacing an encoder by one with its configuration leaves the list of configurations. -/
theorem map_cfg_set {peers : List Encoder} {k : Nat} {p q : Encoder} (hk : peers[k]? = some p) (hcfg : q.cfg = p.cfg) :
    (peers.set k q).map Encoder.cfg = peers.map Encoder.cfg := by
  obtain ⟨hlt, rfl⟩ := List.getElem?_eq_some_iff.mp hk
  rw [List.map_set, hcfg]
  conv_rhs => rw [← List.set_getElem_self (as := peers.map Encoder.cfg) (i := k) (by simpa using hlt)]
  rw [List.getElem_map]

/-- Settles O60: a step of the acting encoder and a reset keep each configuration at its place, a hand-over exchanges
two. -/
theorem configurationNeverChanges : Obligations.ConfigurationNeverChanges := by
  refine ⟨fun s t hno h => ?_, fun s t k rest ho h => ?_⟩
  · obtain hcycle | rfl | ⟨k, hreset⟩ | ⟨k, hhead, -⟩ := step_cases h
    · obtain ⟨hpeers, -, hcfg⟩ := hcycle.frame
      exact ⟨hcfg, congrArg (List.map Encoder.cfg) hpeers⟩
    · exact ⟨rfl, rfl⟩
    · obtain ⟨p, hp, henc, hpeers, -⟩ := State.hardwareResetPeer_next hreset
      exact ⟨congrArg Encoder.cfg henc, hpeers ▸ map_cfg_set hp rfl⟩
    · obtain ⟨rest, ho⟩ := List.head?_eq_some_iff.mp hhead
      exact absurd ho (hno k rest)
  · obtain ⟨-, -, hact⟩ := step_next h
    rw [State.act, ho] at hact
    obtain ⟨p, hp, rfl⟩ := State.grant_next hact
    exact ⟨p, hp, rfl, List.map_set⟩

/-! ### One frame at a time -/

theorem Encoder.SameOnLines.midFrame {a b : Encoder} (h : a.SameOnLines b) : b.midFrame = a.midFrame := by
  rw [Encoder.midFrame, Encoder.midFrame, h.csLevel]

theorem Encoder.hardwareReset_midFrame (e : Encoder) : e.hardwareReset.midFrame = false := rfl

theorem State.oneFrameAtATime_iff (s : State) :
    s.OneFrameAtATime ↔ s.peers.countP Encoder.midFrame + s.enc.midFrame.toNat ≤ 1 := by
  rw [State.OneFrameAtATime, State.instances, List.countP_cons]
  cases s.enc.midFrame <;> rfl

/-- Where no other encoder is inside a frame, whatever the acting one does is one frame at most. -/
theorem State.oneFrameAtATime_of_linkExclusive {s : State} (h : s.LinkExclusive) : s.OneFrameAtATime := by
  have hnone : s.peers.countP Encoder.midFrame = 0 := by
    rw [List.countP_eq_zero]
    intro p hp hmid
    exact absurd (List.any_eq_true.mpr ⟨p, hp, hmid⟩) (by rw [h]; nofun)
  rw [State.oneFrameAtATime_iff, hnone]
  exact (Nat.zero_add _).trans_le (Bool.toNat_le _)

/-- What a change of one other encoder does to the count of instances inside a frame. -/
theorem countP_midFrame_set {peers : List Encoder} {k : Nat} {p : Encoder} (hk : peers[k]? = some p) (q : Encoder) :
    (peers.set k q).countP Encoder.midFrame + p.midFrame.toNat = peers.countP Encoder.midFrame + q.midFrame.toNat := by
  obtain ⟨hlt, hp⟩ := List.getElem?_eq_some_iff.mp hk
  have hle : p.midFrame.toNat ≤ peers.countP Encoder.midFrame := by
    cases hmid : p.midFrame with
    | false => exact Nat.zero_le _
    | true => exact List.countP_pos_iff.mpr ⟨p, List.mem_of_getElem? hk, hmid⟩
  have htoNat (e : Encoder) : (if e.midFrame = true then 1 else 0) = e.midFrame.toNat := by
    cases e.midFrame <;> rfl
  rw [List.countP_set hlt, hp, htoNat, htoNat]
  omega

/-- Settles O54: an event is emitted only while the others are outside frames; a reset ends a frame, a hand-over moves
one. -/
theorem stepKeepsOneFrameAtATime : Obligations.StepKeepsOneFrameAtATime := by
  intro s t hs h
  rw [State.oneFrameAtATime_iff] at hs
  have hsame {e : Encoder} (he : s.enc.SameOnLines e) : s.peers.countP Encoder.midFrame + e.midFrame.toNat ≤ 1 := by
    rw [he.midFrame]; exact hs
  obtain hcycle | rfl | ⟨k, hreset⟩ | ⟨k, -, hgrant⟩ := step_cases h
  · have hfree (hlink : s.LinkExclusive) (hpeers : t.peers = s.peers) : t.OneFrameAtATime :=
      State.oneFrameAtATime_of_linkExclusive (by rw [State.LinkExclusive, hpeers]; exact hlink)
    have hpeers := hcycle.frame.1
    cases hcycle with
    | faulted _ => exact (State.oneFrameAtATime_iff _).mpr hs
    | host _ _ => exact (State.oneFrameAtATime_iff _).mpr (hsame s.enc.hostTurn_sameOnLines)
    | accept _ haccept => exact (State.oneFrameAtATime_iff _).mpr (hsame haccept.sameOnLines)
    | event _ hlink _ _ => exact hfree hlink hpeers
    | failure _ hlink _ => exact hfree hlink hpeers
  · rw [State.oneFrameAtATime_iff]
    exact (Nat.le_add_right _ _).trans hs
  · obtain ⟨p, hp, henc, hpeers, -⟩ := State.hardwareResetPeer_next hreset
    have hcount := countP_midFrame_set hp p.hardwareReset
    rw [State.oneFrameAtATime_iff, henc, hpeers]
    rw [Encoder.hardwareReset_midFrame] at hcount
    simp only [State.spendAct, Bool.toNat_false] at hcount ⊢
    omega
  · obtain ⟨p, hp, rfl⟩ := State.grant_next hgrant
    rw [State.oneFrameAtATime_iff]
    exact (countP_midFrame_set hp s.enc).trans_le hs

/-- An event needs the link free of other frames. -/
theorem State.emitNext_overlap {s : State} (h : s.peers.any Encoder.midFrame = true) :
    s.emitNext = .fault .linkOverlap := by
  simp [State.emitNext, h]

theorem Encoder.SameOnLines.trace {a b : Encoder} (h : a.SameOnLines b) : b.trace = a.trace :=
  congrArg List.reverse h.history

/-- Settles O55: a hand-over exchanges places, and only an event, which needs the link free, adds to a trace. -/
theorem noEventInsideAnothersFrame : Obligations.NoEventInsideAnothersFrame := by
  refine ⟨fun s k p rest hc ho hk => ?_, fun s t h hmid hu => ?_, fun s b hstart hmid => ?_⟩
  · have hk' : s.spendAct.peers[k]? = some p := hk
    rw [step_eq_act hc.1 hc.2, State.act, ho]
    simp only [List.head?_cons, State.grant, hk']
    rw [State.spendAct, ho]
    rfl
  · have hbusyLink (hlink : s.LinkExclusive) : False := by
      rw [State.LinkExclusive, hmid] at hlink
      cases hlink
    cases cycleTo_of_step hu h with
    | faulted _ => rfl
    | host _ _ => exact s.enc.hostTurn_sameOnLines.trace
    | accept _ haccept => exact haccept.sameOnLines.trace
    | event _ hlink _ _ => exact (hbusyLink hlink).elim
    | failure _ hlink _ => exact (hbusyLink hlink).elim
  · have hoverlap (dc : Bool) : s.sendFrame dc b = .fault .linkOverlap :=
      (State.sendFrame_at_start hstart).trans (State.emitNext_overlap hmid)
    exact ⟨hoverlap false, hoverlap true⟩

/-! ### Absent lines -/

/-- The encoder's trace names no line that it does not have. -/
def Encoder.AbsentUnnamed (e : Encoder) : Prop :=
  ∀ l, Line.present l e.cfg = false → ∀ ev ∈ e.history, ev.names l = false

theorem Encoder.AbsentUnnamed.of_sameOnLines {a b : Encoder} (h : a.AbsentUnnamed) (hab : a.SameOnLines b) :
    b.AbsentUnnamed := by
  unfold Encoder.AbsentUnnamed
  rw [hab.cfg, hab.history]
  exact h

theorem Encoder.withEffect_cfg (e : Encoder) (ev : Event) : (e.withEffect ev).cfg = e.cfg := by
  obtain ⟨-, hcfg, -⟩ := e.withEffect_same ev
  exact hcfg

theorem Encoder.AbsentUnnamed.step {a b : Encoder} (h : a.AbsentUnnamed) (hab : a.StepsTo b) : b.AbsentUnnamed := by
  cases hab with
  | same hsame => exact h.of_sameOnLines hsame
  | @event e ev hsame hev =>
    have hrecorded : ((e.withEffect ev).record ev).AbsentUnnamed := by
      intro l hl x hx
      rw [Encoder.record_cfg, Encoder.withEffect_cfg] at hl
      rw [Encoder.record_history, Encoder.withEffect_history] at hx
      obtain rfl | hx := List.mem_cons.mp hx
      · exact (Encoder.nextEvent_lines hev).2 l hl
      · exact h.of_sameOnLines hsame l hl x hx
    exact hrecorded.of_sameOnLines (Encoder.advance_same _).sameOnLines
  | reset => exact fun _ _ _ hx => absurd hx List.not_mem_nil

/-- Settles O57: the event of a position names present lines only. -/
theorem stepNeverNamesAnAbsentLine : Obligations.StepNeverNamesAnAbsentLine :=
  fun _ _ hs h => step_keeps_instances (fun _ _ => Encoder.AbsentUnnamed.step) hs h

/-! ### At most one line -/

/-- The line an event writes, its level or its direction, and no other. -/
theorem State.applyEvent_writes_one (s : State) (ev : Event) :
    (∃ m, (∀ l, (s.applyEvent ev).level l ≠ s.level l → l = m) ∧ ∀ l, (s.applyEvent ev).enc.dir l = s.enc.dir l) ∨
    (∃ m, (∀ l, (s.applyEvent ev).enc.dir l ≠ s.enc.dir l → l = m) ∧ ∀ l, (s.applyEvent ev).level l = s.level l) := by
  simp only [State.applyEvent_level, State.applyEvent_dir]
  cases ev with
  | set m v =>
    refine .inl ⟨m, fun l hl => ?_, fun _ => rfl⟩
    by_contra hne
    exact hl (if_neg (Ne.symm hne))
  | dir m =>
    refine .inr ⟨m, fun l hl => ?_, fun _ => rfl⟩
    by_contra hne
    exact hl (if_neg (Ne.symm hne))
  | waitUs n | waitMs n => exact .inl ⟨.sdo, fun l hl => absurd rfl hl, fun _ => rfl⟩

/-- With nothing outside due a step leaves the trace and all lines, or is the event of a busy encoder. -/
theorem step_quiet_or_event {s t : State} (hu : s.Undisturbed) (h : step s = .next t) :
    (t.enc.trace = s.enc.trace ∧ ∀ l, t.level l = s.level l ∧ t.enc.dir l = s.enc.dir l) ∨
    (s.enc.busy = true ∧ ∃ ev, t.enc.trace = s.enc.trace ++ [ev] ∧
      ∀ l, t.level l = (s.applyEvent ev).level l ∧ t.enc.dir l = (s.applyEvent ev).enc.dir l) := by
  have hsame {e : Encoder} (he : s.enc.SameOnLines e) (l : Line) :
      ({ s.spendAct with enc := e } : State).level l = s.level l ∧ e.dir l = s.enc.dir l :=
    ⟨(s.spendAct.level_of_sameOnLines he l).trans (by cases l <;> rfl), he.dir l⟩
  cases cycleTo_of_step hu h with
  | faulted _ => exact .inl ⟨rfl, hsame (.refl _)⟩
  | host _ _ => exact .inl ⟨s.enc.hostTurn_sameOnLines.trace, hsame s.enc.hostTurn_sameOnLines⟩
  | accept _ haccept => exact .inl ⟨haccept.sameOnLines.trace, hsame haccept.sameOnLines⟩
  | @event e ev hbusy _ hload _ =>
    refine .inr ⟨hbusy, ev, ?_, fun l => ?_⟩
    · exact (State.afterEvent_trace _ _).trans (congrArg (· ++ [ev]) hload.sameOnLines.trace)
    · obtain ⟨hlevel, hdir⟩ := hsame hload.sameOnLines l
      rw [State.afterEvent_level, State.afterEvent_dir]
      simp only [State.applyEvent_level, State.applyEvent_dir, hlevel, hdir, and_self]
  | @failure e _ _ hload =>
    refine .inl ⟨hload.sameOnLines.trace, fun l => ?_⟩
    obtain ⟨hlevel, hdir⟩ := hsame hload.sameOnLines l
    exact ⟨(State.afterFailure_level _ l).trans hlevel, hdir⟩

/-- Settles O58: a quiet step changes nothing, and an event writes one line. -/
theorem stepChangesAtMostOneLine : Obligations.StepChangesAtMostOneLine := by
  intro s t hu h
  obtain ⟨htrace, hlines⟩ | ⟨hbusy, ev, htrace, hlines⟩ := step_quiet_or_event hu h
  · exact ⟨.inl htrace, fun l _ hl => absurd (hlines l).1 hl, fun l _ hl => absurd (hlines l).2 hl, fun _ m _ => (hlines m).2,
      fun _ => ⟨htrace, hlines⟩⟩
  · refine ⟨.inr ⟨ev, htrace⟩, ?_⟩
    simp only [fun l => (hlines l).1, fun l => (hlines l).2, hbusy, reduceCtorEq, false_imp_iff, and_true]
    obtain ⟨line, hlevel, hdir⟩ | ⟨line, hdir, hlevel⟩ := s.applyEvent_writes_one ev
    · exact ⟨fun l m hl hm => (hlevel l hl).trans (hlevel m hm).symm, fun l _ hl => absurd (hdir l) hl, fun _ m _ => hdir m⟩
    · exact ⟨fun l _ hl => absurd (hlevel l) hl, fun l m hl hm => (hdir l hl).trans (hdir m hm).symm,
        fun l _ hl => absurd (hlevel l) hl⟩

/-! ### `configured` -/

/-- LINK_SETUP ends with the clock at its idle level (42_init_sequencer.md R180). -/
theorem linkSetupEvents_last {c : Config} {k : Nat} {ev : Event} (hev : (linkSetupEvents c)[k]? = some ev)
    (hlast : (linkSetupEvents c).length ≤ k + 1) : ev = .set .sclk true := by
  obtain ⟨hlt, rfl⟩ := List.getElem?_eq_some_iff.mp hev
  have hk : k = (linkSetupEvents c).length - 1 := by omega
  subst hk
  rw [List.getElem_length_sub_one_eq_getLast]
  simp [linkSetupEvents]

/-- The state after the position's event has `configured` set if it was or if the event was the last of LINK_SETUP. -/
theorem State.afterEvent_configured (s : State) (ev : Event) : (s.afterEvent ev).enc.configured =
    (s.enc.configured ||
      (decide (s.enc.phase = .setup) && decide ((linkSetupEvents s.enc.cfg).length ≤ s.enc.sub.toNat + 1))) := by
  rw [State.afterEvent, Encoder.advance_configured]
  simp

/-- Settles O59: only moving on past the last event of LINK_SETUP writes `configured`. -/
theorem configuredIsSetByLinkSetupAndKept : Obligations.ConfiguredIsSetByLinkSetupAndKept := by
  refine ⟨fun s hc hu hlink hbusy hfault hphase hsub hanswer => ?_, fun s t hu h => ?_⟩
  · have hstart : s.enc.atFrameStart = false := by
      rw [Bool.eq_false_iff]
      intro hstart
      obtain ⟨-, hbegin, -⟩ := s.enc.atFrameStart_iff.mp hstart
      have hframe := frameStartPhase_ofFrame s.enc.cfg
      rw [← hbegin, hphase] at hframe
      cases hframe
    have hget : (linkSetupEvents s.enc.cfg)[s.enc.sub.toNat]? = some (.set .sclk true) := by
      have hlt : s.enc.sub.toNat < (linkSetupEvents s.enc.cfg).length := by omega
      rw [List.getElem?_eq_getElem hlt]
      exact congrArg some (linkSetupEvents_last (List.getElem?_eq_getElem hlt) (by omega))
    have hev : s.enc.nextEvent = some (.set .sclk true) := by simp [Encoder.nextEvent, hphase, hget]
    refine ⟨_, (step_undisturbed hc hu).trans ((State.cycle_of_not_atFrameStart (s := s.spendAct) hfault hbusy hstart).trans
      (State.emitNext_success hlink hev hanswer)), ?_, State.afterEvent_trace _ _⟩
    rw [State.afterEvent_configured]
    simp [State.spendAct, hphase, hsub]
  · cases cycleTo_of_step hu h with
    | faulted _ => exact ⟨id, fun hclear hset => absurd (hclear.symm.trans hset) nofun⟩
    | host _ _ =>
      have hkept : s.enc.hostTurn.configured = s.enc.configured := by rw [s.enc.hostTurn_eq]
      exact ⟨hkept.trans, fun hclear hset => absurd (hclear.symm.trans (hkept.symm.trans hset)) nofun⟩
    | accept _ haccept =>
      have hkept := haccept.startsFrom.configured
      exact ⟨hkept.trans, fun hclear hset => absurd (hclear.symm.trans (hkept.symm.trans hset)) nofun⟩
    | @event e ev _ _ hload hev =>
      have htrace := (State.afterEvent_trace { s.spendAct with enc := e } ev).trans
        (congrArg (· ++ [ev]) hload.sameOnLines.trace)
      obtain ⟨p, k, rfl⟩ := hload.exists_eq
      rw [State.afterEvent_configured]
      refine ⟨fun hset => by simp [State.spendAct, hset], fun hclear hset => ?_⟩
      simp only [State.spendAct, hclear, Bool.false_or, Bool.and_eq_true] at hset
      have hphase := of_decide_eq_true hset.1
      have hlast := of_decide_eq_true hset.2
      refine ⟨hphase, hlast, htrace.trans ?_⟩
      rw [linkSetupEvents_last (Encoder.nextEvent_of_setup hev hphase) hlast]
      rfl
    | failure _ _ hload =>
      obtain ⟨p, k, rfl⟩ := hload.exists_eq
      exact ⟨id, fun hclear hset => absurd (hclear.symm.trans hset) nofun⟩

end Sys2Proof.Machine
end

section
/-! SUPPORT. In order: an encoder that meets the invariant of Safety.lean keeps it through a load, an acceptance, an event and a
failure (10_state.md R26, 41_frame_encoder.md R164, R165). -/

namespace Sys2Proof.Machine

/-! ### The position's registers, which an event's effect does not touch -/

/-- An event's effect and record write the lines, the trace and `ev_idx` only. -/
theorem Encoder.record_withEffect_eq (e : Encoder) (ev : Event) : ∃ d₀ d₁ d₂ d₃ cs res,
    (e.withEffect ev).record ev = { e with
      sdoDir := d₀, sclkDir := d₁, csDir := d₂, resDir := d₃, csLevel := cs, resLevel := res,
      evIdx := e.evIdx + 1, history := ev :: e.history } := by
  cases ev with
  | set l v => cases l <;> exact ⟨_, _, _, _, _, _, rfl⟩
  | dir l => cases l <;> exact ⟨_, _, _, _, _, _, rfl⟩
  | waitUs n | waitMs n => exact ⟨_, _, _, _, _, _, rfl⟩

theorem Encoder.record_withEffect_flagsOk (e : Encoder) (ev : Event) :
    ((e.withEffect ev).record ev).flagsOk = e.flagsOk := by
  obtain ⟨_, _, _, _, _, _, h⟩ := e.record_withEffect_eq ev
  rw [h]; rfl

theorem Encoder.record_withEffect_positionOk (e : Encoder) (ev : Event) :
    ((e.withEffect ev).record ev).positionOk = e.positionOk := by
  obtain ⟨_, _, _, _, _, _, h⟩ := e.record_withEffect_eq ev
  rw [h]; rfl

theorem Encoder.record_withEffect_nextEvent (e : Encoder) (ev : Event) :
    ((e.withEffect ev).record ev).nextEvent = e.nextEvent := by
  obtain ⟨_, _, _, _, _, _, h⟩ := e.record_withEffect_eq ev
  rw [h]; rfl

theorem Encoder.record_withEffect_pending (e : Encoder) (ev : Event) :
    ((e.withEffect ev).record ev).pending = e.pending := by
  obtain ⟨_, _, _, _, _, _, h⟩ := e.record_withEffect_eq ev
  rw [h]; rfl

/-! ### Events and failures -/

/-- The event of a position in order leads to a position in order. -/
theorem Encoder.inOrder_afterEvent {e : Encoder} {ev : Event} (h : e.inOrder = true) (hev : e.nextEvent = some ev) :
    ((e.withEffect ev).record ev).advance.inOrder = true := by
  obtain ⟨hflags, hpos, hown⟩ := e.inOrder_iff.mp h
  have hev' := (e.record_withEffect_nextEvent ev).trans hev
  exact (Encoder.inOrder_iff _).mpr
    ⟨Encoder.advance_flagsOk _ ((e.record_withEffect_flagsOk ev).trans hflags) ev hev',
      Encoder.advance_positionOk _ ((e.record_withEffect_positionOk ev).trans hpos) ev hev',
      Encoder.ownLinesOk_afterEvent e ev hflags hown hev⟩

/-- A fault leaves no operation, and lines that were in order (60_exceptions.md R232). -/
theorem Encoder.inOrder_raisePlatformIOFailure {e : Encoder} (h : e.inOrder = true) (hfault : e.fault = false) :
    e.raisePlatformIOFailure.inOrder = true := by
  obtain ⟨hflags, -, hown⟩ := e.inOrder_iff.mp h
  obtain ⟨-, -, -, hslot⟩ := e.flagsOk_iff.mp hflags
  obtain ⟨hoptional, -, -, hunconf, hconf⟩ := Encoder.ownLinesOk_elim hfault hown
  refine (Encoder.inOrder_iff _).mpr ⟨(Encoder.flagsOk_iff _).mpr ⟨rfl, rfl, rfl, hslot⟩, rfl, ?_⟩
  have hoptional' : e.raisePlatformIOFailure.optionalLinesOk = true := hoptional
  cases hc : e.configured with
  | false => simp [Encoder.ownLinesOk, hoptional', hc, hunconf hc, Phase.inProgress, Phase.isSetup]
  | true =>
    obtain ⟨hsdo, hsclk, hcs, hres, -⟩ := hconf hc
    have hlines : e.raisePlatformIOFailure.configuredLinesOk = true := by
      cases hcsP : e.cfg.csPresent <;> cases hresP : e.cfg.resPresent <;>
        simp_all [Encoder.configuredLinesOk]
    simp [Encoder.ownLinesOk, hoptional', hc, hlines, Phase.inProgress, Phase.isSetup]

/-! ### Loading the frame -/

theorem frameWord_inj {dc dc' : Bool} {b b' : Byte} (h : frameWord dc b = frameWord dc' b') : dc = dc' ∧ b = b' := by
  have hlevels : frameLevels dc b = frameLevels dc' b' := by rw [← frameWord_slots, ← frameWord_slots, h]
  have hdecoded := congrArg decodeLevels hlevels
  rw [decodeLevels_frameLevels, decodeLevels_frameLevels] at hdecoded
  simpa using hdecoded

/-- In order, loading the register's frame changes nothing but, before the chip-select event, `slot`. -/
theorem Encoder.Loads.eq_of_inOrder {a e : Encoder} (h : a.Loads e) (ha : a.inOrder = true) :
    e = a ∨ a.phase = .fCsLow ∧ e = { a with slot := 0#5 } := by
  cases h with
  | stands => exact .inl rfl
  | @frame dc b hstart hframe =>
    obtain ⟨-, hphase, hslot⟩ := a.atFrameStart_iff.mp hstart
    obtain ⟨-, hpos, -⟩ := a.inOrder_iff.mp ha
    have hloaded := (a.frameOk_iff.mp (Encoder.frameOk_of_positionOk hpos (hphase ▸ frameStartPhase_ofFrame _))).1
    obtain ⟨rfl, rfl⟩ := frameWord_inj (hframe.symm.trans hloaded)
    rw [Encoder.beginFrame_of_loaded hloaded hphase]
    obtain ⟨-, hbegin⟩ | ⟨hcs, -⟩ := frameStartPhase_cases a.cfg
    · exact .inr ⟨hphase.trans hbegin, rfl⟩
    · have hzero : a.slot = 0#5 := hslot.resolve_left (by rw [hcs]; nofun)
      exact .inl (by rw [← hzero])

/-- Before the chip-select event no rule reads `slot`. -/
theorem Encoder.slot_unread_of_fCsLow {a : Encoder} (hphase : a.phase = .fCsLow) :
    ({ a with slot := 0#5 } : Encoder).nextEvent = a.nextEvent ∧ ({ a with slot := 0#5 } : Encoder).pending = a.pending ∧
      ({ a with slot := 0#5 } : Encoder).positionOk = a.positionOk ∧
      ({ a with slot := 0#5 } : Encoder).dataLevel = a.dataLevel := by
  refine ⟨?_, ?_, ?_, ?_⟩
  · simp only [Encoder.nextEvent, hphase]
  · simp only [Encoder.pending, hphase]; rfl
  · simp only [Encoder.positionOk, hphase]; rfl
  · simp only [Encoder.dataLevel, hphase]

theorem Encoder.Loads.inOrder {a e : Encoder} (h : a.Loads e) (ha : a.inOrder = true) : e.inOrder = true := by
  obtain rfl | ⟨hphase, rfl⟩ := h.eq_of_inOrder ha
  · exact ha
  · obtain ⟨hflags, hpos, hown⟩ := a.inOrder_iff.mp ha
    obtain ⟨hp, hf, hc, -⟩ := a.flagsOk_iff.mp hflags
    obtain ⟨-, -, hpos', -⟩ := Encoder.slot_unread_of_fCsLow hphase
    exact (Encoder.inOrder_iff _).mpr ⟨(Encoder.flagsOk_iff _).mpr ⟨hp, hf, hc, by simp⟩, hpos'.trans hpos, hown⟩

theorem Encoder.Loads.nextEvent_eq {a e : Encoder} (h : a.Loads e) (ha : a.inOrder = true) : e.nextEvent = a.nextEvent := by
  obtain rfl | ⟨hphase, rfl⟩ := h.eq_of_inOrder ha
  · rfl
  · obtain ⟨hev, -, -, -⟩ := Encoder.slot_unread_of_fCsLow hphase
    exact hev

theorem Encoder.Loads.pending_eq {a e : Encoder} (h : a.Loads e) (ha : a.inOrder = true) : e.pending = a.pending := by
  obtain rfl | ⟨hphase, rfl⟩ := h.eq_of_inOrder ha
  · rfl
  · obtain ⟨-, hpending, -, -⟩ := Encoder.slot_unread_of_fCsLow hphase
    exact hpending

theorem Encoder.Loads.dataLevel_eq {a e : Encoder} (h : a.Loads e) (ha : a.inOrder = true) : e.dataLevel = a.dataLevel := by
  obtain rfl | ⟨hphase, rfl⟩ := h.eq_of_inOrder ha
  · rfl
  · obtain ⟨-, -, -, hdata⟩ := Encoder.slot_unread_of_fCsLow hphase
    exact hdata

/-! ### Acceptance -/

/-- A ready encoder in order is idle. -/
theorem Encoder.phase_of_ready {e : Encoder} (h : e.flagsOk = true) (hready : e.reqReady = true) : e.phase = .idle := by
  obtain ⟨hp, hf, -, -⟩ := e.flagsOk_iff.mp h
  obtain ⟨hbusy, hfault⟩ := e.reqReady_iff.mp hready
  rw [hbusy] at hp
  rw [hfault] at hf
  cases hphase : e.phase with
  | idle => rfl
  | fault => rw [hphase] at hf; cases hf
  | setup | seq | fCsLow | fData | fClkLow | fWaitLow | fClkHigh | fWaitHigh | fCsHigh | park =>
    rw [hphase] at hp; cases hp

/-- A ready encoder with its operation accepted runs. -/
theorem Encoder.setBusy_running {e : Encoder} (h : e.flagsOk = true) (hready : e.reqReady = true) (op : Op) (k : Nat) :
    (({ e.portNext.setBusy with op := op } : Encoder).setSeqPc k).Running := by
  obtain ⟨-, -, hcode, hslot⟩ := e.flagsOk_iff.mp h
  rw [Encoder.phase_of_ready h hready] at hcode
  exact ⟨rfl, e.portNext_fault.trans (e.reqReady_iff.mp hready).2, e.portNext_faultCode.trans hcode, by simpa using hslot⟩

theorem Encoder.beginFrame_flagsOk {e : Encoder} (h : e.Running) (dc : Bool) (b : Byte) :
    (e.beginFrame dc b).flagsOk = true := by
  obtain ⟨hbusy, hfault, hcode, -⟩ := h
  rw [Encoder.flagsOk_iff]
  obtain ⟨-, hphase⟩ | ⟨-, hphase⟩ := frameStartPhase_cases e.cfg
  · simp [hphase, hbusy, hfault, hcode, Phase.inProgress, Phase.isFault]
  · simp [hphase, hbusy, hfault, hcode, Phase.inProgress, Phase.isFault]

theorem Encoder.Accepts.flagsOk {a b : Encoder} (h : a.Accepts b) (ha : a.flagsOk = true) (hready : a.reqReady = true) :
    b.flagsOk = true := by
  cases h with
  | sendCommand b _ => exact Encoder.beginFrame_flagsOk (Encoder.setBusy_running ha hready .sendCommand a.portNext.seqPc) _ b
  | sendData b _ => exact Encoder.beginFrame_flagsOk (Encoder.setBusy_running ha hready .sendData a.portNext.seqPc) _ b
  | init =>
    obtain ⟨_, hfault, hcode, hslot⟩ := Encoder.setBusy_running ha hready .init 0
    exact (Encoder.flagsOk_iff _).mpr ⟨rfl, hfault, hcode, hslot⟩
  | shutdown _ => exact Encoder.nextEntry_flagsOk _ (Encoder.setBusy_running ha hready .shutdown shutdownFirst)

theorem Encoder.Accepts.positionOk {a b : Encoder} (h : a.Accepts b) : b.positionOk = true := by
  cases h with
  | sendCommand b _ => exact Encoder.beginFrame_positionOk _ _ b rfl
  | sendData b _ => exact Encoder.beginFrame_positionOk _ _ b rfl
  | init => simp [Encoder.positionOk, Encoder.startInit, linkSetupEvents]
  | shutdown _ => exact Encoder.nextEntry_positionOk _ (.inr ⟨rfl, Nat.le_refl _⟩)

/-- At its start the accepted operation finds the lines as the idle encoder left them. -/
theorem Encoder.Accepts.ownLinesOk {a b : Encoder} (h : a.Accepts b) (ha : a.inOrder = true) (hready : a.reqReady = true) :
    b.ownLinesOk = true := by
  obtain ⟨hflags, -, hown⟩ := a.inOrder_iff.mp ha
  have hidle := Encoder.phase_of_ready hflags hready
  have hfault := (a.reqReady_iff.mp hready).2
  obtain ⟨hoptional, -, -, hunconf, hconf⟩ := Encoder.ownLinesOk_elim hfault hown
  obtain ⟨⟨op, hsame⟩, -, hkept, hsetup, hout, -, -⟩ := h.startsFrom
  have hport := a.portNext_eq
  refine Encoder.ownLinesOk_of hsame (a.portNext_fault.trans hfault) ?_ (fun _ => ?_) (fun hs => ?_) (fun hc => ?_)
    fun hc => ?_
  · rw [hport]; exact hoptional
  · obtain ⟨hs, -⟩ | ⟨-, hc⟩ := hsetup
    · exact .inl hs
    · exact .inr (hkept.trans hc)
  · obtain ⟨-, hsub⟩ | ⟨hs', -⟩ := hsetup
    · rw [hsub]; rfl
    · rw [hs'] at hs; cases hs
  · rw [hport]; exact hunconf (hkept.symm.trans hc)
  · obtain ⟨hsdo, hsclk, hcs, hres, hlevel⟩ := hconf (hkept.symm.trans hc)
    rw [hport]
    refine ⟨hsdo, hsclk, hcs, hres, fun hp => ?_⟩
    rw [hout hp]
    rw [hidle] at hlevel
    exact hlevel hp

theorem Encoder.Accepts.inOrder {a b : Encoder} (h : a.Accepts b) (ha : a.inOrder = true) (hready : a.reqReady = true) :
    b.inOrder = true :=
  b.inOrder_iff.mpr ⟨h.flagsOk (a.inOrder_iff.mp ha).1 hready, h.positionOk, h.ownLinesOk ha hready⟩

/-! ### The whole step -/

theorem Encoder.hostTurn_inOrder {e : Encoder} (h : e.inOrder = true) : e.hostTurn.inOrder = true := by
  rw [e.hostTurn_eq]; exact h

/-- A reset encoder is in order. -/
theorem Encoder.reset_inOrder (c : Config) : (Encoder.reset c).inOrder = true := by
  simp [Encoder.inOrder, Encoder.flagsOk, Encoder.positionOk, Encoder.ownLinesOk, Encoder.optionalLinesOk, Encoder.reset,
    Phase.inProgress, Phase.isFault, Phase.isSetup]

theorem Encoder.hardwareReset_inOrder (e : Encoder) : e.hardwareReset.inOrder = true := Encoder.reset_inOrder e.cfg

theorem State.inOrder_iff (s : State) : s.InOrder ↔ s.enc.inOrder = true ∧ ∀ p ∈ s.peers, p.inOrder = true := by
  simp [State.InOrder, State.instances]

/-- A busy encoder in order has not faulted. -/
theorem Encoder.fault_of_busy {e : Encoder} (h : e.inOrder = true) (hbusy : e.busy = true) : e.fault = false := by
  obtain ⟨hflags, -, -⟩ := e.inOrder_iff.mp h
  exact (Encoder.running_of_flagsOk e hflags ((e.flagsOk_iff.mp hflags).1 ▸ hbusy)).fault

/-- The acting encoder's step keeps its encoder in order. -/
theorem State.CycleTo.inOrder {s t : State} (h : s.CycleTo t) (hs : s.enc.inOrder = true) : t.enc.inOrder = true := by
  cases h with
  | faulted _ => exact hs
  | host _ _ => exact Encoder.hostTurn_inOrder hs
  | accept hready haccept => exact haccept.inOrder hs hready
  | event _ _ hload hev =>
    rw [State.afterEvent_enc]
    exact Encoder.inOrder_afterEvent (hload.inOrder hs) hev
  | failure hbusy _ hload =>
    have hfault := Encoder.fault_of_busy hs hbusy
    obtain ⟨p, k, heq⟩ := hload.exists_eq
    exact Encoder.inOrder_raisePlatformIOFailure (hload.inOrder hs) (by rw [heq]; exact hfault)

/-- Settles O47: each case of a step keeps each encoder in order. -/
theorem stepKeepsOrder : Obligations.StepKeepsOrder := by
  intro s t hs h
  exact List.all_eq_true.mpr (step_keeps_each h (List.all_eq_true.mp hs)
    (fun hcycle => hcycle.inOrder (s.inOrder_iff.mp hs).1) Encoder.hardwareReset_inOrder)

end Sys2Proof.Machine
end

section
/-! SUPPORT. An encoder alone on its link (40_bitclock.md R131 to R134, 41_frame_encoder.md R165): its data and clock lines through
every step, and the states a machine starts from (10_state.md R55, 70_reset_and_hazards.md R263). -/

namespace Sys2Proof.Machine

/-! ### Every step keeps the lines in order -/

theorem State.aloneInOrder_iff (s : State) :
    s.AloneInOrder ↔ s.peers = [] ∧ s.enc.inOrder = true ∧ s.sharedLinesOk = true := by
  rw [State.AloneInOrder, State.inOrder_iff]
  constructor
  · rintro ⟨halone, ⟨henc, -⟩, hlines⟩
    exact ⟨halone, henc, hlines⟩
  · rintro ⟨halone, henc, hlines⟩
    exact ⟨halone, ⟨henc, by simp [halone]⟩, hlines⟩

/-- The host's turn touches no line. -/
theorem State.sharedLinesOk_hostTurn (s : State) :
    ({ s with enc := s.enc.hostTurn } : State).sharedLinesOk = s.sharedLinesOk := by
  rw [s.enc.hostTurn_eq]; rfl

/-- Loading the register's frame moves no shared line's level away from the position's. -/
theorem State.sharedLinesOk_load {s : State} {e : Encoder} (hload : s.enc.Loads e) (hin : s.enc.inOrder = true) :
    ({ s with enc := e } : State).sharedLinesOk = s.sharedLinesOk := by
  have hdata := hload.dataLevel_eq hin
  obtain ⟨p, k, rfl⟩ := hload.exists_eq
  unfold State.sharedLinesOk
  rw [hdata]
  rfl

/-- An accepted operation starts with both shared lines where the idle encoder left them. -/
theorem State.sharedLinesOk_accept {s : State} {e : Encoder} (haccept : s.enc.Accepts e) (hin : s.enc.inOrder = true)
    (hready : s.enc.reqReady = true) (hlines : s.sharedLinesOk = true) :
    ({ s with enc := e } : State).sharedLinesOk = true := by
  have hfault := (s.enc.reqReady_iff.mp hready).2
  have hidle := Encoder.phase_of_ready (s.enc.inOrder_iff.mp hin).1 hready
  obtain ⟨-, hconf⟩ := (State.sharedLinesOk_iff s hfault).mp hlines
  obtain ⟨⟨op, hsame⟩, -, hkept, hsetup, -, hclock, hdata⟩ := haccept.startsFrom
  have hfault' : e.fault = false := hsame.fault.trans (s.enc.portNext_fault.trans hfault)
  refine (State.sharedLinesOk_iff _ hfault').mpr ⟨fun hs => ?_, fun hc => ?_⟩
  · obtain ⟨-, hsub⟩ | ⟨hs', -⟩ := hsetup
    · rw [hsub]; rfl
    · rw [hs'] at hs; cases hs
  · obtain ⟨hsclk, hsdo⟩ := hconf (hkept.symm.trans hc)
    rw [Encoder.dataLevel, hidle] at hsdo
    rw [hidle] at hsclk
    exact ⟨hclock.symm ▸ hsclk, hdata.symm ▸ hsdo⟩

/-- The acting encoder's step keeps its shared lines in order. -/
theorem State.CycleTo.sharedLinesOk {s t : State} (h : s.CycleTo t) (hin : s.enc.inOrder = true)
    (hlines : s.sharedLinesOk = true) : t.sharedLinesOk = true := by
  cases h with
  | faulted _ => exact hlines
  | host _ _ => exact s.sharedLinesOk_hostTurn.trans hlines
  | accept hready haccept => exact State.sharedLinesOk_accept haccept hin hready hlines
  | event _ _ hload hev =>
    obtain ⟨hflags, hpos, hown⟩ := (Encoder.inOrder_iff _).mp (hload.inOrder hin)
    exact State.sharedLinesOk_afterEvent _ _ hflags hpos hown ((State.sharedLinesOk_load hload hin).trans hlines) hev
  | failure _ _ _ => rfl

theorem State.CycleTo.aloneInOrder {s t : State} (h : s.CycleTo t) (hs : s.AloneInOrder) : t.AloneInOrder := by
  rw [State.aloneInOrder_iff] at hs ⊢
  obtain ⟨halone, hin, hlines⟩ := hs
  exact ⟨h.frame.1.trans halone, h.inOrder hin, h.sharedLinesOk hin hlines⟩

/-- Settles O50: alone on its link the acting encoder steps or is reset, and nothing else can be named. -/
theorem stepKeepsTheLinesInOrder : Obligations.StepKeepsTheLinesInOrder := by
  intro s t hs h
  have halone := hs.1
  obtain hcycle | rfl | ⟨k, hreset⟩ | ⟨k, -, hgrant⟩ := step_cases h
  · exact hcycle.aloneInOrder hs
  · exact (State.aloneInOrder_iff _).mpr ⟨halone, Encoder.hardwareReset_inOrder _, rfl⟩
  · obtain ⟨p, hp, -⟩ := State.hardwareResetPeer_next hreset
    simp [State.spendAct, halone] at hp
  · obtain ⟨p, hp, -⟩ := State.grant_next hgrant
    simp [State.spendAct, halone] at hp

/-! ### The states a machine starts from -/

theorem reset_aloneInOrder (c : Config) : ({ State.reset with enc := Encoder.reset c } : State).AloneInOrder :=
  (State.aloneInOrder_iff _).mpr ⟨rfl, Encoder.reset_inOrder c, rfl⟩

theorem construct_next {c : Config} {s : State} (h : construct c = .next s) :
    c.WellFormed ∧ s = { State.reset with enc := Encoder.reset c } := by
  unfold construct at h
  split at h
  · cases h
  next hflaw => cases h; exact ⟨hflaw, rfl⟩

/-- With the optional lines driven to idle as far as they are present, the launched encoder is in order. -/
theorem launch_inOrder (c : Config) : (launch c).enc.inOrder = true := by
  have hflags : (launch c).enc.flagsOk = true := rfl
  have hoptional : (launch c).enc.optionalLinesOk = true := by
    cases hcs : c.csPresent <;> cases hres : c.resPresent <;>
      simp [Encoder.optionalLinesOk, launch, Encoder.reset, Line.present, hcs, hres]
  have hlines : (launch c).enc.configuredLinesOk = true := by
    cases hcs : c.csPresent <;> cases hres : c.resPresent <;>
      simp [Encoder.configuredLinesOk, launch, Encoder.reset, Line.present, Phase.insideFrame, hcs, hres]
  refine (Encoder.inOrder_iff _).mpr ⟨hflags, rfl, ?_⟩
  rw [Encoder.ownLinesOk, hoptional, hlines]
  rfl

theorem launch_launchPremises {c : Config} (h : c.WellFormed) : (launch c).LaunchPremises := by
  have hflaw : (launch c).configFlaw = none := by
    have hcfg : (launch c).enc.cfg.flaw = none := h
    simp [State.configFlaw, hcfg, show (launch c).peers = [] from rfl]
  refine ⟨rfl, ⟨rfl, rfl, rfl⟩, ⟨rfl, rfl, rfl, fun hcs => ?_, fun hres => ?_⟩, ⟨rfl, rfl, fun hcs => ?_, fun hres => ?_⟩,
    ⟨hflaw, rfl⟩, rfl⟩
  · exact if_pos hcs
  · exact if_pos hres
  · exact if_pos hcs
  · exact if_pos hres

/-- Settles O49: each is idle, and the launched encoder has its lines idle as well. -/
theorem startingStatesAreInOrder : Obligations.StartingStatesAreInOrder :=
  ⟨reset_aloneInOrder configDefault, fun c _ h => (construct_next h).2 ▸ reset_aloneInOrder c,
    fun c hc => ⟨(State.aloneInOrder_iff _).mpr ⟨rfl, launch_inOrder c, rfl⟩, launch_launchPremises hc⟩⟩

/-! ### Idle lines and real edges -/

/-- Settles O51: a ready encoder in order is idle, where the invariant puts every line at its idle level. -/
theorem linesAreIdleBetweenOperations : Obligations.LinesAreIdleBetweenOperations := by
  intro s hs hconf
  obtain ⟨-, hin, hlines⟩ := s.aloneInOrder_iff.mp hs
  obtain ⟨hflags, -, hown⟩ := s.enc.inOrder_iff.mp hin
  have hidle (hbusy : s.enc.busy = false) (hfault : s.enc.fault = false) : s.LinesIdle ∧ s.Ready ∧ s.Configured := by
    have hphase := Encoder.phase_of_ready hflags (s.enc.reqReady_iff.mpr ⟨hbusy, hfault⟩)
    obtain ⟨-, -, -, -, hown⟩ := Encoder.ownLinesOk_elim hfault hown
    obtain ⟨hsdoDir, hsclkDir, hcsDir, hres, hcs⟩ := hown hconf
    obtain ⟨hsclk, hsdo⟩ := ((State.sharedLinesOk_iff s hfault).mp hlines).2 hconf
    rw [hphase] at hcs hsclk
    rw [Encoder.dataLevel, hphase] at hsdo
    have hpending : s.enc.pending = [] := by rw [Encoder.pending, hphase]
    exact ⟨⟨hsdo, hsclk, hcs, fun h => (hres h).2⟩, ⟨hbusy, hphase, hpending⟩, hconf, hsdoDir, hsclkDir, hcsDir,
      fun h => (hres h).1⟩
  exact ⟨fun ⟨⟨_, _, hbusy⟩, hfault⟩ => (hidle hbusy hfault).1, hidle⟩

/-- The clock is set low at one position only, and inside a frame high at one only (10_state.md R26). -/
theorem Encoder.phase_of_nextEvent_sclk {e : Encoder} {v : Bool} (h : e.nextEvent = some (.set .sclk v)) :
    (v = false → e.phase = .fClkLow) ∧ (v = true → e.phase.ofFrame = true → e.phase = .fClkHigh) := by
  have hidle (hmem : Event.set .sclk v ∈ linkSetupEvents e.cfg ∨ Event.set .sclk v ∈ parkEvents e.cfg) : v = true :=
    (idleLevel_of_mem e.cfg _ hmem).2 v rfl
  unfold Encoder.nextEvent at h
  cases hphase : e.phase with
  | idle | fault => simp [hphase] at h
  | setup =>
    simp only [hphase] at h
    simp [hidle (.inl (List.mem_of_getElem? h)), Phase.ofFrame]
  | park =>
    simp only [hphase] at h
    simp [hidle (.inr (List.mem_of_getElem? h)), Phase.ofFrame]
  | seq => cases hdue : e.dueAfter <;> simp [hphase, hdue, afterEvents] at h
  | fClkLow | fClkHigh => simp [hphase] at h; simp [← h]
  | fCsLow | fData | fWaitLow | fWaitHigh | fCsHigh => simp [hphase] at h

/-- Inside a frame the clock of an encoder alone on its link is where the phase says (40_bitclock.md R131, R132). -/
theorem State.sclk_of_ofFrame {s : State} (hs : s.AloneInOrder) (hphase : s.enc.phase.ofFrame = true) :
    s.sclk = some s.enc.phase.clockHigh := by
  obtain ⟨-, hin, hlines⟩ := s.aloneInOrder_iff.mp hs
  obtain ⟨hflags, -, hown⟩ := s.enc.inOrder_iff.mp hin
  have hprogress : s.enc.phase.inProgress = true ∧ s.enc.phase.isSetup = false := by
    revert hphase
    cases s.enc.phase <;> simp [Phase.ofFrame, Phase.inProgress, Phase.isSetup]
  have hfault := (Encoder.running_of_flagsOk _ hflags hprogress.1).fault
  obtain ⟨-, hrun, -⟩ := Encoder.ownLinesOk_elim hfault hown
  have hconf := (hrun hprogress.1).resolve_left (by rw [hprogress.2]; nofun)
  exact (((State.sharedLinesOk_iff s hfault).mp hlines).2 hconf).1

/-- Settles O52: the clock is high before its only low edge and low before its only rising edge in a frame. -/
theorem everyPulseHasRealEdges : Obligations.EveryPulseHasRealEdges := by
  refine fun s hs => ⟨fun hev => ?_, fun hframe hev => ?_⟩
  · have hphase := (Encoder.phase_of_nextEvent_sclk hev).1 rfl
    rw [State.sclk_of_ofFrame hs (by rw [hphase]; rfl), hphase]
    rfl
  · have hphase := (Encoder.phase_of_nextEvent_sclk hev).2 rfl hframe
    rw [State.sclk_of_ofFrame hs hframe, hphase]
    rfl

end Sys2Proof.Machine
end

section
/-! SUPPORT. A busy encoder in order emits the head of what is pending, step by step to the end of its operation (10_state.md R25,
R26, 41_frame_encoder.md R165, 70_reset_and_hazards.md R263). -/

namespace Sys2Proof.Machine

/-! ### One emitting step -/

/-- A busy encoder in order does nothing in a step but emit, with the register's frame loaded at its start. -/
theorem State.cycle_of_busy_inOrder {s : State} (hin : s.enc.inOrder = true) (hbusy : s.enc.busy = true) :
    ∃ e, s.enc.Loads e ∧ s.cycle = ({ s with enc := e } : State).emitNext := by
  have hfault := Encoder.fault_of_busy hin hbusy
  cases hstart : s.enc.atFrameStart with
  | false => exact ⟨s.enc, .stands, State.cycle_of_not_atFrameStart hfault hbusy hstart⟩
  | true =>
    obtain ⟨-, hphase, -⟩ := s.enc.atFrameStart_iff.mp hstart
    obtain ⟨-, hpos, -⟩ := s.enc.inOrder_iff.mp hin
    have hframe := (s.enc.frameOk_iff.mp
      (Encoder.frameOk_of_positionOk hpos (hphase ▸ frameStartPhase_ofFrame _))).1
    refine ⟨_, .frame hstart hframe, ?_⟩
    rw [State.cycle_of_atFrameStart hfault hstart (hframe ▸ decodeFrame_frameWord _ _), exec_wireFrame]
    exact State.sendFrame_at_start hstart

/-- The registers after the position's event that moving on leaves as they were, and the event count. -/
theorem State.afterEvent_registers (s : State) (ev : Event) :
    (s.afterEvent ev).enc.evIdx = s.enc.evIdx + 1 ∧ (s.afterEvent ev).enc.op = s.enc.op ∧
      (s.afterEvent ev).enc.fault = s.enc.fault ∧ (s.afterEvent ev).enc.faultCode = s.enc.faultCode ∧
      (s.afterEvent ev).enc.reqValid = s.enc.reqValid ∧ (s.afterEvent ev).enc.reqWord = s.enc.reqWord ∧
      (s.afterEvent ev).enc.script = s.enc.script := by
  have hsame := ((s.enc.withEffect ev).record ev).advance_same
  rw [← State.afterEvent_enc] at hsame
  obtain ⟨_, _, _, _, _, _, heq⟩ := s.enc.record_withEffect_eq ev
  rw [heq] at hsame
  exact ⟨hsame.evIdx, hsame.op, hsame.fault, hsame.faultCode, hsame.reqValid, hsame.reqWord, hsame.script⟩

/-- The event of a position in order is the head of what is pending; moving on leaves the tail, and `busy` while there is
one (10_state.md R25). -/
theorem State.afterEvent_pending {s : State} {ev : Event} (hin : s.enc.inOrder = true) (hbusy : s.enc.busy = true)
    (hev : s.enc.nextEvent = some ev) : s.enc.pending = ev :: (s.afterEvent ev).enc.pending ∧
      ((s.afterEvent ev).enc.busy = true ↔ (s.afterEvent ev).enc.pending ≠ []) := by
  obtain ⟨hflags, hpos, -⟩ := s.enc.inOrder_iff.mp hin
  have hev' := (s.enc.record_withEffect_nextEvent ev).trans hev
  have hbusy' : ((s.enc.withEffect ev).record ev).busy = true := by
    obtain ⟨_, _, _, _, _, _, heq⟩ := s.enc.record_withEffect_eq ev
    rw [heq]; exact hbusy
  rw [State.afterEvent_enc, ← s.enc.record_withEffect_pending ev]
  exact ⟨Encoder.advance_pending _ ev ((s.enc.record_withEffect_flagsOk ev).trans hflags)
    ((s.enc.record_withEffect_positionOk ev).trans hpos) hev', Encoder.advance_busy _ ev hbusy' hev'⟩

/-- The state after an emitting step: the load, then the event, from the state whose act is spent. -/
theorem step_of_busy {s : State} {ev : Event} (hc : s.ConfigWF) (hu : s.Undisturbed) (hin : s.enc.inOrder = true)
    (hlink : s.LinkExclusive) (hbusy : s.enc.busy = true) (hev : s.enc.nextEvent = some ev) (hanswer : s.answer = true) :
    ∃ e, s.enc.Loads e ∧ e.nextEvent = some ev ∧
      step s = .next (({ s.spendAct with enc := e } : State).afterEvent ev) := by
  obtain ⟨e, hload, hcycle⟩ := State.cycle_of_busy_inOrder (s := s.spendAct) hin hbusy
  have hev' := (hload.nextEvent_eq hin).trans hev
  have hanswer' : ({ s.spendAct with enc := e } : State).answer = true := by
    rw [State.answer, hload.sameOnLines.cfg]; exact hanswer
  exact ⟨e, hload, hev', (step_undisturbed hc hu).trans (hcycle.trans (State.emitNext_success hlink hev' hanswer'))⟩

/-- Settles O21: the load touches no line, and the event's effect is that of its kind. -/
theorem stepEmitsOneEvent : Obligations.StepEmitsOneEvent := by
  intro s ev hc hu ho hlink hbusy hev hanswer
  have hin := (s.inOrder_iff.mp ho).1
  obtain ⟨e, hload, -, hstep⟩ := step_of_busy hc hu hin hlink hbusy hev hanswer
  have hfault := Encoder.fault_of_busy hin hbusy
  have hlevel (l : Line) : ({ s.spendAct with enc := e } : State).level l = s.level l :=
    (s.spendAct.level_of_sameOnLines hload.sameOnLines l).trans (by cases l <;> rfl)
  have hdir := hload.sameOnLines.dir
  obtain ⟨hcount, hop, hfault', hcode, hvalid, hword, hscript⟩ :=
    ({ s.spendAct with enc := e } : State).afterEvent_registers ev
  obtain ⟨p, k, rfl⟩ := hload.exists_eq
  refine ⟨_, hstep, State.afterEvent_trace _ ev, hcount, fun l => ?_, fun l => ?_, State.afterEvent_peers _ ev,
    State.afterEvent_outside _ ev, State.afterEvent_cfg _ ev, hop, hfault'.trans hfault, hcode, hvalid, hword, hscript⟩
  · refine (State.afterEvent_level _ ev l).trans ((State.applyEvent_level _ ev l).trans ?_)
    cases ev with
    | set m v => exact congrArg (if m = l then some v else ·) (hlevel l)
    | dir _ | waitUs _ | waitMs _ => exact hlevel l
  · refine (State.afterEvent_dir _ ev l).trans ((State.applyEvent_dir _ ev l).trans ?_)
    cases ev with
    | dir m => exact congrArg (if m = l then .output else ·) (hdir l)
    | set _ _ | waitUs _ | waitMs _ => exact hdir l

/-- Settles O43: the step emits the position's event, which is the head of what is pending. -/
theorem sequencerWalksThePendingEvents : Obligations.SequencerWalksThePendingEvents := by
  intro s hc hu ho hlink hbusy hanswer
  have hin := (s.inOrder_iff.mp ho).1
  obtain ⟨hflags, hpos, -⟩ := s.enc.inOrder_iff.mp hin
  obtain ⟨ev, hev⟩ := Encoder.exists_nextEvent hflags hpos hbusy
  obtain ⟨e, hload, hev', hstep⟩ := step_of_busy hc hu hin hlink hbusy hev hanswer
  have hbusy' : e.busy = true := by
    obtain ⟨p, k, rfl⟩ := hload.exists_eq
    exact hbusy
  have hcount : e.evIdx = s.enc.evIdx := by
    obtain ⟨p, k, rfl⟩ := hload.exists_eq
    rfl
  obtain ⟨hpending, hend⟩ :=
    State.afterEvent_pending (s := { s.spendAct with enc := e }) (hload.inOrder hin) hbusy' hev'
  refine ⟨_, ev, hstep, (hload.pending_eq hin).symm.trans hpending, ?_, ?_, hend⟩
  · exact (State.afterEvent_trace _ ev).trans (congrArg (· ++ [ev]) hload.sameOnLines.trace)
  · exact (State.afterEvent_registers _ ev).1.trans (congrArg (· + 1) hcount)

/-! ### A whole operation -/

/-- The conditions of a quiet run: alone and in order on its link, well formed, nothing outside due for `n` steps, and an
environment that does not fail. -/
structure State.Quiet (s : State) (n : Nat) : Prop where
  alone : s.AloneInOrder
  wellFormed : s.ConfigWF
  undisturbed : s.UndisturbedFor n
  neverFails : s.NeverFails

theorem State.NeverFails.answer {s : State} (h : s.NeverFails) : s.answer = true := by
  obtain hio | hall := h
  · exact State.answer_of_infallible hio
  · cases hans : s.answers with
    | nil => simp [State.answer, hans]
    | cons a rest =>
      rw [hans, List.all_cons, Bool.and_eq_true] at hall
      simp only [State.answer, hans, List.headD_cons, Bool.or_eq_true]
      exact .inr hall.1

theorem State.linkExclusive_of_alone {s : State} (h : s.peers = []) : s.LinkExclusive := by
  rw [State.LinkExclusive, h]; rfl

/-- Alone on its link a machine is well formed if its configuration is. -/
theorem State.configWF_of_alone {s : State} (h : s.peers = []) : s.ConfigWF ↔ s.enc.cfg.WellFormed := by
  simp [State.ConfigWF, State.configFlaw, State.sharingOk, h]

/-- The answers left after an event are no failures if none was. -/
theorem State.NeverFails.afterEvent {s : State} (h : s.NeverFails) (ev : Event) : (s.afterEvent ev).NeverFails := by
  obtain hio | hall := h
  · exact .inl (by rw [State.afterEvent_cfg]; exact hio)
  · refine .inr ?_
    have hanswers : (s.afterEvent ev).answers = if s.enc.cfg.ioFallible then s.answers.tail else s.answers := by
      simp [State.afterEvent]
    rw [hanswers]
    split
    · rw [List.all_eq_true] at hall ⊢
      exact fun a ha => hall a (List.mem_of_mem_tail ha)
    · exact hall

/-- The event that ends an operation leaves the encoder configured: the operation was INIT past its LINK_SETUP, or none
runs unconfigured (60_exceptions.md R237). -/
theorem State.afterEvent_configured_of_done {s : State} {ev : Event} (hin : s.enc.inOrder = true)
    (hev : s.enc.nextEvent = some ev) (hdone : (s.afterEvent ev).enc.busy = false) :
    (s.afterEvent ev).enc.configured = true := by
  obtain ⟨hflags, -, hown⟩ := s.enc.inOrder_iff.mp hin
  have hprogress := Encoder.inProgress_of_nextEvent hev
  obtain ⟨-, hrun, -⟩ := Encoder.ownLinesOk_elim (Encoder.running_of_flagsOk _ hflags hprogress).fault hown
  have hkept := s.afterEvent_configured ev
  by_cases hphase : s.enc.phase = .setup
  · obtain ⟨hflags', -, -⟩ := (Encoder.inOrder_iff _).mp (Encoder.inOrder_afterEvent hin hev)
    obtain ⟨_, _, _, _, _, _, heq⟩ := s.enc.record_withEffect_eq ev
    have hphase' : ((s.enc.withEffect ev).record ev).phase = .setup := by rw [heq]; exact hphase
    obtain ⟨hsetup, -, -⟩ | ⟨hlast, -, -⟩ := Encoder.advance_of_setup _ hphase'
    · rw [State.afterEvent_enc, ((Encoder.flagsOk_iff _).mp hflags').1, hsetup] at hdone
      cases hdone
    · rw [heq] at hlast
      rw [hkept, decide_eq_true hphase, decide_eq_true hlast, Bool.true_and, Bool.or_true]
  · have hconf : s.enc.configured = true := by
      refine (hrun hprogress).resolve_left fun hsetup => hphase ?_
      revert hsetup
      cases s.enc.phase <;> simp [Phase.isSetup]
    rw [hkept, hconf, Bool.true_or]

/-- One step of a quiet run: the head of what is pending, and a quiet run for the rest. -/
theorem State.Quiet.step {s : State} {n : Nat} (h : s.Quiet (n + 1)) (hbusy : s.enc.busy = true) :
    ∃ t ev, step s = .next t ∧ s.enc.pending = ev :: t.enc.pending ∧ t.enc.trace = s.enc.trace ++ [ev] ∧
      t.Quiet n ∧ t.enc.cfg = s.enc.cfg ∧ t.enc.fault = false ∧ (t.enc.busy = true ↔ t.enc.pending ≠ []) ∧
      (t.enc.busy = false → t.enc.configured = true) := by
  obtain ⟨halone, hc, hundisturbed, hfails⟩ := h
  obtain ⟨hnow, hlater⟩ := hundisturbed.spendAct
  obtain ⟨hpeers, hin, -⟩ := s.aloneInOrder_iff.mp halone
  obtain ⟨hflags, hpos, -⟩ := s.enc.inOrder_iff.mp hin
  obtain ⟨ev, hev⟩ := Encoder.exists_nextEvent hflags hpos hbusy
  obtain ⟨e, hload, hev', hstep⟩ :=
    step_of_busy hc hnow hin (State.linkExclusive_of_alone hpeers) hbusy hev hfails.answer
  have hloadedFails : ({ s.spendAct with enc := e } : State).NeverFails := by
    rw [State.NeverFails, hload.sameOnLines.cfg]; exact hfails
  have hloadedBusy : e.busy = true ∧ e.fault = false := by
    have hfault := Encoder.fault_of_busy hin hbusy
    obtain ⟨p, k, rfl⟩ := hload.exists_eq
    exact ⟨hbusy, hfault⟩
  obtain ⟨hpending, hend⟩ :=
    State.afterEvent_pending (s := { s.spendAct with enc := e }) (hload.inOrder hin) hloadedBusy.1 hev'
  have hcfg := (({ s.spendAct with enc := e } : State).afterEvent_cfg ev).trans hload.sameOnLines.cfg
  obtain ⟨-, -, hfault, -⟩ := ({ s.spendAct with enc := e } : State).afterEvent_registers ev
  have halone' := stepKeepsTheLinesInOrder _ _ halone hstep
  refine ⟨_, ev, hstep, (hload.pending_eq hin).symm.trans hpending,
    (State.afterEvent_trace _ ev).trans (congrArg (· ++ [ev]) hload.sameOnLines.trace),
    ⟨halone', ?_, ?_, hloadedFails.afterEvent ev⟩, hcfg, hfault.trans hloadedBusy.2, hend,
    State.afterEvent_configured_of_done (s := { s.spendAct with enc := e }) (hload.inOrder hin) hev'⟩
  · rw [State.configWF_of_alone halone'.1, hcfg]
    exact (State.configWF_of_alone hpeers).mp hc
  · rw [State.UndisturbedFor, State.afterEvent_outside]
    exact hlater

/-- A run begins with a step, of any machine behind the host's interface. -/
theorem run_succ {M : Host.Core} {s t : M.State} (h : M.step s = .next t) (n : Nat) : M.run (n + 1) s = M.run n t := by
  rw [Host.Core.run, h]

/-- A quiet run for as many steps as events are pending emits these and ends the operation. -/
theorem State.Quiet.run {s : State} {n : Nat} (h : s.Quiet n) (hbusy : s.enc.busy = true) (hn : s.enc.pending.length = n) :
    ∃ t, Host.Core.run core n s = .next t ∧ t.enc.trace = s.enc.trace ++ s.enc.pending ∧ t.Quiet 0 ∧
      t.enc.cfg = s.enc.cfg ∧ t.enc.fault = false ∧ t.enc.busy = false ∧ t.enc.configured = true := by
  induction n generalizing s with
  | zero =>
    obtain ⟨halone, -, -, -⟩ := h
    obtain ⟨-, hin, -⟩ := s.aloneInOrder_iff.mp halone
    obtain ⟨hflags, hpos, -⟩ := s.enc.inOrder_iff.mp hin
    obtain ⟨ev, hev⟩ := Encoder.exists_nextEvent hflags hpos hbusy
    have hpending := Encoder.advance_pending _ ev hflags hpos hev
    simp [hpending] at hn
  | succ n ih =>
    obtain ⟨t, ev, hstep, hpending, htrace, hquiet, hcfg, hfault, hend, hconf⟩ := h.step hbusy
    have hfirst : Host.Core.run core (n + 1) s = Host.Core.run core n t := run_succ hstep n
    rw [hfirst]
    have hn' : t.enc.pending.length = n := by simpa [hpending] using hn
    cases hbusy' : t.enc.busy with
    | true =>
      obtain ⟨u, hrun, htrace', hquiet', hcfg', hrest⟩ := ih hquiet hbusy' hn'
      refine ⟨u, hrun, ?_, hquiet', hcfg'.trans hcfg, hrest⟩
      rw [htrace', htrace, hpending, List.append_assoc]
      rfl
    | false =>
      have hnil : t.enc.pending = [] := by
        by_contra hne
        exact absurd (hbusy'.symm.trans (hend.mpr hne)) nofun
      have hzero : n = 0 := by rw [← hn', hnil]; rfl
      subst hzero
      exact ⟨t, rfl, by rw [htrace, hpending, hnil], hquiet, hcfg, hfault, hbusy', hconf hbusy'⟩

/-- Settles O44: the quiet run ends ready and configured, where the invariant puts every line at its idle level. -/
theorem operationRunsToItsEnd : Obligations.OperationRunsToItsEnd := by
  intro s halone hc hundisturbed hfails hbusy
  obtain ⟨t, hrun, htrace, hquiet, hcfg, hfault, hdone, hconf⟩ :=
    State.Quiet.run ⟨halone, hc, hundisturbed, hfails⟩ hbusy rfl
  obtain ⟨hidle, hready, hconfigured⟩ := (linesAreIdleBetweenOperations t hquiet.alone hconf).2 hdone hfault
  exact ⟨t, hrun, htrace, hfault, hready, hconfigured, hidle, hquiet.alone, hcfg⟩

/-- An accepted request of an encoder alone and in order emits what it left pending, in as many steps, and ends with the
launch premises. -/
theorem run_of_accepts {s : State} {e : Encoder} {evs : List Event} (halone : s.AloneInOrder) (hc : s.ConfigWF)
    (hready : s.enc.reqReady = true) (haccept : s.enc.Accepts e) (hpending : e.pending = evs)
    (hundisturbed : s.UndisturbedFor evs.length) (hfails : s.NeverFails) :
    ∃ u, Host.Core.run core evs.length ({ s with enc := e } : State) = .next u ∧
      u.enc.trace = s.enc.trace ++ evs ∧ u.LaunchPremises := by
  subst hpending
  have hcfg := haccept.sameOnLines.cfg
  have halone' := (State.CycleTo.accept hready haccept).aloneInOrder halone
  have hc' : ({ s with enc := e } : State).ConfigWF := by
    rw [State.configWF_of_alone (s := { s with enc := e }) halone.1, hcfg]
    exact (State.configWF_of_alone halone.1).mp hc
  have hfails' : ({ s with enc := e } : State).NeverFails := by
    rw [State.NeverFails, hcfg]; exact hfails
  obtain ⟨u, hrun, htrace, hquiet, -, hfault, hdone, hconf⟩ :=
    State.Quiet.run ⟨halone', hc', hundisturbed, hfails'⟩ haccept.startsFrom.busy rfl
  obtain ⟨hidle, hready', hconfigured⟩ := (linesAreIdleBetweenOperations u hquiet.alone hconf).2 hdone hfault
  exact ⟨u, hrun, htrace.trans (congrArg (· ++ e.pending) haccept.sameOnLines.trace), hfault, hready', hconfigured, hidle,
    hquiet.wellFormed, State.linkExclusive_of_alone hquiet.alone.1⟩

/-- Settles O45: each request is accepted by name and leaves its event list pending. -/
theorem eachRequestEmitsItsEventsAndEndsIdle : Obligations.EachRequestEmitsItsEventsAndEndsIdle := by
  rintro s b i halone ⟨hfault, ⟨hbusy, -⟩, ⟨hconf, -⟩, -, hc, -⟩ hundisturbed hfails hseq hi
  have hready := s.enc.reqReady_iff.mpr ⟨hbusy, hfault⟩
  have hrun {e : Encoder} (hexec : exec i s = .next { s with enc := e }) (haccept : s.enc.Accepts e)
      (hpending : e.pending = events s.enc.cfg i) :
      ∃ t u, exec i s = .next t ∧ t.enc.trace = s.enc.trace ∧
        Host.Core.run core (events s.enc.cfg i).length t = .next u ∧
        u.enc.trace = s.enc.trace ++ events s.enc.cfg i ∧ u.LaunchPremises := by
    obtain ⟨u, hu⟩ := run_of_accepts halone hc hready haccept hpending hundisturbed hfails
    exact ⟨_, u, hexec, haccept.sameOnLines.trace, hu⟩
  have hcfg : s.enc.portNext.setBusy.cfg = s.enc.cfg := s.enc.portNext_cfg
  obtain rfl | rfl | rfl | rfl := hi
  · exact hrun (exec_sendCommand_ready b hready hconf) (.sendCommand b hconf)
      ((Encoder.startFrameOp_pending (.inl rfl) _ _ _).trans (by rw [hcfg]; rfl))
  · exact hrun (exec_sendData_ready b hready hconf) (.sendData b hconf)
      ((Encoder.startFrameOp_pending (.inr rfl) _ _ _).trans (by rw [hcfg]; rfl))
  · exact hrun (exec_init_ready b hready hseq) .init ((Encoder.startInit_pending _).trans (by rw [hcfg]; rfl))
  · exact hrun (exec_shutdown_ready b hready hconf hseq) (.shutdown hconf)
      ((Encoder.startShutdown_pending _).trans (by rw [hcfg]; rfl))

/-- Settles O46: a constructed encoder is alone, in order and ready, and nothing is listed for its environment. -/
theorem initFromResetEstablishesTheLaunchPremises : Obligations.InitFromResetEstablishesTheLaunchPremises := by
  intro c s b hwf hseq hs
  obtain ⟨-, rfl⟩ := construct_next hs
  have halone := reset_aloneInOrder c
  have hc := (State.configWF_of_alone halone.1).mpr hwf
  obtain ⟨u, hrun, htrace, hpremises⟩ := run_of_accepts (evs := initEvents c) halone hc rfl .init rfl
    (by simp [State.UndisturbedFor, State.reset]) (.inr rfl)
  exact ⟨_, u, exec_init_ready b rfl hseq, hrun, htrace, hpremises⟩

end Sys2Proof.Machine
end

section
/-! SUPPORT. Where a machine in order can stop, and six bits for its table index (10_state.md R26, 30_encoding.md R97). -/

namespace Sys2Proof.Machine

/-! ### Stops -/

/-- A request stops by refusal only. -/
theorem State.accept_ne_fault (s : State) (needsSequencer needsConfigured : Bool) (start : Encoder → Encoder)
    (f : Fault) : s.accept needsSequencer needsConfigured start ≠ .fault f := by
  unfold State.accept
  split
  · nofun
  · split
    · nofun
    · split <;> nofun

/-- At an existing position an event stops only for another encoder's frame. -/
theorem State.emitNext_fault {s : State} {ev : Event} {f : Fault} (hev : s.enc.nextEvent = some ev)
    (h : s.emitNext = .fault f) : f = .linkOverlap := by
  unfold State.emitNext at h
  split at h
  · cases h; rfl
  · simp only [hev] at h
    split at h <;> cases h

/-- An acting encoder in order stops for another's frame, or refuses a request by one of its two names. -/
theorem State.cycle_stops_of_inOrder {s : State} (hin : s.enc.inOrder = true) :
    (∀ f, s.cycle = .fault f → f = .linkOverlap) ∧
      ∀ r, s.cycle = .refused r → r = .noInitSequencer ∨ r = .notConfigured := by
  obtain ⟨hflags, hpos, -⟩ := s.enc.inOrder_iff.mp hin
  cases hfault : s.enc.fault with
  | true =>
    rw [State.cycle_of_faulted hfault]
    exact ⟨nofun, nofun⟩
  | false =>
    cases hbusy : s.enc.busy with
    | true =>
      obtain ⟨e, hload, hcycle⟩ := State.cycle_of_busy_inOrder hin hbusy
      obtain ⟨ev, hev⟩ := Encoder.exists_nextEvent hflags hpos hbusy
      rw [hcycle]
      exact ⟨fun f hf => State.emitNext_fault ((hload.nextEvent_eq hin).trans hev) hf,
        fun r hr => absurd hr (State.emitNext_ne_refused _ r)⟩
    | false =>
      have hready := s.enc.reqReady_iff.mpr ⟨hbusy, hfault⟩
      cases hvalid : s.enc.reqValid with
      | false =>
        rw [State.cycle_of_no_request hready hvalid]
        exact ⟨nofun, nofun⟩
      | true =>
        rw [State.cycle_of_request hready hvalid]
        unfold decodeRequest
        split
        all_goals exact ⟨fun f hf => absurd hf (State.accept_ne_fault _ _ _ _ f), fun r hr => State.accept_refused hr⟩

/-- What the outside does faults only for an encoder that is not there. -/
theorem State.act_fault {s : State} {f : Fault} (h : s.act = .fault f) :
    s.spendAct.cycle = .fault f ∨ f = .noSuchInstance := by
  unfold State.act at h
  split at h
  · exact .inl h
  · exact .inl h
  · cases h
  · unfold State.hardwareResetPeer at h
    split at h
    · cases h; exact .inr rfl
    · cases h
  · unfold State.grant at h
    split at h
    · cases h; exact .inr rfl
    · cases h

/-- Before it acts a step stops only by the two refusals of an ill-formed machine. -/
theorem step_eq (s : State) :
    step s = s.act ∨ (∃ flaw, step s = .refused (.configError flaw)) ∨ step s = .refused .sharedLinkWithoutChipSelect := by
  cases hflaw : s.configFlaw with
  | some flaw => exact .inr (.inl ⟨flaw, step_of_configFlaw hflaw⟩)
  | none =>
    cases hshare : s.sharingOk with
    | true => exact .inl (step_eq_act hflaw hshare)
    | false => exact .inr (.inr ((sharedLinkNeedsChipSelect s).mpr ⟨hflaw, s.sharingOk_eq_false_iff.mp hshare⟩))

/-- Settles O53: the stops of a machine in order have other names. -/
theorem orderedStatesHaveAPosition : Obligations.OrderedStatesHaveAPosition := by
  intro s ho
  obtain ⟨hcycleFault, hcycleRefused⟩ := State.cycle_stops_of_inOrder (s := s.spendAct) (s.inOrder_iff.mp ho).1
  obtain hstep | ⟨flaw, hstep⟩ | hstep := step_eq s
  · have hrefused (r : Refusal) (hr : r = .notAFrame ∨ r = .notAtFrameStart) : s.act ≠ .refused r := fun h => by
      have := hcycleRefused r (State.act_refused h)
      obtain rfl | rfl := hr <;> simp at this
    rw [hstep]
    refine ⟨fun h => ?_, hrefused _ (.inl rfl), hrefused _ (.inr rfl)⟩
    obtain h | h := State.act_fault h
    · cases hcycleFault _ h
    · cases h
  · rw [hstep]; exact ⟨nofun, nofun, nofun⟩
  · rw [hstep]; exact ⟨nofun, nofun, nofun⟩

/-! ### The table index -/

theorem Encoder.nextEntry_seqPc (e : Encoder) : e.nextEntry.seqPc = e.seqPc := by
  unfold Encoder.nextEntry
  split
  · rfl
  · split <;> rfl

theorem Encoder.frameDone_seqPc_le (e : Encoder) : e.frameDone.seqPc ≤ e.seqPc + 1 := by
  unfold Encoder.frameDone
  split
  case h_1 | h_2 => exact Nat.le_succ _
  all_goals
    split
    · exact (Encoder.nextEntry_seqPc _).le
    · exact Nat.le_refl _

/-- The end of a frame goes on at most to the index past the table, or past SHUTDOWN's entries. -/
theorem Encoder.frameDone_seqPc_lt {e : Encoder} (hpos : e.positionOk = true) (hframe : e.phase.ofFrame = true)
    (hlen : e.cfg.seqRom.length ≤ 63) (hpc : e.seqPc < 64) : e.frameDone.seqPc < 64 := by
  have hle := e.frameDone_seqPc_le
  cases hop : e.op with
  | sendCommand | sendData =>
    have hsame : e.frameDone.seqPc = e.seqPc := by simp [Encoder.frameDone, hop]
    rw [hsame]; exact hpc
  | init =>
    have := Encoder.seqPc_of_init hpos hframe hop
    omega
  | shutdown =>
    have := (Encoder.seqPc_of_shutdown hpos hframe hop).2
    simp only [shutdownEnd] at this
    omega

/-- Moving on keeps the index below 64. -/
theorem Encoder.advance_seqPc_lt {e : Encoder} (hpos : e.positionOk = true) (hlen : e.cfg.seqRom.length ≤ 63)
    (hpc : e.seqPc < 64) : e.advance.seqPc < 64 := by
  have hdone (hframe : e.phase.ofFrame = true) := Encoder.frameDone_seqPc_lt hpos hframe hlen hpc
  unfold Encoder.advance
  cases hphase : e.phase with
  | idle | fCsLow | fData | fClkLow | fWaitLow | fClkHigh | fault => exact hpc
  | setup =>
    dsimp only
    split
    · exact hpc
    · rw [Encoder.nextEntry_seqPc, Encoder.setSeqPc_seqPc]; decide
  | seq => dsimp only; rw [Encoder.nextEntry_seqPc]; exact hpc
  | fWaitHigh =>
    dsimp only
    split
    · exact hpc
    · split
      · exact hpc
      · exact hdone (by rw [hphase]; rfl)
  | fCsHigh => exact hdone (by rw [hphase]; rfl)
  | park => dsimp only; split <;> exact hpc

theorem Encoder.Accepts.seqPc_lt {a b : Encoder} (h : a.Accepts b) (hpc : a.seqPc < 64) : b.seqPc < 64 := by
  have hport : a.portNext.seqPc < 64 := by rw [a.portNext_seqPc]; exact hpc
  cases h with
  | sendCommand b _ | sendData b _ => exact hport
  | init => exact hport
  | shutdown _ =>
    rw [Encoder.startShutdown, Encoder.nextEntry_seqPc, Encoder.setSeqPc_seqPc]
    decide

theorem State.CycleTo.seqPc_lt {s t : State} (h : s.CycleTo t) (hin : s.enc.inOrder = true)
    (hlen : s.enc.cfg.seqRom.length ≤ 63) (hpc : s.enc.seqPc < 64) : t.enc.seqPc < 64 := by
  cases h with
  | faulted _ => exact hpc
  | host _ _ => rw [s.enc.hostTurn_eq]; exact hpc
  | accept _ haccept => exact haccept.seqPc_lt hpc
  | @event e ev _ _ hload _ =>
    obtain ⟨-, hpos, -⟩ := e.inOrder_iff.mp (hload.inOrder hin)
    have hpos' := (e.record_withEffect_positionOk ev).trans hpos
    obtain ⟨p, k, rfl⟩ := hload.exists_eq
    rw [State.afterEvent_enc]
    obtain ⟨_, _, _, _, _, _, heq⟩ := Encoder.record_withEffect_eq { s.enc with payload := p, slot := k } ev
    rw [heq] at hpos' ⊢
    exact Encoder.advance_seqPc_lt hpos' hlen hpc
  | failure _ _ hload =>
    obtain ⟨p, k, rfl⟩ := hload.exists_eq
    exact hpc

/-- Settles O48: the index of each encoder is kept, set back to an entry of its operation, or cleared by reset. -/
theorem sixBitsHoldTheTableIndex : Obligations.SixBitsHoldTheTableIndex := by
  intro s t ho hs h
  obtain ⟨hlen, hpc⟩ := hs s.enc List.mem_cons_self
  exact step_keeps_each h (fun e he => (hs e he).2) (fun hcycle => hcycle.seqPc_lt (s.inOrder_iff.mp ho).1 hlen hpc)
    fun _ => (by decide : 0 < 64)

end Sys2Proof.Machine
end

section
/-! SUPPORT. What a step does not read: the port while busy (20_memory.md R75), and between operations the registers that hold no
value (10_state.md R24, R55). -/

namespace Sys2Proof.Machine

/-! ### The port while busy -/

section
variable (e : Encoder) (v : Bool) (w : ReqWord) (script : List HostAct)

theorem Encoder.ite_withPort (p : Prop) [Decidable p] (a b : Encoder) :
    (if p then a else b).withPort v w script = if p then a.withPort v w script else b.withPort v w script :=
  apply_ite (fun x : Encoder => x.withPort v w script) p a b

theorem Encoder.nextEntry_withPort :
    (e.withPort v w script).nextEntry = e.nextEntry.withPort v w script := by
  have hentry : entryAt (e.withPort v w script).cfg (e.withPort v w script).op (e.withPort v w script).seqPc =
      entryAt e.cfg e.op e.seqPc := rfl
  unfold Encoder.nextEntry
  rw [hentry]
  split
  · rfl
  · rw [Encoder.ite_withPort]; rfl

theorem Encoder.frameDone_withPort :
    (e.withPort v w script).frameDone = e.frameDone.withPort v w script := by
  have hop : (e.withPort v w script).op = e.op := rfl
  have hseq : (if ((e.withPort v w script).setSeqPc ((e.withPort v w script).seqPc + 1)).dueAfter = .nothing
        then ((e.withPort v w script).setSeqPc ((e.withPort v w script).seqPc + 1)).nextEntry
        else ((e.withPort v w script).setSeqPc ((e.withPort v w script).seqPc + 1)).goto .seq) =
      (if (e.setSeqPc (e.seqPc + 1)).dueAfter = .nothing then (e.setSeqPc (e.seqPc + 1)).nextEntry
        else (e.setSeqPc (e.seqPc + 1)).goto .seq).withPort v w script := by
    rw [Encoder.ite_withPort, ← Encoder.nextEntry_withPort]
    rfl
  unfold Encoder.frameDone
  rw [hop, hseq]
  cases e.op <;> rfl

/-- Moving on neither reads nor writes the port. -/
theorem Encoder.advance_withPort : (e.withPort v w script).advance = e.advance.withPort v w script := by
  have hphase : (e.withPort v w script).phase = e.phase := rfl
  unfold Encoder.advance
  rw [hphase]
  cases e.phase with
  | idle | fCsLow | fData | fClkLow | fWaitLow | fClkHigh | fault => rfl
  | setup => dsimp only; rw [Encoder.ite_withPort, ← Encoder.nextEntry_withPort]; rfl
  | seq => exact e.nextEntry_withPort v w script
  | fWaitHigh => dsimp only; rw [Encoder.ite_withPort, Encoder.ite_withPort, ← Encoder.frameDone_withPort]; rfl
  | fCsHigh => exact e.frameDone_withPort v w script
  | park => dsimp only; rw [Encoder.ite_withPort]; rfl

end

/-- The state with another request port of the acting encoder. -/
def State.withPort (s : State) (v : Bool) (w : ReqWord) (script : List HostAct) : State :=
  { s with enc := s.enc.withPort v w script }

section
variable (s : State) (v : Bool) (w : ReqWord) (script : List HostAct)

theorem State.afterEvent_withPort (ev : Event) :
    (s.withPort v w script).afterEvent ev = (s.afterEvent ev).withPort v w script := by
  have happly : ((s.withPort v w script).spendAnswer.applyEvent ev) =
      (s.spendAnswer.applyEvent ev).withPort v w script := by
    rw [State.spendAnswer_eq, State.spendAnswer_eq]
    cases ev with
    | set l b => cases l <;> rfl
    | dir l => cases l <;> rfl
    | waitUs n | waitMs n => rfl
  unfold State.afterEvent
  rw [happly]
  exact congrArg (fun x => ({ (s.spendAnswer.applyEvent ev).withPort v w script with enc := x } : State))
    (((s.spendAnswer.applyEvent ev).enc.record ev).advance_withPort v w script)

theorem State.afterFailure_withPort :
    (s.withPort v w script).afterFailure = s.afterFailure.withPort v w script := by
  unfold State.afterFailure
  rw [State.spendAnswer_eq, State.spendAnswer_eq]
  rfl

variable {s} {t : State}

theorem State.emitNext_withPort (h : s.emitNext = .next t) :
    (s.withPort v w script).emitNext = .next (t.withPort v w script) := by
  obtain ⟨hlink, ev, hev, ⟨hanswer, rfl⟩ | ⟨hanswer, rfl⟩⟩ := State.emitNext_next h
  · rw [← State.afterEvent_withPort]
    exact State.emitNext_success hlink hev hanswer
  · rw [← State.afterFailure_withPort]
    exact State.emitNext_failure hlink hev hanswer

/-- The step of a busy encoder does not read the port. -/
theorem State.cycle_withPort (hbusy : s.enc.busy = true) (h : s.cycle = .next t) :
    (s.withPort v w script).cycle = .next (t.withPort v w script) := by
  obtain ⟨hfault, rfl⟩ | ⟨hfault, -, hstart, h⟩ | ⟨hfault, -, hstart, i, hdecode, h⟩ | ⟨-, hidle, -⟩ | ⟨-, hidle, -⟩ :=
    State.cycle_next h
  · exact State.cycle_of_faulted (s := t.withPort v w script) hfault
  · exact (State.cycle_of_not_atFrameStart (s := s.withPort v w script) hfault hbusy hstart).trans
      (State.emitNext_withPort v w script h)
  · obtain ⟨dc, b, hframe, hexec⟩ := exec_decodeFrame hdecode
    have hdecode' : decodeFrame (s.withPort v w script).enc.frame =
        .ok (if dc then .wireDataFrame b else .wireCommandFrame b) := hframe ▸ decodeFrame_frameWord dc b
    rw [State.cycle_of_atFrameStart (s := s.withPort v w script) hfault hstart hdecode', exec_wireFrame,
      State.sendFrame_at_start (s := s.withPort v w script) hstart]
    exact State.emitNext_withPort v w script (State.sendFrame_next (hexec ▸ h)).2
  · rw [hbusy] at hidle; cases hidle
  · rw [hbusy] at hidle; cases hidle

end

/-- Settles O29: the checks before the step do not look at the port, nor does the step of a busy encoder. -/
theorem portIsNotReadWhileBusy : Obligations.PortIsNotReadWhileBusy := by
  intro s t v w script hu hbusy h
  obtain ⟨hflaw, hshare, -⟩ := step_next h
  have hcycle : s.spendAct.cycle = .next t := (step_undisturbed ⟨hflaw, hshare⟩ hu).symm.trans h
  exact (step_undisturbed (s := s.withPort v w script) ⟨hflaw, hshare⟩ hu).trans
    (State.cycle_withPort (s := s.spendAct) v w script hbusy hcycle)

/-! ### The registers between operations -/

/-- What is to come of an encoder agrees: its flags, phase and port, its trace, and while busy what is pending. -/
structure Encoder.AgreesAhead (b a : Encoder) : Prop where
  busy : b.busy = a.busy
  phase : b.phase = a.phase
  configured : b.configured = a.configured
  pending : a.busy = true → b.pending = a.pending
  trace : b.trace = a.trace
  reqValid : b.reqValid = a.reqValid
  reqWord : b.reqWord = a.reqWord
  script : b.script = a.script

section
variable (op : Op) (payload : Byte) (frame : FrameWord) (sub : BitVec 3) (slot : BitVec 5) (seqPc evIdx : Nat)

/-- The host's turn leaves the registers. -/
theorem Encoder.portNext_withScratch (e : Encoder) : (e.withScratch op payload frame sub slot seqPc evIdx).portNext =
    e.portNext.withScratch op payload frame sub slot seqPc evIdx := by
  have hscript : (e.withScratch op payload frame sub slot seqPc evIdx).script = e.script := rfl
  unfold Encoder.portNext
  rw [hscript]
  split <;> rfl

theorem Encoder.hostTurn_withScratch (e : Encoder) : (e.withScratch op payload frame sub slot seqPc evIdx).hostTurn =
    e.hostTurn.withScratch op payload frame sub slot seqPc evIdx := by
  have hscript : (e.withScratch op payload frame sub slot seqPc evIdx).script = e.script := rfl
  unfold Encoder.hostTurn
  rw [hscript]
  split
  next rest _ => exact Encoder.portNext_withScratch op payload frame sub slot seqPc evIdx { e with script := rest }
  · exact e.portNext_withScratch op payload frame sub slot seqPc evIdx

/-- A start loads every register that it reads. -/
def Encoder.StartLoads (start : Encoder → Encoder) : Prop :=
  ∀ (e : Encoder) (op : Op) (payload : Byte) (frame : FrameWord) (sub : BitVec 3) (slot : BitVec 5) (seqPc evIdx : Nat),
    (start (e.withScratch op payload frame sub slot seqPc evIdx)).AgreesAhead (start e)

theorem Encoder.startFrameOp_loads {op : Op} (hop : op = .sendCommand ∨ op = .sendData) (dc : Bool) (b : Byte) :
    Encoder.StartLoads (Encoder.startFrameOp op dc b) := fun e _ _ _ _ _ _ _ =>
  ⟨rfl, rfl, rfl, fun _ => (Encoder.startFrameOp_pending hop dc b _).trans (Encoder.startFrameOp_pending hop dc b e).symm,
    rfl, rfl, rfl, rfl⟩

theorem Encoder.startInit_loads : Encoder.StartLoads Encoder.startInit :=
  fun _ _ _ _ _ _ _ _ => ⟨rfl, rfl, rfl, fun _ => rfl, rfl, rfl, rfl, rfl⟩

theorem Encoder.startShutdown_busy (e : Encoder) : e.startShutdown.busy = e.busy :=
  Encoder.nextEntry_busy_of_shutdown rfl

theorem Encoder.startShutdown_configured (e : Encoder) : e.startShutdown.configured = e.configured :=
  Encoder.nextEntry_configured _

theorem Encoder.startShutdown_loads : Encoder.StartLoads Encoder.startShutdown := by
  intro e op payload frame sub slot seqPc evIdx
  have hsame := Encoder.nextEntry_same (({ e with op := .shutdown } : Encoder).setSeqPc shutdownFirst)
  have hsame' := Encoder.nextEntry_same
    (({ e.withScratch op payload frame sub slot seqPc evIdx with op := .shutdown } : Encoder).setSeqPc shutdownFirst)
  refine ⟨?_, ?_, ?_, fun _ => ?_, hsame'.trace.trans hsame.trace.symm, hsame'.reqValid.trans hsame.reqValid.symm,
    hsame'.reqWord.trans hsame.reqWord.symm, hsame'.script.trans hsame.script.symm⟩
  · exact (Encoder.startShutdown_busy _).trans e.startShutdown_busy.symm
  · simp only [Encoder.startShutdown, Encoder.nextEntry, Encoder.setSeqPc, Encoder.withScratch]
    split <;> rfl
  · exact (Encoder.startShutdown_configured _).trans e.startShutdown_configured.symm
  · exact (Encoder.startShutdown_pending _).trans e.startShutdown_pending.symm

variable {s t : State}

/-- Acceptance from other contents of the registers. -/
theorem State.accept_withScratch {needsSequencer needsConfigured : Bool} {start : Encoder → Encoder}
    (hstart : Encoder.StartLoads start) (hready : s.enc.reqReady = true)
    (h : s.accept needsSequencer needsConfigured start = .next t) :
    ∃ u, ({ s with enc := s.enc.withScratch op payload frame sub slot seqPc evIdx } : State).accept needsSequencer
        needsConfigured start = .next u ∧ u.enc.AgreesAhead t.enc ∧ u.sdo = t.sdo ∧ u.sclk = t.sclk := by
  obtain ⟨hunready, -⟩ | ⟨-, hseq, hconf, rfl⟩ := State.accept_next h
  · rw [hready] at hunready; cases hunready
  · refine ⟨_, State.accept_ready hready hseq hconf, ?_, rfl, rfl⟩
    have hport : (s.enc.withScratch op payload frame sub slot seqPc evIdx).portNext.setBusy =
        s.enc.portNext.setBusy.withScratch op payload frame sub slot seqPc 0 := by
      rw [Encoder.portNext_withScratch]; rfl
    rw [hport]
    exact hstart _ _ _ _ _ _ _ _

/-- Each of the four requests loads every register that it reads. -/
theorem exec_decodeRequest_withScratch {w : ReqWord} (hready : s.enc.reqReady = true)
    (h : exec (decodeRequest w) s = .next t) :
    ∃ u, exec (decodeRequest w) { s with enc := s.enc.withScratch op payload frame sub slot seqPc evIdx } = .next u ∧
      u.enc.AgreesAhead t.enc ∧ u.sdo = t.sdo ∧ u.sclk = t.sclk := by
  revert h
  unfold decodeRequest
  split
  · exact State.accept_withScratch _ _ _ _ _ _ _ (Encoder.startFrameOp_loads (.inl rfl) _ _) hready
  · exact State.accept_withScratch _ _ _ _ _ _ _ (Encoder.startFrameOp_loads (.inr rfl) _ _) hready
  · exact State.accept_withScratch _ _ _ _ _ _ _ Encoder.startInit_loads hready
  · exact State.accept_withScratch _ _ _ _ _ _ _ Encoder.startShutdown_loads hready

/-- The step of a ready encoder reads none of them. -/
theorem State.cycle_withScratch (hready : s.enc.reqReady = true) (h : s.cycle = .next t) :
    ∃ u, ({ s with enc := s.enc.withScratch op payload frame sub slot seqPc evIdx } : State).cycle = .next u ∧
      u.enc.AgreesAhead t.enc ∧ u.sdo = t.sdo ∧ u.sclk = t.sclk := by
  cases hvalid : s.enc.reqValid with
  | true =>
    rw [State.cycle_of_request hready hvalid] at h
    rw [State.cycle_of_request (s := { s with enc := s.enc.withScratch op payload frame sub slot seqPc evIdx }) hready hvalid]
    exact exec_decodeRequest_withScratch op payload frame sub slot seqPc evIdx hready h
  | false =>
    rw [State.cycle_of_no_request hready hvalid] at h
    cases h
    refine ⟨_, State.cycle_of_no_request hready hvalid, ?_, rfl, rfl⟩
    have hidle : s.enc.hostTurn.busy = false := by rw [s.enc.hostTurn_eq]; exact (s.enc.reqReady_iff.mp hready).1
    rw [Encoder.hostTurn_withScratch]
    exact ⟨rfl, rfl, rfl, fun hbusy => absurd (hidle.symm.trans hbusy) nofun, rfl, rfl, rfl, rfl⟩

end

/-- Settles O30: the host's turn leaves the registers, and each request loads those its operation reads. -/
theorem idleRegistersAreNotRead : Obligations.IdleRegistersAreNotRead := by
  intro s t op payload frame sub slot seqPc evIdx hu hready h
  obtain ⟨hflaw, hshare, -⟩ := step_next h
  have hcycle : s.spendAct.cycle = .next t := (step_undisturbed ⟨hflaw, hshare⟩ hu).symm.trans h
  obtain ⟨u, hu', ⟨hbusy, hphase, hconf, hpending, htrace, hvalid, hword, hscript⟩, hsdo, hsclk⟩ :=
    State.cycle_withScratch (s := s.spendAct) op payload frame sub slot seqPc evIdx hready hcycle
  exact ⟨u, (step_undisturbed (s := { s with enc := s.enc.withScratch op payload frame sub slot seqPc evIdx })
    ⟨hflaw, hshare⟩ hu).trans hu', hbusy, hphase, hconf, hpending, htrace, hvalid, hword, hscript, hsdo, hsclk⟩

end Sys2Proof.Machine
end
